-- ==== Sys2Proof/Word.lean ====
section
/-!
DEFINITION. The word types of BB32 (00_scope.md section 5): everything the spec treats as bits.
-/

namespace Sys2Proof

/-- A register, memory cell, address or command value: 32 bits (00_scope.md R5, `XLEN`). -/
abbrev Word := BitVec 32

/-- The byte of a character event (10_state.md R24), and the unit the model stores memory in (log 5). -/
abbrev Byte := BitVec 8

/-- A register index 0..31, a 5-bit field of the instruction word (30_encoding.md R55). -/
abbrev RegIdx := BitVec 5

/-- A numeric opcode, the 6-bit field of the instruction word (30_encoding.md R51). -/
abbrev Opcode := BitVec 6

end Sys2Proof
end

