-- ==== Sys2Proof/Config.lean ====
section
/-!
DEFINITION. The implementation parameters of 00_scope.md R5. The spec fixes all of them but two, which a
model takes as arguments: `VARIANT` and the initial memory (93_implementation_defined.md section 2).
There is no free value: the spec leaves no value of the block open.
-/

namespace Sys2Proof

/-- The three machines of one parameter `VARIANT` (00_scope.md R2). -/
inductive Variant where
  /-- One instruction per step: the serial reference (40_execute_common.md R84). -/
  | serial
  /-- The four-stage pipeline without the predictor (50_pipeline.md R148). -/
  | pipelined
  /-- The pipeline with the GShare predictor: the named hardware block. -/
  | predicted
  deriving DecidableEq, Repr

namespace Config

/-- The index of the program counter, alias `r_PC` (10_state.md R11, R12). -/
abbrev pcIdx : RegIdx := 31#5

/-- The index that reads zero and prints a character when written, alias `r_ZERO`. -/
abbrev zeroIdx : RegIdx := 30#5

/-- The index that reads the immediate and prints hexadecimal when written, alias `r_IMM`. -/
abbrev immIdx : RegIdx := 29#5

/-- The address `R[31]` holds after reset (10_state.md R28, 70_reset_and_hazards.md R223). -/
def resetPc : Word := 0#32

/-- The variant of `State.reset`: the spec says that the block is `predicted` (00_scope.md R2, R5).
DESIGN CHOICE (log 1): the spec has `VARIANT` as a parameter, not as state with a reset value. -/
def resetVariant : Variant := .predicted

/-- What a cell that nothing has written reads as, byte by byte (20_memory.md R33). -/
def unsetByte : Byte := 0#8

/-- A GShare counter's value after reset (51_predictor.md R181). -/
def resetCounter : BitVec 2 := 2#2

/-- The canonical no-op word, `add r30, r30, r30, 0` (30_encoding.md R65). -/
def noopWord : Word := 0xC3DEF000#32

end Config

end Sys2Proof
end

