-- ==== Sys2Proof/Syntax.lean ====
section
/-!
DEFINITION. The instructions of spec/opcode_table.json, one constructor per row.

Every row has the one format `[opcode | d | a | b | i]` (30_encoding.md R51), and the decoder extracts all
five fields from every word, whether or not the opcode uses them (R54); so every constructor carries
`d`, `a`, `b` and `i`. As in the spec, `i` is the sign-extended immediate, a word (10_state.md R16);
`WellFormed` says which words are sign extensions of an 11-bit field (log 13).
-/

namespace Sys2Proof

/-- The fields `d`, `a`, `b`, `i` of a decoded instruction (10_state.md R16). -/
structure Fields where
  d : RegIdx
  a : RegIdx
  b : RegIdx
  i : Word
  deriving DecidableEq, Repr

/-- One constructor per row of the opcode table (30_encoding.md R56). -/
inductive Instr where
  /-- `hlt` 0x00 (41_halt.md R90): halt; all fields ignored. -/
  | hlt (d a b : RegIdx) (i : Word)
  /-- `ld` 0x10 (42_load_store.md R92). -/
  | ld (d a b : RegIdx) (i : Word)
  /-- `st` 0x11 (42_load_store.md R93); `d` is the source. -/
  | st (d a b : RegIdx) (i : Word)
  /-- `push` 0x12 (43_stack_macros.md R97), a macro of two micro-ops. -/
  | push (d a b : RegIdx) (i : Word)
  /-- `pop` 0x13 (43_stack_macros.md R98), a macro of two micro-ops. -/
  | pop (d a b : RegIdx) (i : Word)
  /-- `pushall` 0x14 (30_encoding.md R62): decodes, raises `InvalidOpcode` in execute. -/
  | pushall (d a b : RegIdx) (i : Word)
  /-- `popall` 0x15 (30_encoding.md R62): decodes, raises `InvalidOpcode` in execute. -/
  | popall (d a b : RegIdx) (i : Word)
  /-- `iflt` 0x20 (44_conditionals.md R105). -/
  | iflt (d a b : RegIdx) (i : Word)
  /-- `ifle` 0x21 (44_conditionals.md R106). -/
  | ifle (d a b : RegIdx) (i : Word)
  /-- `ifeq` 0x22 (44_conditionals.md R107). -/
  | ifeq (d a b : RegIdx) (i : Word)
  /-- `ifne` 0x23 (44_conditionals.md R108). -/
  | ifne (d a b : RegIdx) (i : Word)
  /-- `call` 0x24 (30_encoding.md R62): decodes, raises `InvalidOpcode` in execute. -/
  | call (d a b : RegIdx) (i : Word)
  /-- `intr` 0x25 (30_encoding.md R62): decodes, raises `InvalidOpcode` in execute. -/
  | intr (d a b : RegIdx) (i : Word)
  /-- `add` 0x30 (45_alu_arith.md R110). -/
  | add (d a b : RegIdx) (i : Word)
  /-- `sub` 0x31 (45_alu_arith.md R111). -/
  | sub (d a b : RegIdx) (i : Word)
  /-- `div` 0x32 (45_alu_arith.md R113). -/
  | div (d a b : RegIdx) (i : Word)
  /-- `mod` 0x33 (45_alu_arith.md R114). -/
  | mod (d a b : RegIdx) (i : Word)
  /-- `mul` 0x34 (45_alu_arith.md R112). -/
  | mul (d a b : RegIdx) (i : Word)
  /-- `and` 0x35 (46_alu_logic_shift.md R118). -/
  | and (d a b : RegIdx) (i : Word)
  /-- `or` 0x36 (46_alu_logic_shift.md R119). -/
  | or (d a b : RegIdx) (i : Word)
  /-- `nand` 0x37 (46_alu_logic_shift.md R120). -/
  | nand (d a b : RegIdx) (i : Word)
  /-- `xor` 0x38 (46_alu_logic_shift.md R121). -/
  | xor (d a b : RegIdx) (i : Word)
  /-- `sl` 0x3A (46_alu_logic_shift.md R122). -/
  | sl (d a b : RegIdx) (i : Word)
  /-- `sr` 0x3B (46_alu_logic_shift.md R123). -/
  | sr (d a b : RegIdx) (i : Word)
  /-- `sal` 0x3C (46_alu_logic_shift.md R124). -/
  | sal (d a b : RegIdx) (i : Word)
  /-- `sar` 0x3D (46_alu_logic_shift.md R125). -/
  | sar (d a b : RegIdx) (i : Word)
  deriving DecidableEq, Repr

/-- The four fields of an instruction. -/
def Instr.fields : Instr → Fields
  | .hlt d a b i => ⟨d, a, b, i⟩
  | .ld d a b i => ⟨d, a, b, i⟩
  | .st d a b i => ⟨d, a, b, i⟩
  | .push d a b i => ⟨d, a, b, i⟩
  | .pop d a b i => ⟨d, a, b, i⟩
  | .pushall d a b i => ⟨d, a, b, i⟩
  | .popall d a b i => ⟨d, a, b, i⟩
  | .iflt d a b i => ⟨d, a, b, i⟩
  | .ifle d a b i => ⟨d, a, b, i⟩
  | .ifeq d a b i => ⟨d, a, b, i⟩
  | .ifne d a b i => ⟨d, a, b, i⟩
  | .call d a b i => ⟨d, a, b, i⟩
  | .intr d a b i => ⟨d, a, b, i⟩
  | .add d a b i => ⟨d, a, b, i⟩
  | .sub d a b i => ⟨d, a, b, i⟩
  | .div d a b i => ⟨d, a, b, i⟩
  | .mod d a b i => ⟨d, a, b, i⟩
  | .mul d a b i => ⟨d, a, b, i⟩
  | .and d a b i => ⟨d, a, b, i⟩
  | .or d a b i => ⟨d, a, b, i⟩
  | .nand d a b i => ⟨d, a, b, i⟩
  | .xor d a b i => ⟨d, a, b, i⟩
  | .sl d a b i => ⟨d, a, b, i⟩
  | .sr d a b i => ⟨d, a, b, i⟩
  | .sal d a b i => ⟨d, a, b, i⟩
  | .sar d a b i => ⟨d, a, b, i⟩

end Sys2Proof
end

