-- ==== Sys2Proof/WellFormed.lean ====
section
/-!
DEFINITION. Which terms of `Instr` an instruction word can carry.

The register fields are 5 bits by type (30_encoding.md R55), so the one check is the immediate's: the
sign-extended 11-bit field has the values −1024..1023 (R52).
-/

namespace Sys2Proof

/-- A word that is the sign extension of an 11-bit field (30_encoding.md R52). -/
def immInRange (i : Word) : Bool :=
  decide (-1024 ≤ i.toInt) && decide (i.toInt ≤ 1023)

/-- The fields can stand in an instruction word. -/
def Fields.wf (f : Fields) : Bool := immInRange f.i

/-- The instruction can stand in an instruction word. -/
def Instr.wf (i : Instr) : Bool := i.fields.wf

end Sys2Proof
end

