-- ==== Sys2Proof/Decode.lean ====
section
/-!
DEFINITION. The decoder, the encoder and the assembler's vector form (30_encoding.md).
-/

namespace Sys2Proof

/-! ### The codec's projections (R53) -/

/-- `opcode(w)`: bits 31..26. -/
def opcodeOf (w : Word) : Opcode := w.extractLsb' 26 6

/-- `d(w)`: bits 25..21. -/
def dOf (w : Word) : RegIdx := w.extractLsb' 21 5

/-- `a(w)`: bits 20..16. -/
def aOf (w : Word) : RegIdx := w.extractLsb' 16 5

/-- `b(w)`: bits 15..11. -/
def bOf (w : Word) : RegIdx := w.extractLsb' 11 5

/-- The raw immediate field: bits 10..0. -/
def immFieldOf (w : Word) : BitVec 11 := w.extractLsb' 0 11

/-- `sext_11` (R52). -/
def sext11 (v : BitVec 11) : Word := v.signExtend 32

/-- `imm(w)`, sign-extended (R53). -/
def immOf (w : Word) : Word := sext11 (immFieldOf w)

/-- The fields of a word, extracted whatever the opcode (R54). -/
def fieldsOf (w : Word) : Fields := ⟨dOf w, aOf w, bOf w, immOf w⟩

/-! ### The opcode map (R56) -/

/-- The opcode assignments, in the order of the opcode table. -/
def opcodeTable : List (Opcode × (RegIdx → RegIdx → RegIdx → Word → Instr)) :=
  [ (0x00#6, .hlt),
    (0x10#6, .ld), (0x11#6, .st), (0x12#6, .push), (0x13#6, .pop), (0x14#6, .pushall), (0x15#6, .popall),
    (0x20#6, .iflt), (0x21#6, .ifle), (0x22#6, .ifeq), (0x23#6, .ifne), (0x24#6, .call), (0x25#6, .intr),
    (0x30#6, .add), (0x31#6, .sub), (0x32#6, .div), (0x33#6, .mod), (0x34#6, .mul),
    (0x35#6, .and), (0x36#6, .or), (0x37#6, .nand), (0x38#6, .xor),
    (0x3A#6, .sl), (0x3B#6, .sr), (0x3C#6, .sal), (0x3D#6, .sar) ]

/-- The numeric opcode of an instruction (R56), read by the encoder and by the fault record. -/
def Instr.opcode : Instr → Opcode
  | .hlt _ _ _ _ => 0x00#6
  | .ld _ _ _ _ => 0x10#6
  | .st _ _ _ _ => 0x11#6
  | .push _ _ _ _ => 0x12#6
  | .pop _ _ _ _ => 0x13#6
  | .pushall _ _ _ _ => 0x14#6
  | .popall _ _ _ _ => 0x15#6
  | .iflt _ _ _ _ => 0x20#6
  | .ifle _ _ _ _ => 0x21#6
  | .ifeq _ _ _ _ => 0x22#6
  | .ifne _ _ _ _ => 0x23#6
  | .call _ _ _ _ => 0x24#6
  | .intr _ _ _ _ => 0x25#6
  | .add _ _ _ _ => 0x30#6
  | .sub _ _ _ _ => 0x31#6
  | .div _ _ _ _ => 0x32#6
  | .mod _ _ _ _ => 0x33#6
  | .mul _ _ _ _ => 0x34#6
  | .and _ _ _ _ => 0x35#6
  | .or _ _ _ _ => 0x36#6
  | .nand _ _ _ _ => 0x37#6
  | .xor _ _ _ _ => 0x38#6
  | .sl _ _ _ _ => 0x3A#6
  | .sr _ _ _ _ => 0x3B#6
  | .sal _ _ _ _ => 0x3C#6
  | .sar _ _ _ _ => 0x3D#6

/-! ### The decoder (R54) -/

/-- What `decode` answers: an instruction of the table, or a word of an unassigned opcode, which keeps its
number as `icode` and travels down the pipeline like any other (R54, R63). -/
inductive Decoded where
  | instr (i : Instr)
  | unassigned (icode : Opcode) (f : Fields)
  deriving DecidableEq, Repr

/-- The fields of a decoded instruction, assigned opcode or not. -/
def Decoded.fields : Decoded → Fields
  | .instr i => i.fields
  | .unassigned _ f => f

/-- The numeric opcode of a decoded instruction. -/
def Decoded.icode : Decoded → Opcode
  | .instr i => i.opcode
  | .unassigned c _ => c

/-- `decode(w)`, total on every word and never faulting (R54). -/
def decode (w : Word) : Decoded :=
  match opcodeTable.lookup (opcodeOf w) with
  | some mk => .instr (mk (dOf w) (aOf w) (bOf w) (immOf w))
  | none => .unassigned (opcodeOf w) (fieldsOf w)

/-! ### The encoder (R59) -/

/-- `pack` of fields that are in range: the five fields tile the word (R51). -/
def packFields (op : Opcode) (d a b : RegIdx) (v : BitVec 11) : Word :=
  op ++ d ++ a ++ b ++ v

/-- `pack(op, d, a, b, imm)` on numbers: every argument is masked to its field (R59). -/
def pack (op d a b : Nat) (imm : Int) : Word :=
  packFields (BitVec.ofNat 6 op) (BitVec.ofNat 5 d) (BitVec.ofNat 5 a) (BitVec.ofNat 5 b)
    (BitVec.ofInt 11 imm)

/-- The word of an instruction; the low 11 bits of the immediate enter the word. -/
def encode (i : Instr) : Word :=
  packFields i.opcode i.fields.d i.fields.a i.fields.b (i.fields.i.setWidth 11)

/-! ### Words as bytes

The spec defines no byte order, since none is observable (20_memory.md R38). The model stores a word's
least significant byte at the lowest address. DESIGN CHOICE (log 5). -/

/-- Byte `k` of a word, 0 the least significant. -/
def byteOf (w : Word) (k : Nat) : Byte := w.extractLsb' (8 * k) 8

/-- The four bytes of a word in address order. -/
def wordBytes (w : Word) : List Byte := [byteOf w 0, byteOf w 1, byteOf w 2, byteOf w 3]

/-- The word of four bytes in address order. -/
def wordOfBytes (b0 b1 b2 b3 : Byte) : Word := b3 ++ b2 ++ b1 ++ b0

/-- Why a list of bytes gives no instruction of the table. -/
inductive DecodeReject where
  /-- Fewer than four bytes: no instruction word (30_encoding.md R50). -/
  | truncated
  /-- One of the 38 unassigned opcodes (R57, R63). -/
  | unassignedOpcode (icode : Opcode)
  deriving DecidableEq, Repr

/-- Decoding of a byte list: an instruction of the table and the bytes after it, or a rejection by name. -/
def decodeBytes : List Byte → Except DecodeReject (Instr × List Byte)
  | b0 :: b1 :: b2 :: b3 :: rest =>
    match decode (wordOfBytes b0 b1 b2 b3) with
    | .instr i => .ok (i, rest)
    | .unassigned c _ => .error (.unassignedOpcode c)
  | _ => .error .truncated

/-- The word a table row stands for: `nbits` low bits of `w`, the bits above 0. -/
def tableWord (nbits w : Nat) : Word := BitVec.ofNat 32 (w % 2 ^ nbits)

/-- The instruction the decoder reads from a table row's word, laid out in bytes. -/
def decodeTableWord (nbits w : Nat) : Option Instr :=
  match decodeBytes (wordBytes (tableWord nbits w)) with
  | .ok (i, _) => some i
  | .error _ => none

/-! ### The assembler's vector form (R58 to R61) -/

/-- A register slot of a vector form: a number or one of the three aliases (R60). -/
inductive AsmReg where
  | idx (n : Nat)
  | rPC
  | rZERO
  | rIMM
  deriving DecidableEq, Repr

/-- Alias normalisation (R60). -/
def AsmReg.number : AsmReg → Nat
  | .idx n => n
  | .rPC => 31
  | .rZERO => 30
  | .rIMM => 29

/-- The four conditional opcodes, which the vector form writes without `d` (R58). -/
inductive CondOp where
  | iflt | ifle | ifeq | ifne
  deriving DecidableEq, Repr

/-- The opcodes that the vector form writes with all four slots (R58): memory, macros, ALU. -/
inductive FullOp where
  | ld | st | push | pop
  | add | sub | div | mod | mul
  | and | or | nand | xor
  | sl | sr | sal | sar
  deriving DecidableEq, Repr

/-- The code of a conditional (R56). -/
def CondOp.code : CondOp → Nat
  | .iflt => 0x20
  | .ifle => 0x21
  | .ifeq => 0x22
  | .ifne => 0x23

/-- The code of a four-slot opcode (R56). -/
def FullOp.code : FullOp → Nat
  | .ld => 0x10
  | .st => 0x11
  | .push => 0x12
  | .pop => 0x13
  | .add => 0x30
  | .sub => 0x31
  | .div => 0x32
  | .mod => 0x33
  | .mul => 0x34
  | .and => 0x35
  | .or => 0x36
  | .nand => 0x37
  | .xor => 0x38
  | .sl => 0x3A
  | .sr => 0x3B
  | .sal => 0x3C
  | .sar => 0x3D

/-- The forms a loader accepts (R58). -/
inductive VectorForm where
  | hlt
  | cond (op : CondOp) (a b : AsmReg) (i : Int)
  | full (op : FullOp) (d a b : AsmReg) (i : Int)
  deriving DecidableEq, Repr

/-- The word of a vector form (R59). -/
def VectorForm.word : VectorForm → Word
  | .hlt => pack 0x00 0 0 0 0
  | .cond op a b i => pack op.code 0 a.number b.number i
  | .full op d a b i => pack op.code d.number a.number b.number i

/-- A register slot whose number is an index. -/
def AsmReg.legal (r : AsmReg) : Bool := decide (r.number < 32)

/-- A vector form whose slots are in range (R59, "legal tuple"). -/
def VectorForm.legal : VectorForm → Bool
  | .hlt => true
  | .cond _ a b i => a.legal && b.legal && decide (-1024 ≤ i) && decide (i ≤ 1023)
  | .full _ d a b i =>
    d.legal && a.legal && b.legal && decide (-1024 ≤ i) && decide (i ≤ 1023)

/-- Alias normalisation of a whole form: every register slot becomes a number (R60). -/
def VectorForm.normalized : VectorForm → VectorForm
  | .hlt => .hlt
  | .cond op a b i => .cond op (.idx a.number) (.idx b.number) i
  | .full op d a b i => .full op (.idx d.number) (.idx a.number) (.idx b.number) i

/-- The vector form a conditional instruction prints as, its `d` dropped (R61 c). -/
def condForm (op : CondOp) (a b : RegIdx) (i : Word) : VectorForm :=
  .cond op (.idx a.toNat) (.idx b.toNat) i.toInt

/-- The vector form a four-slot instruction prints as. -/
def fullForm (op : FullOp) (d a b : RegIdx) (i : Word) : VectorForm :=
  .full op (.idx d.toNat) (.idx a.toNat) (.idx b.toNat) i.toInt

/-- The vector form of an instruction; the v1 opcodes have none (R58). -/
def Instr.vectorForm : Instr → Option VectorForm
  | .hlt _ _ _ _ => some .hlt
  | .ld d a b i => some (fullForm .ld d a b i)
  | .st d a b i => some (fullForm .st d a b i)
  | .push d a b i => some (fullForm .push d a b i)
  | .pop d a b i => some (fullForm .pop d a b i)
  | .pushall _ _ _ _ => none
  | .popall _ _ _ _ => none
  | .iflt _ a b i => some (condForm .iflt a b i)
  | .ifle _ a b i => some (condForm .ifle a b i)
  | .ifeq _ a b i => some (condForm .ifeq a b i)
  | .ifne _ a b i => some (condForm .ifne a b i)
  | .call _ _ _ _ => none
  | .intr _ _ _ _ => none
  | .add d a b i => some (fullForm .add d a b i)
  | .sub d a b i => some (fullForm .sub d a b i)
  | .div d a b i => some (fullForm .div d a b i)
  | .mod d a b i => some (fullForm .mod d a b i)
  | .mul d a b i => some (fullForm .mul d a b i)
  | .and d a b i => some (fullForm .and d a b i)
  | .or d a b i => some (fullForm .or d a b i)
  | .nand d a b i => some (fullForm .nand d a b i)
  | .xor d a b i => some (fullForm .xor d a b i)
  | .sl d a b i => some (fullForm .sl d a b i)
  | .sr d a b i => some (fullForm .sr d a b i)
  | .sal d a b i => some (fullForm .sal d a b i)
  | .sar d a b i => some (fullForm .sar d a b i)

/-- The vector form a word prints as, if it has one. -/
def disassemble (w : Word) : Option VectorForm :=
  match decode w with
  | .instr i => i.vectorForm
  | .unassigned _ _ => none

end Sys2Proof
end

