-- ==== Sys2Proof/Machine/State.lean ====
section
/-!
DEFINITION. The state of the block: every piece of 10_state.md, as plain data, and its value after reset.
-/

namespace Sys2Proof.Machine

/-- Memory: (byte address, byte) pairs in canonical form, addresses strictly rising, no entry equal to what
an unlisted address reads as (`Memory.wf`, Machine/Ops.lean). A cell of the spec is the four bytes from an
address that is a multiple of 4 (20_memory.md R30; byte order: log 5). -/
abbrev Memory := List Host.Cell

/-- An output event (10_state.md R24). -/
inductive OutEvent where
  /-- A character: the low byte of a non-zero value written to index 30. -/
  | outChar (b : Byte)
  /-- The whole non-zero word written to index 29. -/
  | outHex (v : Word)
  deriving DecidableEq, Repr

/-- A writeback command `{dst, addr, val}` (40_execute_common.md R73). `dst` is the constructor; a
`registers` command's `addr` is a register index; a `halt` command carries nothing. -/
inductive Cmd where
  | registers (addr : RegIdx) (val : Word)
  | memory (addr val : Word)
  | halt
  deriving DecidableEq, Repr

/-- The kinds of fault (60_exceptions.md R203). -/
inductive FaultKind where
  /-- The instruction in execute has an opcode with no execute contract (R201). -/
  | invalidOpcode
  /-- `div` or `mod` with second operand 0 (R202). -/
  | arithmeticTrap
  /-- A register index above 31; raised by no rule (R204). -/
  | invalidRegister
  deriving DecidableEq, Repr

/-- The fault record (10_state.md R23, 60_exceptions.md R200). -/
structure FaultRecord where
  kind : FaultKind
  icode : Opcode
  ipc : Word
  deriving DecidableEq, Repr

/-- What the execute stage answers: a command, or a fault with no command (R74, R200). -/
inductive ExecResult where
  | command (c : Cmd)
  | raise (f : FaultRecord)
  deriving DecidableEq, Repr

/-- The value of the fetch latch `FR` (10_state.md R16). -/
structure FetchSlot where
  blob : Word
  ipc : Word
  npc : Word
  deriving DecidableEq, Repr

/-- A decoded instruction with its metadata: the value of `DR` and an element of `DQ` (R16, R20). -/
structure InFlight where
  op : Decoded
  ipc : Word
  npc : Word
  deriving DecidableEq, Repr

/-- The value of the execute latch `XR`: a command with its metadata (R16). -/
structure ExecSlot where
  cmd : Cmd
  ipc : Word
  npc : Word
  deriving DecidableEq, Repr

/-- Sparse data by a numeric key, in canonical form: keys strictly rising. -/
abbrev Assoc (α : Type) := List (Nat × α)

/-- The state of the block. The last field is the model's own: it carries the parameter `VARIANT`. -/
structure State where
  /-- `R[0]` .. `R[31]`; cell 31 is the fetch program counter (10_state.md R10, R14). -/
  regs : Vector Word 32
  /-- `M` (R25). -/
  mem : Memory
  /-- `halted` (R18). -/
  halted : Bool
  /-- `fault` (R23). -/
  fault : Option FaultRecord
  /-- `out`, oldest first (R24). -/
  out : List OutEvent
  /-- `FR` (R16). -/
  fr : Option FetchSlot
  /-- `DQ`, head first (R20). -/
  dq : List InFlight
  /-- `DR` (R16). -/
  dr : Option InFlight
  /-- `XR` (R16). -/
  xr : Option ExecSlot
  /-- `stall` (R21). -/
  stall : Word
  /-- `T`, by index; an unlisted counter holds `Config.resetCounter` (R22; log 11). -/
  table : Assoc (BitVec 2)
  /-- `H`: bit 9 the most recent outcome (R22). -/
  hist : BitVec 10
  /-- `JM`, by address; an unlisted address is outside its domain (R22; log 11). -/
  jumpMap : Assoc Word
  /-- `VARIANT` (00_scope.md R5; log 1). -/
  variant : Variant
  deriving DecidableEq, Repr

/-- Why a step of the host's interface can fault: never. A fault of this hardware is a latched record after
which every step is the identity (60_exceptions.md R200), so it is a next state, not the end of the run
(log 4). The type has no constructor. -/
inductive Fault where
  deriving DecidableEq, Repr

/-- Why a step has no meaning. -/
inductive Refusal where
  /-- An instruction whose arm of `exec` has no meaning yet. Raised by `exec` only; safe. No arm of this
  model raises it. -/
  | notModelled (mnemonic : String)
  deriving DecidableEq, Repr

/-- The outcome of a step or of a meaning. -/
abbrev StepOutcome := Host.Outcome State Fault Refusal

/-- The state after reset with an initial memory image, for each variant (10_state.md R28,
70_reset_and_hazards.md R222): "A model takes the initial memory as a parameter of the reset state". -/
def State.boot (v : Variant) (m0 : Memory) : State where
  regs := (Vector.replicate 32 0#32).set 31 Config.resetPc
  mem := m0
  halted := false
  fault := none
  out := []
  fr := none
  dq := []
  dr := none
  xr := none
  stall := 0#32
  table := []
  hist := 0#10
  jumpMap := []
  variant := v

/-- The machine right after reset with nothing loaded: the block (`predicted`, log 1) with an empty image,
so that every cell reads 0 (log 10). -/
def State.reset : State := State.boot Config.resetVariant []

end Sys2Proof.Machine
end

