-- ==== Sys2Proof/Machine/Ops.lean ====
section
/-!
DEFINITION. The named operations over the state: sparse data, memory, registers, output, faults, reset, and
the writeback effects of 40_execute_common.md.
-/

namespace Sys2Proof.Machine

/-! ### Sparse data by key -/

/-- The value at a key, if listed. -/
def assocFind {α : Type} (k : Nat) : Assoc α → Option α
  | [] => none
  | (k', v) :: rest => if k = k' then some v else assocFind k rest

/-- Set the value at a key, keeping the keys rising. -/
def assocInsert {α : Type} (k : Nat) (v : α) : Assoc α → Assoc α
  | [] => [(k, v)]
  | (k', v') :: rest =>
    if k < k' then (k, v) :: (k', v') :: rest
    else if k = k' then (k, v) :: rest
    else (k', v') :: assocInsert k v rest

/-- Unlist a key. -/
def assocErase {α : Type} (k : Nat) : Assoc α → Assoc α
  | [] => []
  | (k', v') :: rest => if k = k' then assocErase k rest else (k', v') :: assocErase k rest

/-- Every key of the list is at least `lo`, and the keys rise strictly. -/
def assocSortedFrom {α : Type} (lo : Nat) : Assoc α → Bool
  | [] => true
  | (k, _) :: rest => decide (lo ≤ k) && assocSortedFrom (k + 1) rest

/-- Set a key to a value in a map with a default: the default is never listed. -/
def assocPut {α : Type} [DecidableEq α] (default : α) (k : Nat) (v : α) (m : Assoc α) : Assoc α :=
  if v = default then assocErase k m else assocInsert k v m

/-! ### Addresses and memory (20_memory.md) -/

/-- `norm(v)`: the two low bits are cleared (R31). -/
def norm (v : Word) : Word := v &&& 0xFFFFFFFC#32

/-- The byte at a byte address; unset memory reads 0 (R33). -/
def readByte (m : Memory) (n : Nat) : Byte := (assocFind n m).getD Config.unsetByte

/-- Store a byte, keeping the canonical form: a byte equal to the default is unlisted. -/
def writeByte (m : Memory) (n : Nat) (v : Byte) : Memory := assocPut Config.unsetByte n v m

/-- The canonical form of memory: addresses strictly rising and below 2^32, no entry equal to the
default. -/
def Memory.wf (m : Memory) : Bool :=
  assocSortedFrom 0 m && m.all fun c => decide (c.1 < 2 ^ 32) && decide (c.2 ≠ Config.unsetByte)

/-- `MemRead(addr, 4)`: the word of the cell at `norm(addr)` (R33). -/
def memRead (m : Memory) (addr : Word) : Word :=
  let n := (norm addr).toNat
  wordOfBytes (readByte m n) (readByte m (n + 1)) (readByte m (n + 2)) (readByte m (n + 3))

/-- `MemWrite(addr, 4, v)`: the cell at `norm(addr)` becomes the word `v` (R34). -/
def memWrite (m : Memory) (addr v : Word) : Memory :=
  let n := (norm addr).toNat
  writeByte (writeByte (writeByte (writeByte m n (byteOf v 0)) (n + 1) (byteOf v 1))
    (n + 2) (byteOf v 2)) (n + 3) (byteOf v 3)

/-! ### Registers (10_state.md R10, R14) -/

/-- The storage cell `R[r]`. -/
def State.reg (s : State) (r : RegIdx) : Word := s.regs[r.toNat]

/-- `R[r] := v`, the storage cell. -/
def State.setReg (s : State) (r : RegIdx) (v : Word) : State :=
  { s with regs := s.regs.set r.toNat v }

/-- `R[31]`, the fetch program counter. -/
def State.pc (s : State) : Word := s.reg Config.pcIdx

/-- `R[31] := v`. -/
def State.setPc (s : State) (v : Word) : State := s.setReg Config.pcIdx v

/-- `MemWrite` on the state. -/
def State.store (s : State) (addr v : Word) : State := { s with mem := memWrite s.mem addr v }

/-! ### Output, halt, fault, reset -/

/-- `emit e` (60_exceptions.md R212). -/
def State.emit (s : State) (e : OutEvent) : State := { s with out := s.out ++ [e] }

/-- `halted := true` (40_execute_common.md R76). -/
def State.halt (s : State) : State := { s with halted := true }

/-- Taking a fault: `raise K(info)` latches the record and changes nothing else (60_exceptions.md R200,
R207: no register is saved, no vector is fetched, `R[31]` is not redirected). -/
def State.raise (s : State) (f : FaultRecord) : State := { s with fault := some f }

/-- There is no return from a fault: only reset clears `fault` and `halted` (60_exceptions.md R209). Reset
puts every piece of state at its reset value in one step, whatever the state was, with the memory the
platform loaded (70_reset_and_hazards.md R220, R222; log 10); the variant is fixed. -/
def applyReset (m0 : Memory) (s : State) : State := State.boot s.variant m0

/-- The block is stopped: halted or faulted (60_exceptions.md R214). -/
def State.stopped (s : State) : Bool := s.halted || s.fault.isSome

/-! ### Writeback effects (40_execute_common.md R75) -/

/-- Writeback to a register index, first match wins: 30 prints a character, 29 prints hexadecimal, both
suppressing zero; 31 is the PC write `R[31] := norm(v)` (R78); any other index is stored (R79). -/
def State.writeIndex (s : State) (r : RegIdx) (v : Word) : State :=
  if r = Config.zeroIdx then
    if v ≠ 0#32 then s.emit (.outChar (byteOf v 0)) else s
  else if r = Config.immIdx then
    if v ≠ 0#32 then s.emit (.outHex v) else s
  else if r = Config.pcIdx then s.setPc (norm v)
  else s.setReg r v

/-- `WB(cmd)` (R75, R76, R77). The pipelined variants send a PC write to the branch flush control instead
(Machine/Pipeline.lean). -/
def State.writeback (s : State) : Cmd → State
  | .halt => s.halt
  | .registers r v => s.writeIndex r v
  | .memory a v => s.store a v

/-! ### The execute function and the serial meaning -/

/-- The part of an opcode's rule that computes its command or its fault, from the instruction's address
`ipc` and the state it executes in (R71). -/
abbrev ExecOp := Word → State → ExecResult

/-- The last step of `Exec`: the value of a PC write is normalised (R74). -/
def ExecResult.normalized : ExecResult → ExecResult
  | .command (.registers r v) =>
    .command (.registers r (if r = Config.pcIdx then norm v else v))
  | .command c => .command c
  | .raise f => .raise f

/-- `Exec`: an opcode's rule, then the normalisation of R74. -/
def runOp (op : ExecOp) (ipc : Word) (s : State) : ExecResult := (op ipc s).normalized

/-- The loop of the serial reference: each operation is executed and written back before the next one
executes; a fault is latched and ends the loop (R84). -/
def retireOps (ipc : Word) : List ExecOp → State → State
  | [], s => s
  | op :: rest, s =>
    match runOp op ipc s with
    | .command c => retireOps ipc rest (s.writeback c)
    | .raise f => s.raise f

/-- An instruction executed completely at the address `R[31]` holds: the fetch increment, then the
operations (R84). -/
def serialExec (ops : List ExecOp) (s : State) : State :=
  retireOps s.pc ops (s.setPc (s.pc + 4#32))

/-! ### Placing an instruction where the next step fetches it -/

/-- `w` stored at the address `R[31]` holds. -/
def State.placeWord (s : State) (w : Word) : State := s.store s.pc w

end Sys2Proof.Machine
end

