-- ==== Sys2Proof/Machine/Operands.lean ====
section
/-!
DEFINITION. Operand forms: the operand resolver, the effective address, and the value functions of the ALU.
-/

namespace Sys2Proof.Machine

/-! ### Operand read (40_execute_common.md R70) -/

/-- `rd(idx, seq, imm)`: what an executing instruction reads from a register index. -/
def rd (s : State) (idx : RegIdx) (seq imm : Word) : Word :=
  if idx = Config.pcIdx then seq
  else if idx = Config.zeroIdx then 0#32
  else if idx = Config.immIdx then imm
  else s.reg idx

/-- `seq = ipc + 4` modulo 2^32 (10_state.md R17). -/
def seqOf (ipc : Word) : Word := ipc + 4#32

/-- The effective address of `ld` and `st`: `norm(x + 4*y)` modulo 2^32 (20_memory.md R37). -/
def effAddr (x y : Word) : Word := norm (x + 4#32 * y)

/-! ### Value functions of the ALU (45_alu_arith.md, 46_alu_logic_shift.md) -/

/-- The truncated signed quotient as a word; −2^31 / −1 wraps to 0x80000000 (R113, R116). For a non-zero
divisor. -/
def quotient (x y : Word) : Word := BitVec.ofInt 32 (x.toInt.tdiv y.toInt)

/-- The remainder with the sign of the dividend, `s(x) − q·s(y)` (R114). For a non-zero divisor. -/
def remainder (x y : Word) : Word := BitVec.ofInt 32 (x.toInt.tmod y.toInt)

/-- Bits toward bit 31, zeros at bit 0; the amount is all of `y`, unsigned, and 32 or more gives 0
(R122, R126). -/
def shiftLeftBy (x y : Word) : Word := if y.toNat < 32 then x <<< y.toNat else 0#32

/-- Bits toward bit 0, zeros at bit 31; 32 or more gives 0 (R123, R126). -/
def shiftRightBy (x y : Word) : Word := if y.toNat < 32 then x >>> y.toNat else 0#32

/-- Bits toward bit 0, copies of the sign at bit 31; an amount above 31 acts as 31 (R125, R126). -/
def shiftArithRightBy (x y : Word) : Word := x.sshiftRight (min y.toNat 31)

/-! ### Command shapes of the families -/

/-- The command of an ALU instruction: `{registers, d, f(x, y)}` (R115). -/
def aluOp (d a b : RegIdx) (i : Word) (f : Word → Word → Word) : ExecOp := fun ipc s =>
  .command (.registers d (f (rd s a (seqOf ipc) i) (rd s b (seqOf ipc) i)))

/-- The command of `div` and `mod`: an arithmetic trap when the second operand is 0 (R113, R114, R117). -/
def divOp (icode : Opcode) (d a b : RegIdx) (i : Word) (f : Word → Word → Word) : ExecOp := fun ipc s =>
  if rd s b (seqOf ipc) i = 0#32 then .raise ⟨.arithmeticTrap, icode, ipc⟩
  else aluOp d a b i f ipc s

/-- The command of a conditional: a PC write of `seq` when the condition holds, else of `seq + 4`
(44_conditionals.md R104). -/
def condOp (a b : RegIdx) (i : Word) (cond : Word → Word → Bool) : ExecOp := fun ipc s =>
  .command (.registers Config.pcIdx
    (if cond (rd s a (seqOf ipc) i) (rd s b (seqOf ipc) i) then seqOf ipc else seqOf ipc + 4#32))

/-- An opcode with no execute contract (60_exceptions.md R201). -/
def invalidOp (icode : Opcode) : ExecOp := fun ipc _ => .raise ⟨.invalidOpcode, icode, ipc⟩

end Sys2Proof.Machine
end

