-- ==== Sys2Proof/Machine/Flags.lean ====
section
/-!
DEFINITION. Conditions. The machine has no flags, condition codes or status bits (10_state.md R26): a
conditional compares its two operands itself and writes the program counter. These are the four
comparisons of 44_conditionals.md.
-/

namespace Sys2Proof.Machine

/-- `s(x) < s(y)` (R105). -/
def condLt (x y : Word) : Bool := decide (x.toInt < y.toInt)

/-- `s(x) ≤ s(y)` (R106). -/
def condLe (x y : Word) : Bool := decide (x.toInt ≤ y.toInt)

/-- `x = y`, all 32 bits (R107). -/
def condEq (x y : Word) : Bool := decide (x = y)

/-- `x ≠ y` (R108). -/
def condNe (x y : Word) : Bool := decide (x ≠ y)

end Sys2Proof.Machine
end

