-- ==== Sys2Proof/Machine/Arith.lean ====
section
/-!
DEFINITION. The instruction family ALU arithmetic (45_alu_arith.md).
-/

namespace Sys2Proof.Machine

/-- The command of `add`: `x + y` modulo 2^32 (R110). -/
def addOp (d a b : RegIdx) (i : Word) : ExecOp := aluOp d a b i fun x y => x + y

/-- The command of `sub`: `x − y` modulo 2^32 (R111). -/
def subOp (d a b : RegIdx) (i : Word) : ExecOp := aluOp d a b i fun x y => x - y

/-- The command of `mul`: the low 32 bits of the product (R112). -/
def mulOp (d a b : RegIdx) (i : Word) : ExecOp := aluOp d a b i fun x y => x * y

/-- The command of `div`: the truncated signed quotient, or an arithmetic trap (R113). -/
def divideOp (d a b : RegIdx) (i : Word) : ExecOp := divOp 0x32#6 d a b i quotient

/-- The command of `mod`: the remainder with the dividend's sign, or an arithmetic trap (R114). -/
def modOp (d a b : RegIdx) (i : Word) : ExecOp := divOp 0x33#6 d a b i remainder

/-- `add` (R110). -/
def execAdd (d a b : RegIdx) (i : Word) (s : State) : StepOutcome :=
  .next (serialExec [addOp d a b i] s)

/-- `sub` (R111). -/
def execSub (d a b : RegIdx) (i : Word) (s : State) : StepOutcome :=
  .next (serialExec [subOp d a b i] s)

/-- `mul` (R112). -/
def execMul (d a b : RegIdx) (i : Word) (s : State) : StepOutcome :=
  .next (serialExec [mulOp d a b i] s)

/-- `div` (R113, R116, R117). -/
def execDiv (d a b : RegIdx) (i : Word) (s : State) : StepOutcome :=
  .next (serialExec [divideOp d a b i] s)

/-- `mod` (R114, R116, R117). -/
def execMod (d a b : RegIdx) (i : Word) (s : State) : StepOutcome :=
  .next (serialExec [modOp d a b i] s)

end Sys2Proof.Machine
end

