-- ==== Sys2Proof/Machine/Conditionals.lean ====
section
/-!
DEFINITION. The instruction family conditionals (44_conditionals.md). `d` is ignored (R104).
-/

namespace Sys2Proof.Machine

/-- The command of `iflt` (R105). -/
def ifltOp (_d a b : RegIdx) (i : Word) : ExecOp := condOp a b i condLt

/-- The command of `ifle` (R106). -/
def ifleOp (_d a b : RegIdx) (i : Word) : ExecOp := condOp a b i condLe

/-- The command of `ifeq` (R107). -/
def ifeqOp (_d a b : RegIdx) (i : Word) : ExecOp := condOp a b i condEq

/-- The command of `ifne` (R108): it uses `seq` exactly as the other three do. -/
def ifneOp (_d a b : RegIdx) (i : Word) : ExecOp := condOp a b i condNe

/-- `iflt` (R105). -/
def execIflt (d a b : RegIdx) (i : Word) (s : State) : StepOutcome :=
  .next (serialExec [ifltOp d a b i] s)

/-- `ifle` (R106). -/
def execIfle (d a b : RegIdx) (i : Word) (s : State) : StepOutcome :=
  .next (serialExec [ifleOp d a b i] s)

/-- `ifeq` (R107). -/
def execIfeq (d a b : RegIdx) (i : Word) (s : State) : StepOutcome :=
  .next (serialExec [ifeqOp d a b i] s)

/-- `ifne` (R108). -/
def execIfne (d a b : RegIdx) (i : Word) (s : State) : StepOutcome :=
  .next (serialExec [ifneOp d a b i] s)

end Sys2Proof.Machine
end

