-- ==== Sys2Proof/Machine/HaltFamily.lean ====
section
/-!
DEFINITION. The instruction family halt (41_halt.md).
-/

namespace Sys2Proof.Machine

/-- `cmd := {halt, 0, 0}` (R90). -/
def hltOp (_d _a _b : RegIdx) (_i : Word) : ExecOp := fun _ _ => .command .halt

/-- `hlt` (R90, R91). -/
def execHlt (d a b : RegIdx) (i : Word) (s : State) : StepOutcome :=
  .next (serialExec [hltOp d a b i] s)

end Sys2Proof.Machine
end

