-- ==== Sys2Proof/Machine/LoadStore.lean ====
section
/-!
DEFINITION. The instruction family load and store (42_load_store.md).
-/

namespace Sys2Proof.Machine

/-- `cmd := {registers, d, MemRead(norm(x + 4*y), 4)}` (R92). -/
def ldOp (d a b : RegIdx) (i : Word) : ExecOp := fun ipc s =>
  .command (.registers d
    (memRead s.mem (effAddr (rd s a (seqOf ipc) i) (rd s b (seqOf ipc) i))))

/-- `cmd := {memory, norm(x + 4*y), rd(d)}` (R93). -/
def stOp (d a b : RegIdx) (i : Word) : ExecOp := fun ipc s =>
  .command (.memory (effAddr (rd s a (seqOf ipc) i) (rd s b (seqOf ipc) i)) (rd s d (seqOf ipc) i))

/-- `ld` (R92). -/
def execLd (d a b : RegIdx) (i : Word) (s : State) : StepOutcome :=
  .next (serialExec [ldOp d a b i] s)

/-- `st` (R93). -/
def execSt (d a b : RegIdx) (i : Word) (s : State) : StepOutcome :=
  .next (serialExec [stOp d a b i] s)

end Sys2Proof.Machine
end

