-- ==== Sys2Proof/Machine/LogicShift.lean ====
section
/-!
DEFINITION. The instruction family ALU logic and shifts (46_alu_logic_shift.md).
-/

namespace Sys2Proof.Machine

/-- The command of `and` (R118). -/
def andOp (d a b : RegIdx) (i : Word) : ExecOp := aluOp d a b i fun x y => x &&& y

/-- The command of `or` (R119). -/
def orOp (d a b : RegIdx) (i : Word) : ExecOp := aluOp d a b i fun x y => x ||| y

/-- The command of `nand`: all 32 bits complemented (R120). -/
def nandOp (d a b : RegIdx) (i : Word) : ExecOp := aluOp d a b i fun x y => ~~~(x &&& y)

/-- The command of `xor` (R121). -/
def xorOp (d a b : RegIdx) (i : Word) : ExecOp := aluOp d a b i fun x y => x ^^^ y

/-- The command of `sl` (R122). -/
def slOp (d a b : RegIdx) (i : Word) : ExecOp := aluOp d a b i shiftLeftBy

/-- The command of `sr` (R123). -/
def srOp (d a b : RegIdx) (i : Word) : ExecOp := aluOp d a b i shiftRightBy

/-- The command of `sal`: `f` is that of `sl` (R124). -/
def salOp (d a b : RegIdx) (i : Word) : ExecOp := aluOp d a b i shiftLeftBy

/-- The command of `sar` (R125). -/
def sarOp (d a b : RegIdx) (i : Word) : ExecOp := aluOp d a b i shiftArithRightBy

/-- `and` (R118). -/
def execAnd (d a b : RegIdx) (i : Word) (s : State) : StepOutcome :=
  .next (serialExec [andOp d a b i] s)

/-- `or` (R119). -/
def execOr (d a b : RegIdx) (i : Word) (s : State) : StepOutcome :=
  .next (serialExec [orOp d a b i] s)

/-- `nand` (R120). -/
def execNand (d a b : RegIdx) (i : Word) (s : State) : StepOutcome :=
  .next (serialExec [nandOp d a b i] s)

/-- `xor` (R121). -/
def execXor (d a b : RegIdx) (i : Word) (s : State) : StepOutcome :=
  .next (serialExec [xorOp d a b i] s)

/-- `sl` (R122). -/
def execSl (d a b : RegIdx) (i : Word) (s : State) : StepOutcome :=
  .next (serialExec [slOp d a b i] s)

/-- `sr` (R123). -/
def execSr (d a b : RegIdx) (i : Word) (s : State) : StepOutcome :=
  .next (serialExec [srOp d a b i] s)

/-- `sal` (R124). -/
def execSal (d a b : RegIdx) (i : Word) (s : State) : StepOutcome :=
  .next (serialExec [salOp d a b i] s)

/-- `sar` (R125). -/
def execSar (d a b : RegIdx) (i : Word) (s : State) : StepOutcome :=
  .next (serialExec [sarOp d a b i] s)

end Sys2Proof.Machine
end

