-- ==== Sys2Proof/Machine/Predictor.lean ====
section
/-!
DEFINITION. The branch predictor (51_predictor.md): the blocks `gsharetable` and `history_register` and the
jump-map.
-/

namespace Sys2Proof.Machine

/-- `Index(ipc) = (ipc & 0x1FF) ^ H` (R184). -/
def State.predIndex (s : State) (ipc : Word) : BitVec 10 :=
  (ipc &&& 0x1FF#32).setWidth 10 ^^^ s.hist

/-- `T[k]` (R181). -/
def State.counter (s : State) (k : BitVec 10) : BitVec 2 :=
  (assocFind k.toNat s.table).getD Config.resetCounter

/-- `T[k] := v`. -/
def State.setCounter (s : State) (k : BitVec 10) (v : BitVec 2) : State :=
  { s with table := assocPut Config.resetCounter k.toNat v s.table }

/-- `JM[ipc]`, if defined (R183). -/
def State.jumpTarget (s : State) (ipc : Word) : Option Word := assocFind ipc.toNat s.jumpMap

/-- `JM[ipc] := target` (R183). -/
def State.setJumpTarget (s : State) (ipc target : Word) : State :=
  { s with jumpMap := assocInsert ipc.toNat target s.jumpMap }

/-- `PredictTaken(ipc)` (R185). -/
def State.predictTaken (s : State) (ipc : Word) : Bool := decide (2 ≤ (s.counter (s.predIndex ipc)).toNat)

/-- A counter one up, saturating at 3 (R186). -/
def counterInc (c : BitVec 2) : BitVec 2 := if c = 3#2 then 3#2 else c + 1#2

/-- A counter one down, saturating at 0 (R186). -/
def counterDec (c : BitVec 2) : BitVec 2 := if c = 0#2 then 0#2 else c - 1#2

/-- `CounterUp(ipc)` (R186). -/
def State.counterUp (s : State) (ipc : Word) : State :=
  s.setCounter (s.predIndex ipc) (counterInc (s.counter (s.predIndex ipc)))

/-- `CounterDown(ipc)` (R186). -/
def State.counterDown (s : State) (ipc : Word) : State :=
  s.setCounter (s.predIndex ipc) (counterDec (s.counter (s.predIndex ipc)))

/-- `Shift(bit)`: the newest outcome enters at bit 9 (R187). -/
def State.shiftHist (s : State) (bit : Bool) : State :=
  { s with hist := (s.hist >>> 1) ||| (if bit then 0x200#10 else 0#10) }

/-- `Predict(ipc)` (R190); it changes no state. -/
def State.predict (s : State) (ipc : Word) : Option Word :=
  match s.jumpTarget ipc with
  | some t => if s.predictTaken ipc then some t else none
  | none => none

/-- `TrainTaken(ipc, target)`: counter up, shift in 1, then the jump-map entry (R193). -/
def State.trainTaken (s : State) (ipc target : Word) : State :=
  ((s.counterUp ipc).shiftHist true).setJumpTarget ipc target

/-- `CorrectPrediction(ipc)`: counter up, shift in 1 (R194). -/
def State.correctPrediction (s : State) (ipc : Word) : State := (s.counterUp ipc).shiftHist true

/-- `TrainNotTaken(ipc)`: counter down, shift in 0 (R191). On the predictor's interface; the pipeline never
calls it. -/
def State.trainNotTaken (s : State) (ipc : Word) : State := (s.counterDown ipc).shiftHist false

end Sys2Proof.Machine
end

