-- ==== Sys2Proof/Machine/Stack.lean ====
section
/-!
DEFINITION. The instruction family stack macros (43_stack_macros.md): two micro-ops each. Each micro-op has
its own immediate and the macro's address (R99); `b` and `i` of the macro are ignored (R96).
-/

namespace Sys2Proof.Machine

/-- `u1` of `push`: `sub a, a, 29` with immediate 4 (R97). -/
def pushFirst (a : RegIdx) : Instr := .sub a a Config.immIdx 4#32

/-- `u2` of `push`: `st d, a, 30` with immediate 0 (R97). -/
def pushSecond (d a : RegIdx) : Instr := .st d a Config.zeroIdx 0#32

/-- `u1` of `pop`: `ld d, a, 30` with immediate 0 (R98). -/
def popFirst (d a : RegIdx) : Instr := .ld d a Config.zeroIdx 0#32

/-- `u2` of `pop`: `add a, a, 29` with immediate 4 (R98). -/
def popSecond (a : RegIdx) : Instr := .add a a Config.immIdx 4#32

/-- `push` executed completely: both micro-ops, in order, also when the first writes the program counter
(R97, R103; log 9). -/
def execPush (d a _b : RegIdx) (_i : Word) (s : State) : StepOutcome :=
  .next (serialExec [subOp a a Config.immIdx 4#32, stOp d a Config.zeroIdx 0#32] s)

/-- `pop` executed completely: both micro-ops, in order (R98, R103; log 9). -/
def execPop (d a _b : RegIdx) (_i : Word) (s : State) : StepOutcome :=
  .next (serialExec [ldOp d a Config.zeroIdx 0#32, addOp a a Config.immIdx 4#32] s)

end Sys2Proof.Machine
end

