-- ==== Sys2Proof/Machine/V1.lean ====
section
/-!
DEFINITION. The v1 opcodes with no execute contract (30_encoding.md R62): each raises `InvalidOpcode` with
its code when it reaches execute. Nothing of their intended behaviour is assumed.
-/

namespace Sys2Proof.Machine

/-- `pushall` in execute (R62). -/
def pushallOp (_d _a _b : RegIdx) (_i : Word) : ExecOp := invalidOp 0x14#6

/-- `popall` in execute (R62). -/
def popallOp (_d _a _b : RegIdx) (_i : Word) : ExecOp := invalidOp 0x15#6

/-- `call` in execute (R62). -/
def callOp (_d _a _b : RegIdx) (_i : Word) : ExecOp := invalidOp 0x24#6

/-- `intr` in execute (R62). -/
def intrOp (_d _a _b : RegIdx) (_i : Word) : ExecOp := invalidOp 0x25#6

/-- `pushall` (R62, R201). -/
def execPushall (d a b : RegIdx) (i : Word) (s : State) : StepOutcome :=
  .next (serialExec [pushallOp d a b i] s)

/-- `popall` (R62, R201). -/
def execPopall (d a b : RegIdx) (i : Word) (s : State) : StepOutcome :=
  .next (serialExec [popallOp d a b i] s)

/-- `call` (R62, R201). -/
def execCall (d a b : RegIdx) (i : Word) (s : State) : StepOutcome :=
  .next (serialExec [callOp d a b i] s)

/-- `intr` (R62, R201). -/
def execIntr (d a b : RegIdx) (i : Word) (s : State) : StepOutcome :=
  .next (serialExec [intrOp d a b i] s)

end Sys2Proof.Machine
end

