-- ==== Sys2Proof/Machine/Pipeline.lean ====
section
/-!
DEFINITION. The stage functions and the pipelined step (50_pipeline.md).
-/

namespace Sys2Proof.Machine

/-! ### Execute: the `alu` block (R146) -/

/-- The rule of an opcode in the family files (40_execute_common.md R74). Decode replaces `push` and `pop`
by micro-ops, so they never reach execute; here they raise `InvalidOpcode`. DESIGN CHOICE (log 7). -/
def instrOp : Instr → ExecOp
  | .hlt d a b i => hltOp d a b i
  | .ld d a b i => ldOp d a b i
  | .st d a b i => stOp d a b i
  | .push _ _ _ _ => invalidOp 0x12#6
  | .pop _ _ _ _ => invalidOp 0x13#6
  | .pushall d a b i => pushallOp d a b i
  | .popall d a b i => popallOp d a b i
  | .iflt d a b i => ifltOp d a b i
  | .ifle d a b i => ifleOp d a b i
  | .ifeq d a b i => ifeqOp d a b i
  | .ifne d a b i => ifneOp d a b i
  | .call d a b i => callOp d a b i
  | .intr d a b i => intrOp d a b i
  | .add d a b i => addOp d a b i
  | .sub d a b i => subOp d a b i
  | .div d a b i => divideOp d a b i
  | .mod d a b i => modOp d a b i
  | .mul d a b i => mulOp d a b i
  | .and d a b i => andOp d a b i
  | .or d a b i => orOp d a b i
  | .nand d a b i => nandOp d a b i
  | .xor d a b i => xorOp d a b i
  | .sl d a b i => slOp d a b i
  | .sr d a b i => srOp d a b i
  | .sal d a b i => salOp d a b i
  | .sar d a b i => sarOp d a b i

/-- The rule of a decoded instruction: an unassigned opcode raises `InvalidOpcode` (R74, R201). -/
def decodedOp : Decoded → ExecOp
  | .instr i => instrOp i
  | .unassigned c _ => invalidOp c

/-- `Exec(D)` (R74). -/
def execDecoded (D : InFlight) (s : State) : ExecResult := runOp (decodedOp D.op) D.ipc s

/-- The execute stage: `DR` to `XR`, or a latched fault with `XR` left as it was (R146). -/
def executeStage (s : State) : State :=
  match s.dr with
  | none => { s with xr := none }
  | some D =>
    match execDecoded D s with
    | .command c => { s with xr := some ⟨c, D.ipc, D.npc⟩ }
    | .raise f => s.raise f

/-! ### Writeback: the `write_back_unit` and `branch_flush_ctrl` blocks -/

/-- `Flush()`: the fetch and decode latches and the micro-op queue are emptied (R160). -/
def State.flush (s : State) : State := { s with fr := none, dr := none, dq := [] }

/-- Writeback of a PC write of a pipelined variant: always write and flush (R161), or, with the predictor,
compare the target with `npc`: equal is a correct prediction, else write, flush and train (R162). -/
def branchRetire (s : State) (v ipc npc : Word) : State :=
  let t := norm v
  match s.variant with
  | .predicted =>
    if t = npc then s.correctPrediction ipc
    else ((s.setPc t).flush).trainTaken ipc t
  | _ => (s.setPc t).flush

/-- The writeback stage: it consumes `XR` and does not clear it (R145). -/
def writebackStage (s : State) : State :=
  match s.xr with
  | none => s
  | some x =>
    match x.cmd with
    | .registers r v =>
      if r = Config.pcIdx then branchRetire s v x.ipc x.npc else s.writeback (.registers r v)
    | c => s.writeback c

/-! ### Decode: the `decoder` and `stall_detector` blocks -/

/-- The micro-ops of a decoded instruction, the first one apart: `push` and `pop` have two, any other
instruction is its own (R147; 43_stack_macros.md R97, R98). -/
def expand : Decoded → Decoded × List Decoded
  | .instr (.push d a _ _) => (.instr (pushFirst a), [.instr (pushSecond d a)])
  | .instr (.pop d a _ _) => (.instr (popFirst d a), [.instr (popSecond a)])
  | D => (D, [])

/-- `Hazard(u, XR)`: the candidate's `a` or `b`, other than 29 and 30, is the register the command in `XR`
writes (R154). -/
def hazard (u : Decoded) (xr : Option ExecSlot) : Bool :=
  match xr with
  | some ⟨.registers r _, _, _⟩ =>
    (decide (r = u.fields.a) || decide (r = u.fields.b)) &&
      !(decide (r = Config.immIdx) || decide (r = Config.zeroIdx))
  | _ => false

/-- The decode stage (R147): the head of the queue is held (R155) or issued (R157); else the fetched
instruction is replayed (R156) or issued with the rest of its expansion queued (R157); else a bubble
(R158). -/
def decodeStage (s : State) : State :=
  match s.dq with
  | u :: rest =>
    if hazard u.op s.xr then { s with dr := none, stall := s.stall + 1#32 }
    else { s with dr := some u, dq := rest }
  | [] =>
    match s.fr with
    | some f =>
      let ops := expand (decode f.blob)
      if hazard ops.1 s.xr then
        { s with fr := none, dr := none, stall := s.stall + 1#32 }.setPc f.ipc
      else
        { s with
          fr := none
          dr := some ⟨ops.1, f.ipc, f.npc⟩
          dq := ops.2.map fun u => ⟨u, f.ipc, f.npc⟩
          stall := s.stall + BitVec.ofNat 32 ops.2.length }
    | none => { s with dr := none }

/-! ### Fetch: the `fetch_unit` block -/

/-- Where fetch goes after `ipc`: the predicted target of the predicted variant, else `ipc + 4#32` (R150). -/
def State.nextFetch (s : State) (ipc : Word) : Word :=
  match s.variant with
  | .predicted => (s.predict ipc).getD (ipc + 4#32)
  | _ => ipc + 4#32

/-- The fetch stage: nothing while `stall` is positive (R151), else the word at `R[31]` (R150). -/
def fetchStage (s : State) : State :=
  if s.stall = 0#32 then
    { s with fr := some ⟨memRead s.mem s.pc, s.pc, s.nextFetch s.pc⟩ }.setPc (s.nextFetch s.pc)
  else s

/-- The stall decrement, last in the step (R152). -/
def stallDec (s : State) : State :=
  if s.stall = 0#32 then s else { s with stall := s.stall - 1#32 }

/-! ### The whole step (R148) -/

/-- Decode, fetch and stall decrement, after execute. -/
def frontEnd (s : State) : State := stallDec (fetchStage (decodeStage s))

/-- `PipeStep`: the stage functions in the order writeback, execute, decode, fetch, stall-dec; a stopped
block holds, and the step ends where `halted` or `fault` is set (R140, R141, R148). -/
def pipeStep (s : State) : State :=
  if s.stopped then s
  else if (writebackStage s).halted then writebackStage s
  else if (executeStage (writebackStage s)).fault.isSome then executeStage (writebackStage s)
  else frontEnd (executeStage (writebackStage s))

end Sys2Proof.Machine
end

