-- ==== Sys2Proof/Machine/Dispatch.lean ====
section
/-!
DEFINITION. The meaning of an instruction executed completely at the address `R[31]` holds: the serial
reference, "the meaning of a program" (40_execute_common.md R84, R86; log 3). The pipelined variants spread
the same operations over their stages (Machine/Pipeline.lean).
-/

namespace Sys2Proof.Machine

def exec (i : Instr) (s : State) : Host.Outcome State Fault Refusal :=
  match i with
  | .hlt d a b imm => Sys2Proof.Machine.execHlt d a b imm s
  | .ld d a b imm => Sys2Proof.Machine.execLd d a b imm s
  | .st d a b imm => Sys2Proof.Machine.execSt d a b imm s
  | .push d a b imm => Sys2Proof.Machine.execPush d a b imm s
  | .pop d a b imm => Sys2Proof.Machine.execPop d a b imm s
  | .pushall d a b imm => Sys2Proof.Machine.execPushall d a b imm s
  | .popall d a b imm => Sys2Proof.Machine.execPopall d a b imm s
  | .iflt d a b imm => Sys2Proof.Machine.execIflt d a b imm s
  | .ifle d a b imm => Sys2Proof.Machine.execIfle d a b imm s
  | .ifeq d a b imm => Sys2Proof.Machine.execIfeq d a b imm s
  | .ifne d a b imm => Sys2Proof.Machine.execIfne d a b imm s
  | .call d a b imm => Sys2Proof.Machine.execCall d a b imm s
  | .intr d a b imm => Sys2Proof.Machine.execIntr d a b imm s
  | .add d a b imm => Sys2Proof.Machine.execAdd d a b imm s
  | .sub d a b imm => Sys2Proof.Machine.execSub d a b imm s
  | .div d a b imm => Sys2Proof.Machine.execDiv d a b imm s
  | .mod d a b imm => Sys2Proof.Machine.execMod d a b imm s
  | .mul d a b imm => Sys2Proof.Machine.execMul d a b imm s
  | .and d a b imm => Sys2Proof.Machine.execAnd d a b imm s
  | .or d a b imm => Sys2Proof.Machine.execOr d a b imm s
  | .nand d a b imm => Sys2Proof.Machine.execNand d a b imm s
  | .xor d a b imm => Sys2Proof.Machine.execXor d a b imm s
  | .sl d a b imm => Sys2Proof.Machine.execSl d a b imm s
  | .sr d a b imm => Sys2Proof.Machine.execSr d a b imm s
  | .sal d a b imm => Sys2Proof.Machine.execSal d a b imm s
  | .sar d a b imm => Sys2Proof.Machine.execSar d a b imm s

end Sys2Proof.Machine
end

