-- ==== Sys2Proof/Machine/Serial.lean ====
section
/-!
DEFINITION. The step of the serial reference (40_execute_common.md R84).
-/

namespace Sys2Proof.Machine

/-- The word the serial step fetches. -/
def State.fetchedWord (s : State) : Word := memRead s.mem s.pc

/-- A word of an unassigned opcode, executed at the address `R[31]` holds: the fetch increment, then
`InvalidOpcode` (30_encoding.md R63, 60_exceptions.md R201). -/
def execUnassigned (icode : Opcode) (s : State) : StepOutcome :=
  .next (serialExec [invalidOp icode] s)

/-- `SerialStep`: a stopped machine holds; else the word at `R[31]` is fetched, decoded and executed
completely (R84). -/
def serialStep (s : State) : StepOutcome :=
  if s.stopped then .next s
  else
    match decode s.fetchedWord with
    | .instr i => exec i s
    | .unassigned c _ => execUnassigned c s

end Sys2Proof.Machine
end

