-- ==== Sys2Proof/Machine/Step.lean ====
section
/-!
DEFINITION. One step of the machine, by variant, and the placing of an instruction where the next step runs
it.
-/

namespace Sys2Proof.Machine

/-- One application of the next-state function (50_pipeline.md R140): the serial reference's step, or one
clock edge of the pipeline. -/
def step (s : State) : Host.Outcome State Fault Refusal :=
  match s.variant with
  | .serial => serialStep s
  | .pipelined => .next (pipeStep s)
  | .predicted => .next (pipeStep s)

/-- The instruction of a table row stored at the address `R[31]` holds, and the serial reference selected,
whose very next step fetches, decodes, executes and retires it; a pipelined variant spreads an instruction
over four steps and runs no instruction in one (log 2). -/
def State.withFetchWord (s : State) (nbits w : Nat) : State :=
  { (s.placeWord (tableWord nbits w)) with variant := .serial }

end Sys2Proof.Machine
end

