-- ==== Sys2Proof/Safety.lean ====
section
/-!
DEFINITION. The vocabulary of the statements: running, the architectural result, what an instruction leaves
unchanged, what its destination receives, the invariant of 10_state.md R29, and legal programs.
-/

namespace Sys2Proof.Machine

/-! ### Conditions of the block (60_exceptions.md R214) -/

/-- Running: neither halted nor faulted. -/
abbrev State.Running (s : State) : Prop := s.halted = false ∧ s.fault = none

/-- A pipelined variant: `pipelined` or `predicted`. -/
abbrev State.Piped (s : State) : Prop := s.variant ≠ .serial

/-! ### The architectural result (00_scope.md R3) -/

/-- The architectural result agrees: the general registers, memory byte by byte, `halted`, the fault record
and the output trace. `R[31]` is not part of it (70_reset_and_hazards.md R233). -/
structure SameArch (s t : State) : Prop where
  regs : ∀ r : RegIdx, r.toNat ≤ 28 → t.reg r = s.reg r
  mem : ∀ n, readByte t.mem n = readByte s.mem n
  halted : t.halted = s.halted
  fault : t.fault = s.fault
  out : t.out = s.out

/-- The architectural result agrees but for the fault record. -/
structure SameArchButFault (s t : State) : Prop where
  regs : ∀ r : RegIdx, r.toNat ≤ 28 → t.reg r = s.reg r
  mem : ∀ n, readByte t.mem n = readByte s.mem n
  halted : t.halted = s.halted
  out : t.out = s.out

/-! ### Frames -/

/-- The latches, the queue, the stall counter, the predictor and the variant are unchanged. -/
structure SameMicro (s t : State) : Prop where
  fr : t.fr = s.fr
  dq : t.dq = s.dq
  dr : t.dr = s.dr
  xr : t.xr = s.xr
  stall : t.stall = s.stall
  table : t.table = s.table
  hist : t.hist = s.hist
  jumpMap : t.jumpMap = s.jumpMap
  variant : t.variant = s.variant

/-- Every byte of memory reads as before. -/
abbrev SameMem (s t : State) : Prop := ∀ n, readByte t.mem n = readByte s.mem n

/-- Every byte outside the four from `lo` reads as before. -/
abbrev SameMemOutsideWord (s t : State) (lo : Nat) : Prop :=
  ∀ n, n < lo ∨ lo + 4 ≤ n → readByte t.mem n = readByte s.mem n

/-- A word rounded down to a multiple of 4, as a number. -/
abbrev roundDown (v : Word) : Word := BitVec.ofNat 32 (v.toNat / 4 * 4)

/-- The events a value written to a register index emits (40_execute_common.md R75). -/
def eventsOf (d : RegIdx) (v : Word) : List OutEvent :=
  if v = 0#32 then []
  else if d = 30#5 then [.outChar (v.extractLsb' 0 8)]
  else if d = 29#5 then [.outHex v]
  else []

/-- All that the value `v` delivered to the destination index `d` by an instruction fetched at `R[31]` does,
and all that it leaves unchanged: indices 0..28 are stored, 31 is a jump to `v` rounded down to a multiple
of 4, 30 and 29 print unless `v` is 0 and store nothing; any destination but 31 leaves the program counter
at the next address. -/
structure Delivers (s t : State) (d : RegIdx) (v : Word) : Prop where
  dest : d.toNat ≤ 28 → t.reg d = v
  others : ∀ r : RegIdx, r ≠ 31#5 → r ≠ d → t.reg r = s.reg r
  hidden : d = 29#5 ∨ d = 30#5 → t.reg d = s.reg d
  pc : t.reg 31#5 = if d = 31#5 then roundDown v else s.reg 31#5 + 4#32
  mem : SameMem s t
  out : t.out = s.out ++ eventsOf d v
  halted : t.halted = s.halted
  fault : t.fault = s.fault
  micro : SameMicro s t

/-- Only the program counter changed, to the next address. -/
structure OnlyAdvances (s t : State) : Prop where
  regs : ∀ r : RegIdx, r ≠ 31#5 → t.reg r = s.reg r
  pc : t.reg 31#5 = s.reg 31#5 + 4#32
  mem : SameMem s t
  out : t.out = s.out
  halted : t.halted = s.halted
  micro : SameMicro s t

/-- An operand of an instruction fetched at `R[31]`, through the operand resolver. -/
def State.operand (s : State) (r : RegIdx) (i : Word) : Word := rd s r (s.reg 31#5 + 4#32) i

/-- A table code: every word with that opcode decodes to the instruction of the constructor, its four fields
those of the word (30_encoding.md R51, R54, R56). -/
abbrev EncodedAs (op : Opcode) (mk : RegIdx → RegIdx → RegIdx → Word → Instr) : Prop :=
  ∀ (d a b : RegIdx) (v : BitVec 11), decode (packFields op d a b v) = .instr (mk d a b (sext11 v))

/-- The opcodes with an execute contract, the macros apart (30_encoding.md R56, 40_execute_common.md R74). -/
def executableCodes : List Opcode :=
  [0x00#6, 0x10#6, 0x11#6, 0x20#6, 0x21#6, 0x22#6, 0x23#6, 0x30#6, 0x31#6, 0x32#6, 0x33#6, 0x34#6,
    0x35#6, 0x36#6, 0x37#6, 0x38#6, 0x3A#6, 0x3B#6, 0x3C#6, 0x3D#6]

/-! ### The invariant (10_state.md R29) -/

/-- A word that is a multiple of 4. -/
abbrev Aligned (w : Word) : Prop := w.toNat % 4 = 0

/-- A decoded instruction as the decode stage issues it: a macro has been replaced by micro-ops, and its
fields can stand in an instruction word. -/
def issuable : Decoded → Bool
  | .instr (.push _ _ _ _) => false
  | .instr (.pop _ _ _ _) => false
  | D => D.fields.wf

/-- The metadata of a queued or decoded instruction is aligned and the instruction can be executed. -/
structure InFlight.Ok (u : InFlight) : Prop where
  ipc : Aligned u.ipc
  npc : Aligned u.npc
  op : issuable u.op = true

/-- The command of an execute latch: a PC write's value and a store's address are normalised. -/
def Cmd.Ok : Cmd → Prop
  | .registers r v => r = 31#5 → Aligned v
  | .memory a _ => Aligned a
  | .halt => True

/-- An execute latch is well-formed. -/
structure ExecSlot.Ok (x : ExecSlot) : Prop where
  ipc : Aligned x.ipc
  npc : Aligned x.npc
  cmd : x.cmd.Ok

/-- Predictor data in canonical form: counters and jump-map entries listed with keys rising, the indices
below 1024, no counter listed at its default and none below it, addresses below 2^32, targets aligned
(51_predictor.md R181, R183, R196). -/
structure State.PredictorOk (s : State) : Prop where
  tableSorted : assocSortedFrom 0 s.table = true
  counters : ∀ e ∈ s.table, e.1 < 1024 ∧ e.2 = 3#2
  jumpSorted : assocSortedFrom 0 s.jumpMap = true
  targets : ∀ e ∈ s.jumpMap, e.1 < 2 ^ 32 ∧ Aligned e.2

/-- The invariant of every state reachable from reset at a cycle boundary: (a) to (d) of R29, with the
canonical form of memory and of the predictor's data, and what the latches hold. -/
structure State.Inv (s : State) : Prop where
  stall : s.stall = 0#32
  queue : s.dq.length ≤ 1
  fetchEmpty : s.dq ≠ [] → s.fr = none
  pc : Aligned (s.reg 31#5)
  frOk : ∀ f ∈ s.fr, Aligned f.ipc ∧ Aligned f.npc
  dqOk : ∀ u ∈ s.dq, u.Ok
  drOk : ∀ u ∈ s.dr, u.Ok
  xrOk : ∀ x ∈ s.xr, x.Ok
  mem : s.mem.wf = true
  predictor : s.PredictorOk

/-- A pipelined variant with nothing in flight, as after reset or when the pipeline has drained. -/
structure State.Drained (s : State) : Prop where
  fr : s.fr = none
  dq : s.dq = []
  dr : s.dr = none
  xr : s.xr = none
  stall : s.stall = 0#32

/-! ### Runs and legal programs (70_reset_and_hazards.md R232) -/

/-- `n` steps, stopping where a step is not a next state. -/
def runSteps : Nat → State → StepOutcome
  | 0, s => .next s
  | n + 1, s =>
    match step s with
    | .next s' => runSteps n s'
    | .fault r => .fault r
    | .refused r => .refused r

/-- The state a run has reached. -/
def Reaches (s : State) (n : Nat) (t : State) : Prop := runSteps n s = .next t

/-- The instruction a running serial machine executes next, if its word is of the table. -/
def State.nextInstr (s : State) : Option Instr :=
  match decode s.fetchedWord with
  | .instr i => some i
  | .unassigned _ _ => none

/-- The forms R232 (b) excludes: a macro whose first micro-op writes the program counter (R103). -/
def isPcMacro : Instr → Bool
  | .push _ a _ _ => decide (a = 31#5)
  | .pop d _ _ _ => decide (d = 31#5)
  | _ => false

/-- The cell an instruction stores to when executed at `s`, if it stores (R93, R97). -/
def storeCell (s : State) : Instr → Option Word
  | .st _ a b i => some (effAddr (s.operand a i) (s.operand b i))
  | .push _ a _ _ =>
    some (norm (if a = 30#5 ∨ a = 29#5 then 0#32 else if a = 31#5 then s.reg 31#5 + 4#32 else s.reg a - 4#32))
  | _ => none

/-- A legal program: its serial run from reset stops after finitely many steps, executes no excluded macro
form, and stores to no cell it fetches from (R232). -/
def Legal (m0 : Memory) : Prop :=
  (∃ n t, Reaches (State.boot .serial m0) n t ∧ t.stopped = true) ∧
  (∀ n t i, Reaches (State.boot .serial m0) n t → t.stopped = false → t.nextInstr = some i →
    isPcMacro i = false) ∧
  (∀ n t i c k u, Reaches (State.boot .serial m0) n t → t.stopped = false → t.nextInstr = some i →
    storeCell t i = some c → Reaches (State.boot .serial m0) k u → u.stopped = false →
    c ≠ norm u.pc)

end Sys2Proof.Machine
end

