-- ==== Sys2Proof/Certificates/Slice0/Obligations.lean ====
section
/-!
DEFINITION. The statements about the model, for the provers. "Stated" in OBLIGATIONS.json: the Lean says a
numbered rule of spec/ whole; "derived": it rests on a decision or an inference of the spec, or of the model.
-/

section Statements

open Sys2Proof Sys2Proof.Machine

/-! ### Encoding (30_encoding.md) -/

/-- Decoding what the encoder writes gives the instruction back, as a word and as the first bytes of a
longer list (R61 a; the byte order is the model's choice, log 5). -/
def Obligations.EncodeThenDecode : Prop :=
  ∀ (i : Instr) (rest : List Byte), i.wf = true →
    decode (encode i) = .instr i ∧ decodeBytes (wordBytes (encode i) ++ rest) = .ok (i, rest)

/-- Every word is the packing of what decode extracts from it, and decode's immediate is in range (R61 b). -/
def Obligations.DecodeThenEncode : Prop :=
  ∀ w : Word,
    packFields (decode w).icode (decode w).fields.d (decode w).fields.a (decode w).fields.b
      ((decode w).fields.i.setWidth 11) = w ∧
    (decode w).fields.wf = true ∧
    ∀ i, decode w = .instr i → i.wf = true ∧ encode i = w

/-- The codec's projections as numbers (R53). -/
def Obligations.ProjectionsOfAWord : Prop :=
  ∀ w : Word,
    (opcodeOf w).toNat = (w.toNat >>> 26) &&& 0x3F ∧
    (dOf w).toNat = (w.toNat >>> 21) &&& 0x1F ∧
    (aOf w).toNat = (w.toNat >>> 16) &&& 0x1F ∧
    (bOf w).toNat = (w.toNat >>> 11) &&& 0x1F ∧
    immOf w = sext11 (BitVec.ofNat 11 (w.toNat &&& 0x7FF)) ∧
    (decode w).icode = opcodeOf w ∧
    (decode w).fields = ⟨dOf w, aOf w, bOf w, immOf w⟩

/-- The opcode assignments (R56): each code's words decode to its instruction; and the last four, which have
no execute contract, raise `InvalidOpcode` in execute (R62, the spec's decision D21, log 17). -/
def Obligations.OpcodeAssignments : Prop :=
  (EncodedAs 0x00#6 .hlt ∧ EncodedAs 0x10#6 .ld ∧ EncodedAs 0x11#6 .st ∧ EncodedAs 0x12#6 .push ∧
    EncodedAs 0x13#6 .pop ∧ EncodedAs 0x20#6 .iflt ∧ EncodedAs 0x21#6 .ifle ∧ EncodedAs 0x22#6 .ifeq ∧
    EncodedAs 0x23#6 .ifne ∧ EncodedAs 0x30#6 .add ∧ EncodedAs 0x31#6 .sub ∧ EncodedAs 0x32#6 .div ∧
    EncodedAs 0x33#6 .mod ∧ EncodedAs 0x34#6 .mul ∧ EncodedAs 0x35#6 .and ∧ EncodedAs 0x36#6 .or ∧
    EncodedAs 0x37#6 .nand ∧ EncodedAs 0x38#6 .xor ∧ EncodedAs 0x3A#6 .sl ∧ EncodedAs 0x3B#6 .sr ∧
    EncodedAs 0x3C#6 .sal ∧ EncodedAs 0x3D#6 .sar) ∧
  (EncodedAs 0x14#6 .pushall ∧ EncodedAs 0x15#6 .popall ∧ EncodedAs 0x24#6 .call ∧
    EncodedAs 0x25#6 .intr) ∧
  ∀ (w ipc npc : Word) (s : State),
    opcodeOf w ∈ [0x14#6, 0x15#6, 0x24#6, 0x25#6] →
    execDecoded ⟨decode w, ipc, npc⟩ s = .raise ⟨.invalidOpcode, opcodeOf w, ipc⟩

/-- A word decodes to no instruction of the table exactly when its opcode is one of the 38 unassigned codes
(R57, R63), which it then keeps as its `icode`. -/
def Obligations.UnassignedOpcodes : Prop :=
  ∀ w : Word,
    (decode w = .unassigned (opcodeOf w) ⟨dOf w, aOf w, bOf w, immOf w⟩ ↔
      (0x01 ≤ (opcodeOf w).toNat ∧ (opcodeOf w).toNat ≤ 0x0F) ∨
      (0x16 ≤ (opcodeOf w).toNat ∧ (opcodeOf w).toNat ≤ 0x1F) ∨
      (0x26 ≤ (opcodeOf w).toNat ∧ (opcodeOf w).toNat ≤ 0x2F) ∨
      (opcodeOf w).toNat = 0x39 ∨ (opcodeOf w).toNat = 0x3E ∨ (opcodeOf w).toNat = 0x3F) ∧
    ((∃ i, decode w = .instr i) ∨ decode w = .unassigned (opcodeOf w) ⟨dOf w, aOf w, bOf w, immOf w⟩)

/-- The worked encodings of 30_encoding.md section 4 and of 95_test_vectors.md decode as the spec says. -/
def Obligations.WrittenWordsDecode : Prop :=
  decode 0xC01EE80E#32 = .instr (.add 0#5 30#5 29#5 14#32) ∧
  decode 0x8800F000#32 = .instr (.ifeq 0#5 0#5 30#5 0#32) ∧
  decode 0xC7FFE81C#32 = .instr (.sub 31#5 31#5 29#5 28#32) ∧
  decode 0x481C0000#32 = .instr (.push 0#5 28#5 0#5 0#32) ∧
  decode 0x47E7EFFF#32 = .instr (.st 31#5 7#5 29#5 0xFFFFFFFF#32) ∧
  decode 0xC3FFEC00#32 = .instr (.add 31#5 31#5 29#5 0xFFFFFC00#32) ∧
  decode 0x00000000#32 = .instr (.hlt 0#5 0#5 0#5 0#32) ∧
  decode 0x00ABCDEF#32 = .instr (.hlt 5#5 11#5 25#5 0xFFFFFDEF#32) ∧
  decode 0x90A41FFF#32 = .instr (.call 5#5 4#5 3#5 0xFFFFFFFF#32) ∧
  decode 0xE4000000#32 = .unassigned 0x39#6 ⟨0#5, 0#5, 0#5, 0#32⟩ ∧
  decode 0xFFFFFFFF#32 = .unassigned 0x3F#6 ⟨31#5, 31#5, 31#5, 0xFFFFFFFF#32⟩

/-- The assembler's vector forms survive packing and disassembly, aliases replaced by their numbers
(R61 c). -/
def Obligations.VectorFormRoundTrip : Prop :=
  ∀ v : VectorForm, v.legal = true → disassemble v.word = some v.normalized

/-- The only immediate construction (R52): bits 10..0 are copied, bits 31..11 repeat bit 10, and that is
the immediate of every decoded word. -/
def Obligations.ImmediateIsSignExtended : Prop :=
  (∀ v : BitVec 11,
    (∀ k, k < 11 → (sext11 v).getLsbD k = v.getLsbD k) ∧
    (∀ k, 11 ≤ k → k < 32 → (sext11 v).getLsbD k = v.getLsbD 10) ∧
    (sext11 v).toInt = (if v.toNat < 1024 then (v.toNat : Int) else (v.toNat : Int) - 2048) ∧
    -1024 ≤ (sext11 v).toInt ∧ (sext11 v).toInt ≤ 1023) ∧
  ∀ w : Word, (decode w).fields.i = sext11 (BitVec.ofNat 11 (w.toNat % 2048))

/-! ### Operands and memory -/

/-- The operand resolver (R70): index 31 reads the address after the instruction, 30 reads 0, 29 reads the
instruction's immediate, any other index its register; and `seq` of an executing instruction is its
`ipc + 4`. -/
def Obligations.OperandRead : Prop :=
  (∀ (s : State) (idx : RegIdx) (seq imm : Word),
    rd s idx seq imm =
      if idx = 31#5 then seq else if idx = 30#5 then 0#32 else if idx = 29#5 then imm else s.reg idx) ∧
  ∀ (s : State) (d a b : RegIdx) (i ipc npc : Word), d ≠ 31#5 →
    execDecoded ⟨.instr (.add d a b i), ipc, npc⟩ s =
      .command (.registers d (rd s a (ipc + 4#32) i + rd s b (ipc + 4#32) i))

/-- Addresses are rounded down to a multiple of 4, under the unsigned and the signed reading alike (R31, the
spec's decision D5), and the effective address is `norm(x + 4*y)` modulo 2^32 (R37, D6). -/
def Obligations.AddressesRoundDown : Prop :=
  (∀ v : Word, (Machine.norm v).toNat = v.toNat / 4 * 4 ∧ (Machine.norm v).toInt = v.toInt / 4 * 4) ∧
  ∀ x y : Word, (effAddr x y).toNat = (x.toNat + 4 * y.toNat) % 2 ^ 32 / 4 * 4

/-- A memory write sets the cell of the normalised address to the whole word and no other cell; only a
`memory` command writes memory; only `st` gives one (R34; `push` through its second micro-op). -/
def Obligations.MemoryWrite : Prop :=
  (∀ (m : Memory) (addr v other : Word),
    memRead (memWrite m addr v) other =
      if Machine.norm other = Machine.norm addr then v else memRead m other) ∧
  (∀ (s : State) (c : Cmd),
    (s.writeback c).mem = match c with
      | .memory addr v => memWrite s.mem addr v
      | _ => s.mem) ∧
  (∀ (s : State) (D : InFlight) (addr v : Word), execDecoded D s = .command (.memory addr v) →
    ∃ d a b i, D.op = .instr (.st d a b i)) ∧
  ∀ (d a b : RegIdx) (i : Word),
    expand (.instr (.push d a b i)) =
      (.instr (.sub a a 29#5 4#32), [.instr (.st d a 30#5 0#32)])

/-- A cell that nothing has written holds 0, and a jump into unset memory halts cleanly (R36): the serial
reference in its next step, a pipelined variant with nothing in flight once the fetched word has retired. -/
def Obligations.UnsetMemoryHalts : Prop :=
  (∀ d a b v, decode (packFields 0#6 d a b v) = .instr (.hlt d a b (sext11 v))) ∧
  ∀ s : State, s.Running →
    (∀ k, k < 4 → assocFind ((roundDown (s.reg 31#5)).toNat + k) s.mem = none) →
    memRead s.mem (s.reg 31#5) = 0#32 ∧
    (s.variant = .serial → ∃ t, step s = .next t ∧ t.halted = true ∧ t.fault = none) ∧
    (s.Piped → s.Drained → ∃ n t, Reaches s n t ∧ t.halted = true ∧ t.fault = none ∧
      SameMem s t ∧ t.out = s.out ∧ ∀ r : RegIdx, r ≠ 31#5 → t.reg r = s.reg r)

/-! ### The instructions -/

/-- `hlt` (R90): `halted` becomes true; nothing else changes but the fetch increment; it is not a PC write, so
retiring it flushes nothing and trains nothing. -/
def Obligations.HaltInstruction : Prop :=
  EncodedAs 0x00#6 .hlt ∧ VectorForm.hlt.word = 0#32 ∧
  (∀ (s : State) (d a b : RegIdx) (i : Word),
    ∃ t, exec (.hlt d a b i) s = .next t ∧ t.halted = true ∧ t.fault = s.fault ∧
      OnlyAdvances { s with halted := true } t) ∧
  (∀ (s : State) (d a b : RegIdx) (i ipc npc : Word),
    execDecoded ⟨.instr (.hlt d a b i), ipc, npc⟩ s = .command .halt) ∧
  ∀ (s : State) (ipc npc : Word), s.xr = some ⟨.halt, ipc, npc⟩ →
    writebackStage s = { s with halted := true }

/-- `ld` (R92): the word of the cell at the effective address is delivered to `d`; an unset cell loads 0; it
is read in the execute stage. -/
def Obligations.LoadInstruction : Prop :=
  EncodedAs 0x10#6 .ld ∧
  ∀ (s : State) (d a b : RegIdx) (i : Word),
    (∃ t, exec (.ld d a b i) s = .next t ∧
      Delivers s t d (memRead s.mem (effAddr (s.operand a i) (s.operand b i)))) ∧
    ((∀ k, k < 4 → assocFind ((effAddr (s.operand a i) (s.operand b i)).toNat + k) s.mem = none) →
      memRead s.mem (effAddr (s.operand a i) (s.operand b i)) = 0#32) ∧
    ∀ ipc npc : Word, d ≠ 31#5 →
      execDecoded ⟨.instr (.ld d a b i), ipc, npc⟩ s =
        .command (.registers d
          (memRead s.mem (effAddr (rd s a (ipc + 4#32) i) (rd s b (ipc + 4#32) i))))

/-- `st` (R93): the value of `d`, read through the operand resolver, becomes the word at the effective
address; every other byte and every register but the fetch increment are unchanged; the write happens at
writeback. -/
def Obligations.StoreInstruction : Prop :=
  EncodedAs 0x11#6 .st ∧
  ∀ (s : State) (d a b : RegIdx) (i : Word),
    (∃ t, exec (.st d a b i) s = .next t ∧
      memRead t.mem (effAddr (s.operand a i) (s.operand b i)) =
        (if d = 31#5 then s.reg 31#5 + 4#32
          else if d = 30#5 then 0#32 else if d = 29#5 then i else s.reg d) ∧
      SameMemOutsideWord s t (effAddr (s.operand a i) (s.operand b i)).toNat ∧
      (∀ r : RegIdx, r ≠ 31#5 → t.reg r = s.reg r) ∧ t.reg 31#5 = s.reg 31#5 + 4#32 ∧
      t.out = s.out ∧ t.halted = s.halted ∧ t.fault = s.fault ∧ SameMicro s t) ∧
    ∀ ipc npc : Word,
      execDecoded ⟨.instr (.st d a b i), ipc, npc⟩ s =
        .command (.memory (effAddr (rd s a (ipc + 4#32) i) (rd s b (ipc + 4#32) i))
          (rd s d (ipc + 4#32) i))

/-- `push` of an ordinary register by an ordinary stack pointer (R97): decode replaces it by `sub` and `st`;
the pointer goes down by 4, then the value is stored where it points. -/
def Obligations.PushOrdinary : Prop :=
  EncodedAs 0x12#6 .push ∧
  (∀ (s : State) (f : FetchSlot) (d a b : RegIdx) (i : Word),
    s.dq = [] → s.fr = some f → decode f.blob = .instr (.push d a b i) →
    hazard (.instr (.sub a a 29#5 4#32)) s.xr = false →
    (decodeStage s).dr = some ⟨.instr (.sub a a 29#5 4#32), f.ipc, f.npc⟩ ∧
    (decodeStage s).dq = [⟨.instr (.st d a 30#5 0#32), f.ipc, f.npc⟩]) ∧
  ∀ (s : State) (d a b : RegIdx) (i : Word), a.toNat ≤ 28 → d.toNat ≤ 28 → a ≠ d →
    ∃ t, exec (.push d a b i) s = .next t ∧
      t.reg a = s.reg a - 4#32 ∧ memRead t.mem (t.reg a) = s.reg d ∧
      SameMemOutsideWord s t (Machine.norm (s.reg a - 4#32)).toNat ∧
      (∀ r : RegIdx, r ≠ 31#5 → r ≠ a → t.reg r = s.reg r) ∧ t.reg 31#5 = s.reg 31#5 + 4#32 ∧
      t.out = s.out ∧ t.halted = s.halted ∧ t.fault = s.fault ∧ SameMicro s t

/-- `pop` of an ordinary register by an ordinary stack pointer (R98): decode replaces it by `ld` and `add`;
the word the pointer points at is loaded, then the pointer goes up by 4; and a `push` followed by a `pop`
restores the value and the pointer. -/
def Obligations.PopOrdinary : Prop :=
  EncodedAs 0x13#6 .pop ∧
  (∀ (s : State) (f : FetchSlot) (d a b : RegIdx) (i : Word),
    s.dq = [] → s.fr = some f → decode f.blob = .instr (.pop d a b i) →
    hazard (.instr (.ld d a 30#5 0#32)) s.xr = false →
    (decodeStage s).dr = some ⟨.instr (.ld d a 30#5 0#32), f.ipc, f.npc⟩ ∧
    (decodeStage s).dq = [⟨.instr (.add a a 29#5 4#32), f.ipc, f.npc⟩]) ∧
  (∀ (s : State) (d a b : RegIdx) (i : Word), a.toNat ≤ 28 → d.toNat ≤ 28 → a ≠ d →
    ∃ t, exec (.pop d a b i) s = .next t ∧
      t.reg d = memRead s.mem (Machine.norm (s.reg a)) ∧ t.reg a = s.reg a + 4#32 ∧ SameMem s t ∧
      (∀ r : RegIdx, r ≠ 31#5 → r ≠ a → r ≠ d → t.reg r = s.reg r) ∧
      t.reg 31#5 = s.reg 31#5 + 4#32 ∧
      t.out = s.out ∧ t.halted = s.halted ∧ t.fault = s.fault ∧ SameMicro s t) ∧
  ∀ (s : State) (x y a b b' : RegIdx) (i i' : Word),
    a.toNat ≤ 28 → x.toNat ≤ 28 → y.toNat ≤ 28 → x ≠ a → y ≠ a →
    ∃ t u, exec (.push x a b i) s = .next t ∧ exec (.pop y a b' i') t = .next u ∧
      u.reg y = s.reg x ∧ u.reg a = s.reg a

/-- Every form of `push` on the serial reference, special indices included (R99, R102, R103; decisions D14
and D41): the pointer's base, the stored value, the character that `a = 30` prints, the jump of `a = 31`. -/
def Obligations.PushEveryForm : Prop :=
  ∀ (s : State) (d a b : RegIdx) (i : Word),
    let base := if a = 29#5 ∨ a = 30#5 then 0#32 else if a = 31#5 then s.reg 31#5 + 4#32
      else s.reg a - 4#32
    ∃ t, exec (.push d a b i) s = .next t ∧
      memRead t.mem base =
        (if d = 31#5 then s.reg 31#5 + 4#32 else if d = 29#5 ∨ d = 30#5 then 0#32
          else if d = a then s.reg a - 4#32 else s.reg d) ∧
      SameMemOutsideWord s t (Machine.norm base).toNat ∧
      (a.toNat ≤ 28 → t.reg a = s.reg a - 4#32) ∧
      (∀ r : RegIdx, r ≠ 31#5 → (r ≠ a ∨ 28 < r.toNat) → t.reg r = s.reg r) ∧
      t.reg 31#5 = (if a = 31#5 then roundDown (s.reg 31#5) else s.reg 31#5 + 4#32) ∧
      t.out = s.out ++ (if a = 30#5 then [OutEvent.outChar 0xFC#8] else []) ∧
      t.halted = s.halted ∧ t.fault = s.fault ∧ SameMicro s t

/-- Every form of `pop` on the serial reference, special indices included (R99, R102, R103; decisions D14 and
D41): what the loaded word does at `d`, then what the advanced pointer does at `a`. -/
def Obligations.PopEveryForm : Prop :=
  ∀ (s : State) (d a b : RegIdx) (i : Word),
    let v := memRead s.mem (Machine.norm (s.operand a 0#32))
    ∃ t, exec (.pop d a b i) s = .next t ∧
      (d.toNat ≤ 28 → d ≠ a → t.reg d = v) ∧
      (a.toNat ≤ 28 → t.reg a = (if d = a then v else s.reg a) + 4#32) ∧
      (∀ r : RegIdx, r ≠ 31#5 → ((r ≠ a ∧ r ≠ d) ∨ 28 < r.toNat) → t.reg r = s.reg r) ∧
      t.reg 31#5 = (if a = 31#5 then roundDown (s.reg 31#5 + 8#32)
        else if d = 31#5 then roundDown v else s.reg 31#5 + 4#32) ∧
      t.out = s.out ++ eventsOf d v ++
        (if a = 30#5 then [OutEvent.outChar 4#8] else if a = 29#5 then [OutEvent.outHex 8#32] else []) ∧
      SameMem s t ∧ t.halted = s.halted ∧ t.fault = s.fault ∧ SameMicro s t

/-- The conditionals (R104 to R108): a PC write of `seq` when the comparison holds, of `seq + 4` when it
fails; `d` is ignored; nothing else changes. -/
def Obligations.ConditionalSkip : Prop :=
  (EncodedAs 0x20#6 .iflt ∧ EncodedAs 0x21#6 .ifle ∧ EncodedAs 0x22#6 .ifeq ∧ EncodedAs 0x23#6 .ifne) ∧
  (∀ op a b i, dOf (VectorForm.cond op a b i).word = 0#5) ∧
  ∀ (s : State) (d a b : RegIdx) (i : Word),
    let x := s.operand a i
    let y := s.operand b i
    let seq := s.reg 31#5 + 4#32
    (∃ t, exec (.iflt d a b i) s = .next t ∧
      Delivers s t 31#5 (if x.toInt < y.toInt then seq else seq + 4#32)) ∧
    (∃ t, exec (.ifle d a b i) s = .next t ∧
      Delivers s t 31#5 (if x.toInt ≤ y.toInt then seq else seq + 4#32)) ∧
    (∃ t, exec (.ifeq d a b i) s = .next t ∧
      Delivers s t 31#5 (if x = y then seq else seq + 4#32)) ∧
    (∃ t, exec (.ifne d a b i) s = .next t ∧
      Delivers s t 31#5 (if x ≠ y then seq else seq + 4#32)) ∧
    (Aligned (s.reg 31#5) → roundDown seq = seq ∧ roundDown (seq + 4#32) = seq + 4#32)

/-- `add` and `sub` (R110, R111): the sum and the difference modulo 2^32, delivered to `d`; no fault. -/
def Obligations.AddAndSub : Prop :=
  EncodedAs 0x30#6 .add ∧ EncodedAs 0x31#6 .sub ∧
  ∀ (s : State) (d a b : RegIdx) (i : Word),
    (∃ t, exec (.add d a b i) s = .next t ∧
      Delivers s t d (BitVec.ofNat 32 (((s.operand a i).toNat + (s.operand b i).toNat) % 2 ^ 32))) ∧
    ∃ t, exec (.sub d a b i) s = .next t ∧
      Delivers s t d (BitVec.ofInt 32 ((s.operand a i).toInt - (s.operand b i).toInt))

/-- `mul` (R112; decision D12): the low 32 bits of the product, which the signed and the unsigned product
share. -/
def Obligations.MulLowWord : Prop :=
  ∀ (s : State) (d a b : RegIdx) (i : Word),
    ∃ t v, exec (.mul d a b i) s = .next t ∧ Delivers s t d v ∧
      v = BitVec.ofNat 32 ((s.operand a i).toNat * (s.operand b i).toNat) ∧
      v = BitVec.ofInt 32 ((s.operand a i).toInt * (s.operand b i).toInt)

/-- `div` and `mod` with a divisor that is not 0 (R113, R114, R116; decision D9 for the overflow case): the
quotient rounded toward zero and the remainder with the dividend's sign; −2^31 by −1 gives 0x80000000 and 0
and does not fault. -/
def Obligations.DivisionResults : Prop :=
  ∀ (s : State) (d a b : RegIdx) (i : Word),
    let x := (s.operand a i).toInt
    let y := (s.operand b i).toInt
    s.operand b i ≠ 0#32 →
    (∃ t q, exec (.div d a b i) s = .next t ∧ Delivers s t d q ∧
      q = BitVec.ofInt 32 (x.sign * y.sign * (x.natAbs / y.natAbs : Nat)) ∧
      (x = -2 ^ 31 → y = -1 → q = 0x80000000#32)) ∧
    ∃ t r, exec (.mod d a b i) s = .next t ∧ Delivers s t d r ∧
      r.toInt = x.sign * (x.natAbs % y.natAbs : Nat) ∧
      (x = -2 ^ 31 → y = -1 → r = 0#32)

/-- The arithmetic trap (R202; the overflow case R116 is decision D9): `div` or `mod` with second operand 0
latches the record and stops the block for good (R200 and R141: the spec's decisions D20 and D19, logs 4 and
17); the overflow case does not trap. The zero test is on the resolved operand (R117): source 30 always
traps, source 29 exactly when the immediate is 0, source 31 exactly when `seq` is 0, a register exactly when
it holds 0. Whatever raises the trap in an execute stage is a `div` or a `mod` with second operand 0. -/
def Obligations.DivisionByZeroTraps : Prop :=
  (∀ (s : State) (d a b : RegIdx) (i : Word),
    (s.operand b i = 0#32 →
      (∃ t, exec (.div d a b i) s = .next t ∧
        t.fault = some ⟨.arithmeticTrap, 0x32#6, s.reg 31#5⟩ ∧ OnlyAdvances s t ∧ step t = .next t) ∧
      ∃ t, exec (.mod d a b i) s = .next t ∧
        t.fault = some ⟨.arithmeticTrap, 0x33#6, s.reg 31#5⟩ ∧ OnlyAdvances s t ∧ step t = .next t) ∧
    ((s.operand a i).toInt = -2 ^ 31 → (s.operand b i).toInt = -1 →
      (∃ t, exec (.div d a b i) s = .next t ∧ t.fault = s.fault) ∧
      ∃ t, exec (.mod d a b i) s = .next t ∧ t.fault = s.fault) ∧
    ∀ t : State, s.fault = none →
      (exec (.div d a b i) s = .next t ∨ exec (.mod d a b i) s = .next t) →
      (t.fault.isSome = true ↔
        if b = 30#5 then True else if b = 29#5 then i = 0#32
        else if b = 31#5 then s.reg 31#5 + 4#32 = 0#32 else s.reg b = 0#32)) ∧
  ∀ (s : State) (D : InFlight) (f : FaultRecord), execDecoded D s = .raise f → f.kind = .arithmeticTrap →
    ∃ d a b i, (D.op = .instr (.div d a b i) ∨ D.op = .instr (.mod d a b i)) ∧
      rd s b (D.ipc + 4#32) i = 0#32 ∧ f.icode = D.op.icode ∧ f.ipc = D.ipc

/-- The bitwise operations (R118 to R121): each of the 32 bits, delivered to `d`. -/
def Obligations.BitwiseOperations : Prop :=
  (EncodedAs 0x35#6 .and ∧ EncodedAs 0x36#6 .or ∧ EncodedAs 0x37#6 .nand ∧ EncodedAs 0x38#6 .xor) ∧
  ∀ (s : State) (d a b : RegIdx) (i : Word),
    let x := s.operand a i
    let y := s.operand b i
    (∃ t v, exec (.and d a b i) s = .next t ∧ Delivers s t d v ∧
      ∀ k, k < 32 → v.getLsbD k = (x.getLsbD k && y.getLsbD k)) ∧
    (∃ t v, exec (.or d a b i) s = .next t ∧ Delivers s t d v ∧
      ∀ k, k < 32 → v.getLsbD k = (x.getLsbD k || y.getLsbD k)) ∧
    (∃ t v, exec (.nand d a b i) s = .next t ∧ Delivers s t d v ∧
      ∀ k, k < 32 → v.getLsbD k = !(x.getLsbD k && y.getLsbD k)) ∧
    ∃ t v, exec (.xor d a b i) s = .next t ∧ Delivers s t d v ∧
      ∀ k, k < 32 → v.getLsbD k = (x.getLsbD k ^^ y.getLsbD k)

/-- The shifts (R122 to R126): the amount is the whole second operand, unsigned, and 32 or more shifts every
bit out (decision D10); `sal` is `sl` (decision D11). -/
def Obligations.Shifts : Prop :=
  ∀ (s : State) (d a b : RegIdx) (i : Word),
    let x := s.operand a i
    let n := (s.operand b i).toNat
    (∃ t v, exec (.sl d a b i) s = .next t ∧ Delivers s t d v ∧
      v = if n < 32 then BitVec.ofNat 32 (x.toNat * 2 ^ n) else 0#32) ∧
    (∃ t v, exec (.sr d a b i) s = .next t ∧ Delivers s t d v ∧
      v.toNat = if n < 32 then x.toNat / 2 ^ n else 0) ∧
    (∃ t v, exec (.sal d a b i) s = .next t ∧ Delivers s t d v ∧
      v = if n < 32 then BitVec.ofNat 32 (x.toNat * 2 ^ n) else 0#32) ∧
    ∃ t v, exec (.sar d a b i) s = .next t ∧ Delivers s t d v ∧
      v.toInt = x.toInt / 2 ^ min n 31

/-- The v1 opcodes (R62; decision D21): each takes the `InvalidOpcode` fault with its code, and nothing else
changes but the fetch increment. -/
def Obligations.V1OpcodesFault : Prop :=
  ∀ (s : State) (d a b : RegIdx) (i : Word),
    (∃ t, exec (.pushall d a b i) s = .next t ∧ OnlyAdvances s t ∧
      t.fault = some ⟨.invalidOpcode, 0x14#6, s.reg 31#5⟩) ∧
    (∃ t, exec (.popall d a b i) s = .next t ∧ OnlyAdvances s t ∧
      t.fault = some ⟨.invalidOpcode, 0x15#6, s.reg 31#5⟩) ∧
    (∃ t, exec (.call d a b i) s = .next t ∧ OnlyAdvances s t ∧
      t.fault = some ⟨.invalidOpcode, 0x24#6, s.reg 31#5⟩) ∧
    ∃ t, exec (.intr d a b i) s = .next t ∧ OnlyAdvances s t ∧
      t.fault = some ⟨.invalidOpcode, 0x25#6, s.reg 31#5⟩

/-- Fields an instruction does not use are ignored (R64; decision D24). -/
def Obligations.UnusedFieldsIgnored : Prop :=
  ∀ (s : State) (d a b d' a' b' : RegIdx) (i i' : Word),
    exec (.hlt d a b i) s = exec (.hlt d' a' b' i') s ∧
    exec (.push d a b i) s = exec (.push d a b' i') s ∧
    exec (.pop d a b i) s = exec (.pop d a b' i') s ∧
    exec (.iflt d a b i) s = exec (.iflt d' a b i) s ∧
    exec (.ifle d a b i) s = exec (.ifle d' a b i) s ∧
    exec (.ifeq d a b i) s = exec (.ifeq d' a b i) s ∧
    exec (.ifne d a b i) s = exec (.ifne d' a b i) s ∧
    (a ≠ 29#5 → b ≠ 29#5 →
      exec (.ld d a b i) s = exec (.ld d a b i') s ∧
      (d ≠ 29#5 → exec (.st d a b i) s = exec (.st d a b i') s) ∧
      exec (.iflt d a b i) s = exec (.iflt d a b i') s ∧
      exec (.ifle d a b i) s = exec (.ifle d a b i') s ∧
      exec (.ifeq d a b i) s = exec (.ifeq d a b i') s ∧
      exec (.ifne d a b i) s = exec (.ifne d a b i') s ∧
      exec (.add d a b i) s = exec (.add d a b i') s ∧
      exec (.sub d a b i) s = exec (.sub d a b i') s ∧
      exec (.mul d a b i) s = exec (.mul d a b i') s ∧
      exec (.div d a b i) s = exec (.div d a b i') s ∧
      exec (.mod d a b i) s = exec (.mod d a b i') s ∧
      exec (.and d a b i) s = exec (.and d a b i') s ∧
      exec (.or d a b i) s = exec (.or d a b i') s ∧
      exec (.nand d a b i) s = exec (.nand d a b i') s ∧
      exec (.xor d a b i) s = exec (.xor d a b i') s ∧
      exec (.sl d a b i) s = exec (.sl d a b i') s ∧
      exec (.sr d a b i) s = exec (.sr d a b i') s ∧
      exec (.sal d a b i) s = exec (.sal d a b i') s ∧
      exec (.sar d a b i) s = exec (.sar d a b i') s)

/-- The canonical no-op (R65): its word is an `add` to the zero index; executing it leaves everything
unchanged but the program counter, and so does any instruction that delivers 0 to index 30. -/
def Obligations.CanonicalNoop : Prop :=
  Config.noopWord = pack 0x30 30 30 30 0 ∧ Config.noopWord = 0xC3DEF000#32 ∧
  decode Config.noopWord = .instr (.add 30#5 30#5 30#5 0#32) ∧
  (∀ (s : State) (ipc npc : Word),
    execDecoded ⟨decode Config.noopWord, ipc, npc⟩ s = .command (.registers 30#5 0#32) ∧
    s.writeback (.registers 30#5 0#32) = s) ∧
  (∀ s : State, ∃ t, exec (.add 30#5 30#5 30#5 0#32) s = .next t ∧ OnlyAdvances s t ∧
    t.fault = s.fault) ∧
  ∀ s t : State, Delivers s t 30#5 0#32 → OnlyAdvances s t ∧ t.fault = s.fault

/-! ### Writeback, faults and stopping -/

/-- Writeback of a halt command sets `halted` and nothing else, and ends the cycle (R76); writeback to an
ordinary register sets it and does nothing else (R79). -/
def Obligations.WritebackEffects : Prop :=
  (∀ s : State, s.writeback .halt = { s with halted := true }) ∧
  (∀ (s : State) (x : ExecSlot), s.Piped → s.Running → s.xr = some x → x.cmd = .halt →
    step s = .next { s with halted := true }) ∧
  ∀ (s : State) (r : RegIdx) (v : Word), r ≠ 29#5 → r ≠ 30#5 → r ≠ 31#5 →
    s.writeback (.registers r v) = { s with regs := s.regs.set r.toNat v }

/-- Writeback to the output indices (R75; decision D25): no register is written; a value that is not 0 emits
one event, the low byte as a character for 30 and the whole word for 29; the test is on the whole word. -/
def Obligations.OutputIndices : Prop :=
  ∀ (s : State) (v : Word),
    s.writeback (.registers 30#5 v) =
      { s with out := s.out ++ (if v = 0#32 then [] else [.outChar (BitVec.ofNat 8 v.toNat)]) } ∧
    s.writeback (.registers 29#5 v) =
      { s with out := s.out ++ (if v = 0#32 then [] else [.outHex v]) }

/-- A branch is the retirement of a PC write, by whatever instruction (R128): every other command leaves the
program counter, the latches, the queue and the predictor alone, and a PC write to `v` that is not a correct
prediction takes the program counter to `v` rounded down. -/
def Obligations.OnlyPcWritesBranch : Prop :=
  ∀ s : State,
    ((∀ v ipc npc, s.xr ≠ some ⟨.registers 31#5 v, ipc, npc⟩) →
      let t := writebackStage s
      t.reg 31#5 = s.reg 31#5 ∧ t.fr = s.fr ∧ t.dr = s.dr ∧ t.dq = s.dq ∧
      t.table = s.table ∧ t.hist = s.hist ∧ t.jumpMap = s.jumpMap) ∧
    ∀ v ipc npc, s.xr = some ⟨.registers 31#5 v, ipc, npc⟩ →
      (s.variant ≠ .predicted ∨ roundDown v ≠ npc) → (writebackStage s).reg 31#5 = roundDown v

/-- `InvalidOpcode` (R201): raised in execute exactly for the 38 unassigned and the four v1 codes (the macros
never reach execute), not at decode or fetch; on the serial reference the step latches it; afterwards no
step changes anything. That the four v1 codes raise it is the spec's decision D21, the form of the record
D20, and that a latched fault holds the block D19 and D20 (R62, R200, R141; logs 4 and 17). -/
def Obligations.InvalidOpcodeRaised : Prop :=
  (∀ (w ipc npc : Word) (s : State), opcodeOf w ≠ 0x12#6 → opcodeOf w ≠ 0x13#6 →
    ((∃ f, execDecoded ⟨decode w, ipc, npc⟩ s = .raise f ∧ f.kind = .invalidOpcode) ↔
      opcodeOf w ∉ executableCodes) ∧
    ∀ f, execDecoded ⟨decode w, ipc, npc⟩ s = .raise f → f.icode = opcodeOf w ∧ f.ipc = ipc) ∧
  (∀ s : State, (decodeStage s).fault = s.fault ∧ (fetchStage s).fault = s.fault) ∧
  (∀ s : State, s.variant = .serial → s.Running →
    opcodeOf s.fetchedWord ∉ executableCodes →
    opcodeOf s.fetchedWord ≠ 0x12#6 → opcodeOf s.fetchedWord ≠ 0x13#6 →
    ∃ t, step s = .next t ∧ t.fault = some ⟨.invalidOpcode, opcodeOf s.fetchedWord, s.reg 31#5⟩ ∧
      OnlyAdvances s t) ∧
  ∀ s : State, s.fault.isSome = true → step s = .next s

/-- A stopped block holds: with `halted` set or a fault latched, a step changes nothing, in every variant
(R141, R214; decision D19); the way out is reset, which gives the reset state from any state, with the image
the platform loaded and the variant unchanged (R220, R222; decision D38, log 10). -/
def Obligations.StoppedBlockHolds : Prop :=
  (∀ s : State, (s.halted = true ∨ s.fault ≠ none) → ∀ n, Reaches s n s) ∧
  ∀ (m0 : Memory) (s : State), applyReset m0 s = State.boot s.variant m0 ∧ (applyReset m0 s).Running

/-- `halted` (R18): false initially; a step sets it exactly when a `halt` command retires, and no step clears
it; only reset does; while it is set no step changes anything. -/
def Obligations.HaltedSetByRetiredHalt : Prop :=
  (∀ v m0, (State.boot v m0).halted = false) ∧
  (∀ s t : State, step s = .next t → (t.halted = true ↔
    s.halted = true ∨
    (s.Running ∧ s.Piped ∧ ∃ ipc npc, s.xr = some ⟨.halt, ipc, npc⟩) ∨
    (s.Running ∧ s.variant = .serial ∧ ∃ d a b i, decode s.fetchedWord = .instr (.hlt d a b i)))) ∧
  (∀ s : State, s.halted = true → step s = .next s) ∧
  ∀ (m0 : Memory) (s : State), (applyReset m0 s).halted = false

/-- Faults of the pipelined variants are precise (R163; decision D19, D20, D22): the record is that of the
instruction in the decode latch; the older one ahead of it has retired in the same step; nothing else has
changed; the kind is never `InvalidRegister`. -/
def Obligations.PipelinedFaultsArePrecise : Prop :=
  ∀ (s t : State) (f : FaultRecord), s.Piped → s.fault = none → step s = .next t → t.fault = some f →
    ∃ D, s.dr = some D ∧ execDecoded D (writebackStage s) = .raise f ∧
      f.ipc = D.ipc ∧ f.icode = D.op.icode ∧ f.kind ≠ .invalidRegister ∧
      SameArchButFault (writebackStage s) t ∧ t.halted = false ∧
      t.reg 31#5 = (writebackStage s).reg 31#5 ∧ SameMicro (writebackStage s) t

/-- Faults of the serial reference (R200, R204, R207; decision D20, D22): the record holds the address and the
opcode of the word at the program counter; no register but the program counter, no byte of memory and no
output event has changed; the kind is never `InvalidRegister`. -/
def Obligations.SerialFaultsArePrecise : Prop :=
  ∀ (s t : State) (f : FaultRecord), s.variant = .serial → s.fault = none → step s = .next t →
    t.fault = some f →
    f.ipc = s.reg 31#5 ∧ f.icode = opcodeOf s.fetchedWord ∧ f.kind ≠ .invalidRegister ∧
      OnlyAdvances s t

/-- Only writeback changes the registers and memory (R80), but for two writes of the program counter: the
fetch increment or redirect, and the hazard replay. -/
def Obligations.OnlyWritebackMutates : Prop :=
  (∀ s : State, (executeStage s).regs = s.regs ∧ (executeStage s).mem = s.mem) ∧
  (∀ s : State, (decodeStage s).mem = s.mem ∧
    (∀ r : RegIdx, r ≠ 31#5 → (decodeStage s).reg r = s.reg r) ∧
    ((decodeStage s).reg 31#5 = s.reg 31#5 ∨
      ∃ f, s.dq = [] ∧ s.fr = some f ∧ hazard (expand (decode f.blob)).1 s.xr = true ∧
        (decodeStage s).reg 31#5 = f.ipc)) ∧
  (∀ s : State, (fetchStage s).mem = s.mem ∧
    (∀ r : RegIdx, r ≠ 31#5 → (fetchStage s).reg r = s.reg r) ∧
    (fetchStage s).reg 31#5 = if s.stall = 0#32 then s.nextFetch (s.reg 31#5) else s.reg 31#5) ∧
  (∀ s : State, (stallDec s).regs = s.regs ∧ (stallDec s).mem = s.mem) ∧
  ∀ s t : State, s.Piped → s.Running → step s = .next t →
    (∀ r : RegIdx, r.toNat ≤ 28 → t.reg r =
      match s.xr with
      | some ⟨.registers q v, _, _⟩ => if q = r then v else s.reg r
      | _ => s.reg r) ∧
    t.mem =
      match s.xr with
      | some ⟨.memory addr v, _, _⟩ => memWrite s.mem addr v
      | _ => s.mem

/-! ### The step -/

/-- The serial step runs the decoded instruction: where the four bytes at the program counter decode to `i`,
the step of a running serial machine is `exec i`; a stopped one holds (R84; decision D35). -/
def Obligations.SerialStepRunsInstr : Prop :=
  ∀ (s : State) (i : Instr), s.variant = .serial → s.Running →
    decodeBytes ((List.range 4).map fun k => readByte s.mem ((roundDown (s.reg 31#5)).toNat + k)) =
      .ok (i, []) →
    step s = exec i s

/-- Nothing the machine can hold ends a run: every step, in every state, answers a next state, of the same
variant, and output events are only appended. -/
def Obligations.EveryStepIsNext : Prop :=
  ∀ s : State, ∃ t evs, step s = .next t ∧ t.variant = s.variant ∧ t.out = s.out ++ evs ∧
    evs.length ≤ (if s.variant = .serial then 2 else 1)

/-- A pipelined variant with nothing in flight runs the instruction at the program counter in four steps
(R144, R164): after them the general registers, memory, output and `halted` are what `exec` gives, and its
fault is latched if it faults. -/
def Obligations.DrainedPipelineRunsInstr : Prop :=
  ∀ (s : State) (i : Instr), s.Piped → s.Running → s.Drained →
    decode (memRead s.mem (s.reg 31#5)) = .instr i →
    (∀ d a b imm, i ≠ .push d a b imm ∧ i ≠ .pop d a b imm) →
    ∃ t u, exec i s = .next u ∧ Reaches s 4 t ∧ SameArchButFault u t ∧
      (u.fault ≠ none → t.fault = u.fault)

/-- A pipelined variant with nothing in flight runs a macro at the program counter in five steps, or in six
when the second micro-op reads the register that the first one writes (R155, R157, R166); the forms whose
first micro-op writes the program counter are outside (R103, R232). -/
def Obligations.DrainedPipelineRunsMacro : Prop :=
  ∀ (s : State) (d a b : RegIdx) (i : Word), s.Piped → s.Running → s.Drained →
    (decode (memRead s.mem (s.reg 31#5)) = .instr (.push d a b i) → a ≠ 31#5 →
      ∃ t u, exec (.push d a b i) s = .next u ∧
        Reaches s (if a = 29#5 ∨ a = 30#5 then 5 else 6) t ∧ SameArchButFault u t) ∧
    (decode (memRead s.mem (s.reg 31#5)) = .instr (.pop d a b i) → d ≠ 31#5 →
      ∃ t u, exec (.pop d a b i) s = .next u ∧
        Reaches s (if d = a ∧ a ≠ 29#5 ∧ a ≠ 30#5 then 6 else 5) t ∧ SameArchButFault u t)

/-- Fetch (R150, R151): with `stall` 0 the word at the program counter enters `FR` and the program counter goes
to the next address, or to the predicted target in the predicted variant; with `stall` positive nothing
happens, and `FR` is empty then, because decode has emptied it. -/
def Obligations.FetchStage : Prop :=
  (∀ s : State, s.stall = 0#32 → s.variant ≠ .predicted →
    fetchStage s = { s with
      regs := s.regs.set 31 (s.reg 31#5 + 4#32)
      fr := some ⟨memRead s.mem (s.reg 31#5), s.reg 31#5, s.reg 31#5 + 4#32⟩ }) ∧
  (∀ s : State, s.stall = 0#32 → s.variant = .predicted →
    fetchStage s = { s with
      regs := s.regs.set 31 ((s.predict (s.reg 31#5)).getD (s.reg 31#5 + 4#32))
      fr := some ⟨memRead s.mem (s.reg 31#5), s.reg 31#5,
        (s.predict (s.reg 31#5)).getD (s.reg 31#5 + 4#32)⟩ }) ∧
  (∀ s : State, s.stall ≠ 0#32 → fetchStage s = s) ∧
  ∀ s : State, (s.dq ≠ [] → s.fr = none) → (decodeStage s).fr = none

/-- The hazard detector (R154): a register command in `XR` whose index is the candidate's `a` or `b`, 29 and 30
excepted; in a step it looks at the command that execute has just produced. -/
def Obligations.HazardDetector : Prop :=
  (∀ (u : Decoded) (xr : Option ExecSlot),
    hazard u xr = true ↔
      ∃ r v ipc npc, xr = some ⟨.registers r v, ipc, npc⟩ ∧ (r = u.fields.a ∨ r = u.fields.b) ∧
        r ≠ 29#5 ∧ r ≠ 30#5) ∧
  ∀ s t : State, s.Piped → s.Running → step s = .next t → t.Running →
    (hazard (match (writebackStage s).dq, (writebackStage s).fr with
      | u :: _, _ => u.op
      | [], some f => (expand (decode f.blob)).1
      | [], none => .instr (.add 30#5 30#5 30#5 0#32)) t.xr = true → t.dr = none)

/-- Decode (R147, R155 to R158; decisions D15 to D17, D42): the queue first; hold, replay, issue, macro
issue, bubble. A fetched word is any word: an ordinary instruction, a `push`, a `pop`, or one of the
unassigned opcodes, which is issued like any other (R63). -/
def Obligations.DecodeStage : Prop :=
  (∀ (s : State) (u : InFlight) (rest : List InFlight), s.dq = u :: rest →
    decodeStage s = if hazard u.op s.xr = true then { s with dr := none, stall := s.stall + 1#32 }
      else { s with dr := some u, dq := rest }) ∧
  (∀ (s : State) (f : FetchSlot), s.dq = [] → s.fr = some f →
    hazard (expand (decode f.blob)).1 s.xr = true →
    decodeStage s = { s with
      fr := none, dr := none, stall := s.stall + 1#32, regs := s.regs.set 31 f.ipc }) ∧
  (∀ (s : State) (f : FetchSlot) (i : Instr), s.dq = [] → s.fr = some f → decode f.blob = .instr i →
    (∀ d a b imm, i ≠ .push d a b imm ∧ i ≠ .pop d a b imm) → hazard (.instr i) s.xr = false →
    decodeStage s = { s with fr := none, dr := some ⟨.instr i, f.ipc, f.npc⟩ }) ∧
  (∀ (s : State) (f : FetchSlot) (c : Opcode) (fields : Fields), s.dq = [] → s.fr = some f →
    decode f.blob = .unassigned c fields → hazard (.unassigned c fields) s.xr = false →
    decodeStage s = { s with fr := none, dr := some ⟨.unassigned c fields, f.ipc, f.npc⟩ }) ∧
  (∀ (s : State) (f : FetchSlot) (d a b : RegIdx) (i : Word), s.dq = [] → s.fr = some f →
    decode f.blob = .instr (.push d a b i) → hazard (.instr (.sub a a 29#5 4#32)) s.xr = false →
    decodeStage s = { s with
      fr := none, dr := some ⟨.instr (.sub a a 29#5 4#32), f.ipc, f.npc⟩
      dq := [⟨.instr (.st d a 30#5 0#32), f.ipc, f.npc⟩], stall := s.stall + 1#32 }) ∧
  (∀ (s : State) (f : FetchSlot) (d a b : RegIdx) (i : Word), s.dq = [] → s.fr = some f →
    decode f.blob = .instr (.pop d a b i) → hazard (.instr (.ld d a 30#5 0#32)) s.xr = false →
    decodeStage s = { s with
      fr := none, dr := some ⟨.instr (.ld d a 30#5 0#32), f.ipc, f.npc⟩
      dq := [⟨.instr (.add a a 29#5 4#32), f.ipc, f.npc⟩], stall := s.stall + 1#32 }) ∧
  ∀ s : State, s.dq = [] → s.fr = none → decodeStage s = { s with dr := none }

/-- The execute stage (R146): a bubble passes on; a command goes to `XR` with the instruction's `ipc` and
`npc`; a fault is latched, leaves `XR` as it was and ends the step. -/
def Obligations.ExecuteStage : Prop :=
  (∀ s : State, s.dr = none → executeStage s = { s with xr := none }) ∧
  (∀ (s : State) (D : InFlight) (c : Cmd), s.dr = some D → execDecoded D s = .command c →
    executeStage s = { s with xr := some ⟨c, D.ipc, D.npc⟩ }) ∧
  (∀ (s : State) (D : InFlight) (f : FaultRecord), s.dr = some D → execDecoded D s = .raise f →
    executeStage s = { s with fault := some f }) ∧
  ∀ (s : State) (D : InFlight) (f : FaultRecord), s.Piped → s.Running →
    (writebackStage s).halted = false → (writebackStage s).dr = some D →
    execDecoded D (writebackStage s) = .raise f →
    step s = .next { writebackStage s with fault := some f }

/-- The branch flush of the `pipelined` variant (R161): a PC write takes the program counter to the target
rounded down and empties `FR`, `DR` and `DQ`, always, also when the target is where fetch went. -/
def Obligations.PcWriteFlushes : Prop :=
  ∀ (s : State) (v ipc npc : Word), s.variant = .pipelined →
    s.xr = some ⟨.registers 31#5 v, ipc, npc⟩ →
    writebackStage s =
      { s with regs := s.regs.set 31 (roundDown v), fr := none, dr := none, dq := [] }

/-- After a flush the rest of the step refetches (R159): `DR` and `XR` are empty, `FR` holds the word at the
target, and the counter is where fetch goes from there. A flush (decision D18) is any PC write of the
`pipelined` variant, and one whose target is not where fetch went of the `predicted` variant (decisions D30,
D31), where fetch already sees the training of the same step (R198). -/
def Obligations.FlushRefetchesTarget : Prop :=
  ∀ (s t : State) (v ipc npc : Word), s.Piped → s.Running → s.stall = 0#32 →
    s.xr = some ⟨.registers 31#5 v, ipc, npc⟩ → (s.variant = .predicted → roundDown v ≠ npc) →
    step s = .next t →
    let target := roundDown v
    let next := if s.variant = .predicted
      then ((s.trainTaken ipc target).predict target).getD (target + 4#32) else target + 4#32
    t.dr = none ∧ t.xr = none ∧ t.dq = [] ∧ t.stall = 0#32 ∧
    t.fr = some ⟨memRead s.mem v, target, next⟩ ∧ t.reg 31#5 = next ∧ SameArch s t

/-- The retirement of a PC write in the `predicted` variant (R162; decisions D30, D31): where the target is
where fetch went, only the counter and the history move; else the pipeline is flushed, the program counter
goes to the target and the predictor learns it. -/
def Obligations.PredictedRetirement : Prop :=
  ∀ (s : State) (v ipc npc : Word), s.variant = .predicted →
    s.xr = some ⟨.registers 31#5 v, ipc, npc⟩ →
    (roundDown v = npc → writebackStage s = (s.counterUp ipc).shiftHist true) ∧
    (roundDown v ≠ npc →
      let t := writebackStage s
      t.reg 31#5 = roundDown v ∧ t.fr = none ∧ t.dr = none ∧ t.dq = [] ∧
      t.jumpTarget ipc = some (roundDown v) ∧
      (∀ k, k ≠ ipc → t.jumpTarget k = s.jumpTarget k) ∧
      t.table = (s.counterUp ipc).table ∧ t.hist = ((s.counterUp ipc).shiftHist true).hist ∧
      t.xr = s.xr ∧ t.stall = s.stall ∧ SameArch s t)

/-- Every word in the fetch latch after a step of the running block is what memory then holds at its
address: a store that retires in a step is seen by the fetch of that step (R44). -/
def Obligations.StoreVisibleToFetch : Prop :=
  ∀ (s t : State) (f : FetchSlot), s.Inv → s.Piped → s.Running → step s = .next t → t.Running →
    t.fr = some f → f.blob = memRead t.mem f.ipc

/-- The register file and memory are write-first (R72, R143): an instruction that executes in the step in
which the one ahead is written back reads the new register and the new word. -/
def Obligations.WriteFirst : Prop :=
  (∀ (s : State) (r d : RegIdx) (v i i1 n1 i2 n2 : Word), s.Piped → s.Running → r.toNat ≤ 28 → d ≠ 31#5 →
    s.xr = some ⟨.registers r v, i1, n1⟩ → s.dr = some ⟨.instr (.add d r 30#5 i), i2, n2⟩ →
    ∃ t, step s = .next t ∧ t.xr = some ⟨.registers d v, i2, n2⟩) ∧
  ∀ (s : State) (r d : RegIdx) (v i i1 n1 i2 n2 : Word), s.Piped → s.Running → r.toNat ≤ 28 → d ≠ 31#5 →
    s.xr = some ⟨.memory (s.reg r) v, i1, n1⟩ → s.dr = some ⟨.instr (.ld d r 30#5 i), i2, n2⟩ →
    ∃ t, step s = .next t ∧ t.xr = some ⟨.registers d v, i2, n2⟩

/-! ### The predictor (51_predictor.md) -/

/-- The saturating counters (R186): up and down by one, stopping at 3 and at 0, in the entry of `Index(ipc)`
and in no other. -/
def Obligations.CountersSaturate : Prop :=
  ∀ (s : State) (ipc : Word) (k : BitVec 10),
    ((s.counterUp ipc).counter k).toNat =
      (if k = s.predIndex ipc then min ((s.counter k).toNat + 1) 3 else (s.counter k).toNat) ∧
    ((s.counterDown ipc).counter k).toNat =
      (if k = s.predIndex ipc then (s.counter k).toNat - 1 else (s.counter k).toNat) ∧
    { s.counterUp ipc with table := s.table } = s ∧ { s.counterDown ipc with table := s.table } = s

/-- The index and the history shift as numbers (R182, R184, R187; decisions D27, D28). -/
def Obligations.IndexAndHistory : Prop :=
  (∀ (s : State) (ipc : Word), (s.predIndex ipc).toNat = (ipc.toNat % 512) ^^^ s.hist.toNat) ∧
  ∀ (s : State) (bit : Bool),
    (s.shiftHist bit).hist.toNat = s.hist.toNat / 2 + (if bit then 512 else 0) ∧
    { s.shiftHist bit with hist := s.hist } = s

/-- Prediction (R185, R190): the recorded target where the address has one and its counter is at least 2; a
counter never written reads 2; fetch follows the answer and changes nothing of the predictor. -/
def Obligations.PredictionRule : Prop :=
  (∀ (s : State) (ipc : Word), s.predictTaken ipc = true ↔ 2 ≤ (s.counter (s.predIndex ipc)).toNat) ∧
  (∀ (s : State) (k : BitVec 10), assocFind k.toNat s.table = none → s.counter k = 2#2) ∧
  (∀ (m0 : Memory) (ipc : Word), (State.boot .predicted m0).predictTaken ipc = true) ∧
  (∀ (s : State) (ipc t : Word), s.predict ipc = some t ↔
    s.jumpTarget ipc = some t ∧ s.predictTaken ipc = true) ∧
  ∀ s : State, s.variant = .predicted → s.stall = 0#32 →
    (∀ t, s.predict (s.reg 31#5) = some t → (fetchStage s).reg 31#5 = t ∧
      (fetchStage s).fr = some ⟨memRead s.mem (s.reg 31#5), s.reg 31#5, t⟩) ∧
    (s.predict (s.reg 31#5) = none → (fetchStage s).reg 31#5 = s.reg 31#5 + 4#32 ∧
      (fetchStage s).fr = some ⟨memRead s.mem (s.reg 31#5), s.reg 31#5, s.reg 31#5 + 4#32⟩) ∧
    (fetchStage s).table = s.table ∧ (fetchStage s).hist = s.hist ∧
    (fetchStage s).jumpMap = s.jumpMap

/-- Training monotonicity (R199, at the level of the blocks): thirteen or more taken trainings of one branch
fill the history and saturate its counter at 3, and one not-taken training then takes that counter down by
exactly one; thirteen or more not-taken trainings drive its counter to 0. -/
def Obligations.TrainingSaturates : Prop :=
  ∀ (s : State) (ipc target : Word) (n : Nat), 13 ≤ n →
    let up := (fun t : State => t.trainTaken ipc target)^[n] s
    let down := (fun t : State => t.trainNotTaken ipc)^[n] s
    up.hist = 0x3FF#10 ∧ up.counter (up.predIndex ipc) = 3#2 ∧ up.jumpTarget ipc = some target ∧
    (up.trainNotTaken ipc).counter (up.predIndex ipc) = 2#2 ∧
    down.hist = 0#10 ∧ down.counter (down.predIndex ipc) = 0#2

/-- The predictor's state is changed only by the retirement of a PC write in the `predicted` variant, and its
counters never go down in the pipeline (R196, R198; decision D32). -/
def Obligations.PredictorChangedByBranches : Prop :=
  ∀ s t : State, step s = .next t →
    ((∀ v ipc npc, s.xr ≠ some ⟨.registers 31#5 v, ipc, npc⟩) ∨ s.variant ≠ .predicted →
      t.table = s.table ∧ t.hist = s.hist ∧ t.jumpMap = s.jumpMap) ∧
    (∀ k, (s.counter k).toNat ≤ (t.counter k).toNat) ∧
    ∀ ipc, s.jumpTarget ipc ≠ none → t.jumpTarget ipc ≠ none

/-! ### Reset and the invariant -/

/-- The reset values (R28, R221), for every variant and every program image: the image at its addresses, and
0 at every byte the image does not list. -/
def Obligations.ResetValues : Prop :=
  ∀ (v : Variant) (m0 : Memory),
    let s := State.boot v m0
    (∀ r : RegIdx, s.reg r = 0#32) ∧ s.mem = m0 ∧
    (∀ n, assocFind n m0 = none → readByte s.mem n = 0#8) ∧
    s.halted = false ∧ s.fault = none ∧ s.out = [] ∧
    s.fr = none ∧ s.dr = none ∧ s.xr = none ∧ s.dq = [] ∧ s.stall = 0#32 ∧
    s.hist = 0#10 ∧ (∀ k, s.counter k = 2#2) ∧ ∀ ipc, s.jumpTarget ipc = none

/-- The invariant of R29 and of the canonical forms holds after reset, whatever well-formed program image is
loaded. -/
def Obligations.ResetMeetsInvariant : Prop :=
  State.reset.Inv ∧ ∀ (v : Variant) (m0 : Memory), m0.wf = true → (State.boot v m0).Inv

/-- Every step of every variant keeps the invariant (R29 a to d, with the canonical forms of memory and of the
predictor's data, the alignment of every latched address, and R196: no counter falls below 2). -/
def Obligations.StepKeepsInvariant : Prop :=
  ∀ s t : State, s.Inv → step s = .next t → t.Inv

/-- Equivalence (R3, R86, R167, R232): for a legal program both pipelined variants stop, with the architectural
result of the serial reference. A legal program executes no macro whose first micro-op writes the program
counter (the spec's decision D41, log 9), and `R[31]` is no part of the result (decision D43, log 17). The
spec argues this and tests it; it calls it "not a proof". -/
def Obligations.VariantsAgree : Prop :=
  ∀ (m0 : Memory) (v : Variant), m0.wf = true → Legal m0 → v ≠ .serial →
    ∃ n t k u, Reaches (State.boot .serial m0) n t ∧ t.stopped = true ∧
      Reaches (State.boot v m0) k u ∧ u.stopped = true ∧ SameArch t u

end Statements
end

