-- ==== Sys2Proof/Laws/Decode.lean ====
section
/-!
SUPPORT. The codec: projections of a packed word, the opcode table, immediates.
-/

namespace Sys2Proof

section Pack
variable (op : Opcode) (d a b : RegIdx) (v : BitVec 11)

@[simp] theorem opcodeOf_packFields : opcodeOf (packFields op d a b v) = op := by
  apply BitVec.eq_of_getLsbD_eq
  intro k hk
  unfold packFields opcodeOf
  rw [BitVec.getLsbD_extractLsb', BitVec.getLsbD_append, BitVec.getLsbD_append,
    BitVec.getLsbD_append, BitVec.getLsbD_append]
  simp [hk, show ¬ 26 + k < 11 by omega, show ¬ 26 + k - 11 < 5 by omega,
    show ¬ 26 + k - 11 - 5 < 5 by omega, show ¬ 26 + k - 11 - 5 - 5 < 5 by omega,
    show 26 + k - 11 - 5 - 5 - 5 = k by omega]

@[simp] theorem dOf_packFields : dOf (packFields op d a b v) = d := by
  apply BitVec.eq_of_getLsbD_eq
  intro k hk
  unfold packFields dOf
  rw [BitVec.getLsbD_extractLsb', BitVec.getLsbD_append, BitVec.getLsbD_append,
    BitVec.getLsbD_append, BitVec.getLsbD_append]
  simp [hk, show ¬ 21 + k < 11 by omega, show ¬ 21 + k - 11 < 5 by omega,
    show ¬ 21 + k - 11 - 5 < 5 by omega, show 21 + k - 11 - 5 - 5 < 5 by omega]
  congr 1; omega

@[simp] theorem aOf_packFields : aOf (packFields op d a b v) = a := by
  apply BitVec.eq_of_getLsbD_eq
  intro k hk
  unfold packFields aOf
  rw [BitVec.getLsbD_extractLsb', BitVec.getLsbD_append, BitVec.getLsbD_append,
    BitVec.getLsbD_append, BitVec.getLsbD_append]
  simp [hk, show ¬ 16 + k < 11 by omega, show ¬ 16 + k - 11 < 5 by omega,
    show 16 + k - 11 - 5 < 5 by omega]
  congr 1; omega

@[simp] theorem bOf_packFields : bOf (packFields op d a b v) = b := by
  apply BitVec.eq_of_getLsbD_eq
  intro k hk
  unfold packFields bOf
  rw [BitVec.getLsbD_extractLsb', BitVec.getLsbD_append, BitVec.getLsbD_append,
    BitVec.getLsbD_append, BitVec.getLsbD_append]
  simp [hk, show ¬ 11 + k < 11 by omega]

@[simp] theorem immFieldOf_packFields : immFieldOf (packFields op d a b v) = v := by
  apply BitVec.eq_of_getLsbD_eq
  intro k hk
  unfold packFields immFieldOf
  rw [BitVec.getLsbD_extractLsb', BitVec.getLsbD_append]
  simp [hk]

@[simp] theorem immOf_packFields : immOf (packFields op d a b v) = sext11 v := by
  rw [immOf, immFieldOf_packFields]

/-- The five fields tile the word: packing the projections gives the word back. -/
theorem packFields_projections (w : Word) :
    packFields (opcodeOf w) (dOf w) (aOf w) (bOf w) (immFieldOf w) = w := by
  apply BitVec.eq_of_getLsbD_eq
  intro k hk
  unfold packFields opcodeOf dOf aOf bOf immFieldOf
  rw [BitVec.getLsbD_append, BitVec.getLsbD_append, BitVec.getLsbD_append, BitVec.getLsbD_append]
  simp only [BitVec.getLsbD_extractLsb']
  split_ifs with h1 h2 h3 h4
  · simp [h1]
  · simp only [h2, decide_true, Bool.true_and]; congr 1; omega
  · simp only [h3, decide_true, Bool.true_and]; congr 1; omega
  · simp only [h4, decide_true, Bool.true_and]; congr 1; omega
  · have : k - 11 - 5 - 5 - 5 < 6 := by omega
    simp only [this, decide_true, Bool.true_and]; congr 1; omega

end Pack

/-- The immediate field of a sign extension is the field itself. -/
@[simp] theorem setWidth_sext11 (v : BitVec 11) : (sext11 v).setWidth 11 = v := by
  apply BitVec.eq_of_getLsbD_eq
  intro k hk
  rw [BitVec.getLsbD_setWidth, sext11, BitVec.getLsbD_signExtend]
  simp [hk, show k < 32 by omega]

/-- A sign extension is in range. -/
theorem immInRange_sext11 (v : BitVec 11) : immInRange (sext11 v) = true := by
  have h1 := v.toInt_lt
  have h2 := v.le_toInt
  rw [immInRange, sext11, BitVec.toInt_signExtend_of_le (by omega)]
  simp only [Bool.and_eq_true, decide_eq_true_eq]
  constructor <;> omega

/-- A word in range is the sign extension of its low 11 bits. -/
theorem sext11_setWidth {i : Word} (h : immInRange i = true) : sext11 (i.setWidth 11) = i := by
  simp only [immInRange, Bool.and_eq_true, decide_eq_true_eq] at h
  apply BitVec.eq_of_toInt_eq
  rw [sext11, BitVec.toInt_signExtend_of_le (by omega), BitVec.toInt_setWidth,
    Int.bmod_def]
  have : (i.toNat : Int) = i.toInt % 2 ^ 32 := by
    rw [BitVec.toInt_eq_toNat_bmod]; simp [Int.bmod_def]; split_ifs <;> omega
  rw [this]
  split_ifs <;> omega

/-! ### The opcode table -/

/-- No two rows have the same opcode. -/
theorem opcodeTable_nodup : (opcodeTable.map Prod.fst).Nodup := by decide

/-- The table has 26 rows. -/
theorem opcodeTable_length : opcodeTable.length = 26 := by decide

/-- Every instruction is its row's constructor on its own fields. -/
theorem opcodeTable_lookup (i : Instr) :
    ∃ mk, opcodeTable.lookup i.opcode = some mk ∧
      mk i.fields.d i.fields.a i.fields.b i.fields.i = i := by
  cases i <;> exact ⟨_, rfl, rfl⟩

/-- Every row's constructor makes instructions of the row's opcode with the fields it is given. -/
theorem opcodeTable_sound : ∀ row ∈ opcodeTable, ∀ (d a b : RegIdx) (i : Word),
    (row.2 d a b i).opcode = row.1 ∧ (row.2 d a b i).fields = ⟨d, a, b, i⟩ := by
  simp [opcodeTable, Instr.opcode, Instr.fields]

/-- What a lookup finds stands in the list, under the key looked up. -/
theorem mem_of_lookup {α β : Type} [DecidableEq α] {k : α} {v : β} :
    ∀ {l : List (α × β)}, l.lookup k = some v → (k, v) ∈ l
  | (k', v') :: rest, h => by
    rw [List.lookup_cons] at h
    split at h
    case h_1 hk => simp_all
    case h_2 => exact List.mem_cons_of_mem _ (mem_of_lookup h)

/-- A row found under an opcode makes instructions of that opcode with the fields it is given. -/
theorem opcodeTable_row {op : Opcode} {mk : RegIdx → RegIdx → RegIdx → Word → Instr}
    (h : opcodeTable.lookup op = some mk) (d a b : RegIdx) (i : Word) :
    (mk d a b i).opcode = op ∧ (mk d a b i).fields = ⟨d, a, b, i⟩ :=
  opcodeTable_sound _ (mem_of_lookup h) d a b i

/-- All that `decode` can answer: an instruction of the word's opcode and fields, or the word's number and
fields when no row has that opcode. -/
theorem decode_cases (w : Word) :
    (∃ i, decode w = .instr i ∧ i.opcode = opcodeOf w ∧ i.fields = fieldsOf w) ∨
    (decode w = .unassigned (opcodeOf w) (fieldsOf w) ∧ opcodeTable.lookup (opcodeOf w) = none) := by
  unfold decode
  cases h : opcodeTable.lookup (opcodeOf w) with
  | none => exact .inr ⟨rfl, rfl⟩
  | some mk => exact .inl ⟨_, rfl, opcodeTable_row h _ _ _ _⟩

/-- The fields of a decoded word are the word's, whatever the opcode. -/
theorem decode_fields (w : Word) : (decode w).fields = fieldsOf w := by
  rcases decode_cases w with ⟨i, h, -, hf⟩ | ⟨h, -⟩ <;> simp_all [Decoded.fields]

/-- The numeric opcode of a decoded word is the word's. -/
theorem decode_icode (w : Word) : (decode w).icode = opcodeOf w := by
  rcases decode_cases w with ⟨i, h, ho, -⟩ | ⟨h, -⟩ <;> simp_all [Decoded.icode]

/-- The fields of a word can stand in an instruction word. -/
theorem fieldsOf_wf (w : Word) : (fieldsOf w).wf = true := immInRange_sext11 _

end Sys2Proof
end

