-- ==== Sys2Proof/Laws/State.lean ====
section
/-!
SUPPORT. One lemma per field per update of the state, and read-after-write of the register file.
-/

namespace Sys2Proof.Machine

@[simp] theorem pcIdx_eq : Config.pcIdx = 31#5 := rfl
@[simp] theorem zeroIdx_eq : Config.zeroIdx = 30#5 := rfl
@[simp] theorem immIdx_eq : Config.immIdx = 29#5 := rfl

/-- A general register is none of the three special indices. -/
theorem ne_special_of_le {d : RegIdx} (h : d.toNat ≤ 28) : d ≠ 29#5 ∧ d ≠ 30#5 ∧ d ≠ 31#5 := by
  refine ⟨?_, ?_, ?_⟩ <;> rintro rfl <;> revert h <;> decide

/-- An index that is none of the three special ones is a general register. -/
theorem le_of_ne_special {d : RegIdx} (h1 : d ≠ 29#5) (h2 : d ≠ 30#5) (h3 : d ≠ 31#5) :
    d.toNat ≤ 28 := by
  revert d; decide

section Regs
variable (s : State) (r q : RegIdx) (v : Word)

/-- Read after write, every index. -/
theorem reg_setReg : (s.setReg r v).reg q = if q = r then v else s.reg q := by
  simp only [State.reg, State.setReg, Vector.getElem_set, BitVec.toNat_inj, eq_comm]

@[simp] theorem reg_setReg_self : (s.setReg r v).reg r = v := by simp [reg_setReg]

@[simp] theorem reg_setReg_ne (h : q ≠ r) : (s.setReg r v).reg q = s.reg q := by simp [reg_setReg, h]

@[simp] theorem setReg_mem : (s.setReg r v).mem = s.mem := rfl
@[simp] theorem setReg_halted : (s.setReg r v).halted = s.halted := rfl
@[simp] theorem setReg_fault : (s.setReg r v).fault = s.fault := rfl
@[simp] theorem setReg_out : (s.setReg r v).out = s.out := rfl
@[simp] theorem setReg_fr : (s.setReg r v).fr = s.fr := rfl
@[simp] theorem setReg_dq : (s.setReg r v).dq = s.dq := rfl
@[simp] theorem setReg_dr : (s.setReg r v).dr = s.dr := rfl
@[simp] theorem setReg_xr : (s.setReg r v).xr = s.xr := rfl
@[simp] theorem setReg_stall : (s.setReg r v).stall = s.stall := rfl
@[simp] theorem setReg_table : (s.setReg r v).table = s.table := rfl
@[simp] theorem setReg_hist : (s.setReg r v).hist = s.hist := rfl
@[simp] theorem setReg_jumpMap : (s.setReg r v).jumpMap = s.jumpMap := rfl
@[simp] theorem setReg_variant : (s.setReg r v).variant = s.variant := rfl

theorem pc_eq : s.pc = s.reg 31#5 := rfl

theorem setPc_eq : s.setPc v = s.setReg 31#5 v := rfl

@[simp] theorem setPc_reg31 : (s.setPc v).reg 31#5 = v := reg_setReg_self s 31#5 v

@[simp] theorem setPc_reg_ne (h : q ≠ 31#5) : (s.setPc v).reg q = s.reg q :=
  reg_setReg_ne s 31#5 q v h

@[simp] theorem setPc_mem : (s.setPc v).mem = s.mem := rfl
@[simp] theorem setPc_halted : (s.setPc v).halted = s.halted := rfl
@[simp] theorem setPc_fault : (s.setPc v).fault = s.fault := rfl
@[simp] theorem setPc_out : (s.setPc v).out = s.out := rfl
@[simp] theorem setPc_fr : (s.setPc v).fr = s.fr := rfl
@[simp] theorem setPc_dq : (s.setPc v).dq = s.dq := rfl
@[simp] theorem setPc_dr : (s.setPc v).dr = s.dr := rfl
@[simp] theorem setPc_xr : (s.setPc v).xr = s.xr := rfl
@[simp] theorem setPc_stall : (s.setPc v).stall = s.stall := rfl
@[simp] theorem setPc_table : (s.setPc v).table = s.table := rfl
@[simp] theorem setPc_hist : (s.setPc v).hist = s.hist := rfl
@[simp] theorem setPc_jumpMap : (s.setPc v).jumpMap = s.jumpMap := rfl
@[simp] theorem setPc_variant : (s.setPc v).variant = s.variant := rfl

end Regs

section Store
variable (s : State) (r : RegIdx) (a v : Word)

@[simp] theorem store_mem : (s.store a v).mem = memWrite s.mem a v := rfl
@[simp] theorem store_reg : (s.store a v).reg r = s.reg r := rfl
@[simp] theorem store_halted : (s.store a v).halted = s.halted := rfl
@[simp] theorem store_fault : (s.store a v).fault = s.fault := rfl
@[simp] theorem store_out : (s.store a v).out = s.out := rfl
@[simp] theorem store_fr : (s.store a v).fr = s.fr := rfl
@[simp] theorem store_dq : (s.store a v).dq = s.dq := rfl
@[simp] theorem store_dr : (s.store a v).dr = s.dr := rfl
@[simp] theorem store_xr : (s.store a v).xr = s.xr := rfl
@[simp] theorem store_stall : (s.store a v).stall = s.stall := rfl
@[simp] theorem store_table : (s.store a v).table = s.table := rfl
@[simp] theorem store_hist : (s.store a v).hist = s.hist := rfl
@[simp] theorem store_jumpMap : (s.store a v).jumpMap = s.jumpMap := rfl
@[simp] theorem store_variant : (s.store a v).variant = s.variant := rfl

end Store

section EmitHaltRaise
variable (s : State) (r : RegIdx) (e : OutEvent) (f : FaultRecord)

@[simp] theorem emit_out : (s.emit e).out = s.out ++ [e] := rfl
@[simp] theorem emit_reg : (s.emit e).reg r = s.reg r := rfl
@[simp] theorem emit_mem : (s.emit e).mem = s.mem := rfl
@[simp] theorem emit_halted : (s.emit e).halted = s.halted := rfl
@[simp] theorem emit_fault : (s.emit e).fault = s.fault := rfl
@[simp] theorem emit_fr : (s.emit e).fr = s.fr := rfl
@[simp] theorem emit_dq : (s.emit e).dq = s.dq := rfl
@[simp] theorem emit_dr : (s.emit e).dr = s.dr := rfl
@[simp] theorem emit_xr : (s.emit e).xr = s.xr := rfl
@[simp] theorem emit_stall : (s.emit e).stall = s.stall := rfl
@[simp] theorem emit_table : (s.emit e).table = s.table := rfl
@[simp] theorem emit_hist : (s.emit e).hist = s.hist := rfl
@[simp] theorem emit_jumpMap : (s.emit e).jumpMap = s.jumpMap := rfl
@[simp] theorem emit_variant : (s.emit e).variant = s.variant := rfl

@[simp] theorem halt_halted : s.halt.halted = true := rfl
@[simp] theorem halt_reg : s.halt.reg r = s.reg r := rfl
@[simp] theorem halt_mem : s.halt.mem = s.mem := rfl
@[simp] theorem halt_fault : s.halt.fault = s.fault := rfl
@[simp] theorem halt_out : s.halt.out = s.out := rfl
@[simp] theorem halt_fr : s.halt.fr = s.fr := rfl
@[simp] theorem halt_dq : s.halt.dq = s.dq := rfl
@[simp] theorem halt_dr : s.halt.dr = s.dr := rfl
@[simp] theorem halt_xr : s.halt.xr = s.xr := rfl
@[simp] theorem halt_stall : s.halt.stall = s.stall := rfl
@[simp] theorem halt_table : s.halt.table = s.table := rfl
@[simp] theorem halt_hist : s.halt.hist = s.hist := rfl
@[simp] theorem halt_jumpMap : s.halt.jumpMap = s.jumpMap := rfl
@[simp] theorem halt_variant : s.halt.variant = s.variant := rfl

@[simp] theorem raise_fault : (s.raise f).fault = some f := rfl
@[simp] theorem raise_reg : (s.raise f).reg r = s.reg r := rfl
@[simp] theorem raise_mem : (s.raise f).mem = s.mem := rfl
@[simp] theorem raise_halted : (s.raise f).halted = s.halted := rfl
@[simp] theorem raise_out : (s.raise f).out = s.out := rfl
@[simp] theorem raise_fr : (s.raise f).fr = s.fr := rfl
@[simp] theorem raise_dq : (s.raise f).dq = s.dq := rfl
@[simp] theorem raise_dr : (s.raise f).dr = s.dr := rfl
@[simp] theorem raise_xr : (s.raise f).xr = s.xr := rfl
@[simp] theorem raise_stall : (s.raise f).stall = s.stall := rfl
@[simp] theorem raise_table : (s.raise f).table = s.table := rfl
@[simp] theorem raise_hist : (s.raise f).hist = s.hist := rfl
@[simp] theorem raise_jumpMap : (s.raise f).jumpMap = s.jumpMap := rfl
@[simp] theorem raise_variant : (s.raise f).variant = s.variant := rfl

end EmitHaltRaise

section Flush
variable (s : State) (r : RegIdx)

@[simp] theorem flush_fr : s.flush.fr = none := rfl
@[simp] theorem flush_dq : s.flush.dq = [] := rfl
@[simp] theorem flush_dr : s.flush.dr = none := rfl
@[simp] theorem flush_reg : s.flush.reg r = s.reg r := rfl
@[simp] theorem flush_mem : s.flush.mem = s.mem := rfl
@[simp] theorem flush_halted : s.flush.halted = s.halted := rfl
@[simp] theorem flush_fault : s.flush.fault = s.fault := rfl
@[simp] theorem flush_out : s.flush.out = s.out := rfl
@[simp] theorem flush_xr : s.flush.xr = s.xr := rfl
@[simp] theorem flush_stall : s.flush.stall = s.stall := rfl
@[simp] theorem flush_table : s.flush.table = s.table := rfl
@[simp] theorem flush_hist : s.flush.hist = s.hist := rfl
@[simp] theorem flush_jumpMap : s.flush.jumpMap = s.jumpMap := rfl
@[simp] theorem flush_variant : s.flush.variant = s.variant := rfl

end Flush

section Boot
variable (v : Variant) (m0 : Memory)

@[simp] theorem boot_mem : (State.boot v m0).mem = m0 := rfl
@[simp] theorem boot_halted : (State.boot v m0).halted = false := rfl
@[simp] theorem boot_fault : (State.boot v m0).fault = none := rfl
@[simp] theorem boot_out : (State.boot v m0).out = [] := rfl
@[simp] theorem boot_fr : (State.boot v m0).fr = none := rfl
@[simp] theorem boot_dq : (State.boot v m0).dq = [] := rfl
@[simp] theorem boot_dr : (State.boot v m0).dr = none := rfl
@[simp] theorem boot_xr : (State.boot v m0).xr = none := rfl
@[simp] theorem boot_stall : (State.boot v m0).stall = 0#32 := rfl
@[simp] theorem boot_table : (State.boot v m0).table = [] := rfl
@[simp] theorem boot_hist : (State.boot v m0).hist = 0#10 := rfl
@[simp] theorem boot_jumpMap : (State.boot v m0).jumpMap = [] := rfl
@[simp] theorem boot_variant : (State.boot v m0).variant = v := rfl

end Boot

end Sys2Proof.Machine
end

