-- ==== Sys2Proof/Laws/Memory.lean ====
section
/-!
SUPPORT. Sparse data and memory: read after write, and the canonical form is kept by every operation.
-/

namespace Sys2Proof.Machine

section Assoc
variable {α : Type}

/-- Reading a key after setting one: the new value at that key, any other key as before. -/
theorem assocFind_assocInsert (k k' : Nat) (v : α) (m : Assoc α) :
    assocFind k (assocInsert k' v m) = if k = k' then some v else assocFind k m := by
  induction m with
  | nil => simp [assocInsert, assocFind]
  | cons e rest ih =>
    obtain ⟨q, w⟩ := e
    simp only [assocInsert]
    split_ifs with h1 h2 h3 h4 <;> simp_all [assocFind]

/-- Reading a key after unlisting one. -/
theorem assocFind_assocErase (k k' : Nat) (m : Assoc α) :
    assocFind k (assocErase k' m) = if k = k' then none else assocFind k m := by
  induction m with
  | nil => simp [assocErase, assocFind]
  | cons e rest ih =>
    obtain ⟨q, w⟩ := e
    simp only [assocErase]
    split_ifs with h1 h2 <;> simp_all [assocFind]

/-- Reading a key of a map with a default after putting a value. -/
theorem getD_assocFind_assocPut [DecidableEq α] (dflt : α) (k k' : Nat) (v : α) (m : Assoc α) :
    (assocFind k (assocPut dflt k' v m)).getD dflt =
      if k = k' then v else (assocFind k m).getD dflt := by
  unfold assocPut
  split_ifs with h1 h2 h2 <;> simp_all [assocFind_assocInsert, assocFind_assocErase]

theorem assocSortedFrom_mono {lo hi : Nat} (h : lo ≤ hi) {m : Assoc α}
    (hm : assocSortedFrom hi m = true) : assocSortedFrom lo m = true := by
  cases m with
  | nil => rfl
  | cons e rest =>
    simp only [assocSortedFrom, Bool.and_eq_true, decide_eq_true_eq] at hm ⊢
    exact ⟨h.trans hm.1, hm.2⟩

/-- Setting a key keeps the keys rising. -/
theorem assocSortedFrom_assocInsert {lo k : Nat} (hk : lo ≤ k) (v : α) {m : Assoc α}
    (hm : assocSortedFrom lo m = true) : assocSortedFrom lo (assocInsert k v m) = true := by
  induction m generalizing lo with
  | nil => simpa [assocInsert, assocSortedFrom] using hk
  | cons e rest ih =>
    obtain ⟨q, w⟩ := e
    simp only [assocSortedFrom, Bool.and_eq_true, decide_eq_true_eq] at hm
    simp only [assocInsert]
    split_ifs with h1 h2
    · simp only [assocSortedFrom, Bool.and_eq_true, decide_eq_true_eq]
      exact ⟨hk, h1, hm.2⟩
    · subst h2
      simp only [assocSortedFrom, Bool.and_eq_true, decide_eq_true_eq]
      exact ⟨hk, hm.2⟩
    · simp only [assocSortedFrom, Bool.and_eq_true, decide_eq_true_eq]
      exact ⟨hm.1, ih (by omega) hm.2⟩

/-- Unlisting a key keeps the keys rising. -/
theorem assocSortedFrom_assocErase {lo : Nat} (k : Nat) {m : Assoc α}
    (hm : assocSortedFrom lo m = true) : assocSortedFrom lo (assocErase k m) = true := by
  induction m generalizing lo with
  | nil => rfl
  | cons e rest ih =>
    obtain ⟨q, w⟩ := e
    simp only [assocSortedFrom, Bool.and_eq_true, decide_eq_true_eq] at hm
    simp only [assocErase]
    split_ifs with h1
    · exact assocSortedFrom_mono (by omega) (ih hm.2)
    · simp only [assocSortedFrom, Bool.and_eq_true, decide_eq_true_eq]
      exact ⟨hm.1, ih hm.2⟩

theorem mem_assocInsert {k : Nat} {v : α} {m : Assoc α} {e : Nat × α}
    (h : e ∈ assocInsert k v m) : e = (k, v) ∨ e ∈ m := by
  induction m with
  | nil => simpa [assocInsert] using h
  | cons x rest ih =>
    obtain ⟨q, w⟩ := x
    simp only [assocInsert] at h
    split_ifs at h with h1 h2
    · simpa using h
    · rcases List.mem_cons.1 h with h | h
      · exact .inl h
      · exact .inr (List.mem_cons_of_mem _ h)
    · rcases List.mem_cons.1 h with h | h
      · exact .inr (by simp [h])
      · exact (ih h).imp id (List.mem_cons_of_mem _)

theorem mem_assocErase {k : Nat} {m : Assoc α} {e : Nat × α} (h : e ∈ assocErase k m) : e ∈ m := by
  induction m with
  | nil => simp [assocErase] at h
  | cons x rest ih =>
    obtain ⟨q, w⟩ := x
    simp only [assocErase] at h
    split_ifs at h with h1
    · exact List.mem_cons_of_mem _ (ih h)
    · rcases List.mem_cons.1 h with h | h
      · simp [h]
      · exact List.mem_cons_of_mem _ (ih h)

theorem assocFind_mem {k : Nat} {v : α} {m : Assoc α} (h : assocFind k m = some v) : (k, v) ∈ m := by
  induction m with
  | nil => simp [assocFind] at h
  | cons x rest ih =>
    obtain ⟨q, w⟩ := x
    simp only [assocFind] at h
    split_ifs at h with h1
    · simp_all
    · exact List.mem_cons_of_mem _ (ih h)

/-- Putting a value keeps the keys rising. -/
theorem assocSortedFrom_assocPut [DecidableEq α] (dflt : α) (k : Nat) (v : α) {m : Assoc α}
    (hm : assocSortedFrom 0 m = true) : assocSortedFrom 0 (assocPut dflt k v m) = true := by
  unfold assocPut
  split_ifs
  · exact assocSortedFrom_assocErase k hm
  · exact assocSortedFrom_assocInsert (Nat.zero_le k) v hm

/-- An entry after putting a value: an old entry, or the new one, which is not the default. -/
theorem mem_assocPut [DecidableEq α] {dflt : α} {k : Nat} {v : α} {m : Assoc α} {e : Nat × α}
    (h : e ∈ assocPut dflt k v m) : (e = (k, v) ∧ v ≠ dflt) ∨ e ∈ m := by
  unfold assocPut at h
  split_ifs at h with h1
  · exact .inr (mem_assocErase h)
  · exact (mem_assocInsert h).imp (fun h => ⟨h, h1⟩) id

end Assoc

/-! ### Addresses -/

/-- A normalised address is the address rounded down to a multiple of 4. -/
theorem norm_toNat (v : Word) : (norm v).toNat = v.toNat / 4 * 4 := by
  have h : norm v = BitVec.setWidth 32 ((v.extractLsb' 2 30) ++ (0#2)) := by
    ext k hk
    simp only [norm, BitVec.getElem_and, BitVec.getElem_setWidth, BitVec.getLsbD_append,
      BitVec.getLsbD_extractLsb']
    interval_cases k <;> simp
  rw [h]
  simp only [BitVec.toNat_setWidth, BitVec.toNat_append, BitVec.extractLsb'_toNat,
    BitVec.toNat_ofNat, Nat.shiftRight_eq_div_pow]
  have := v.isLt
  rw [Nat.shiftLeft_eq, Nat.zero_mod, Nat.or_zero]
  omega

theorem norm_aligned (v : Word) : Aligned (norm v) := by
  unfold Aligned; rw [norm_toNat]; omega

theorem norm_of_aligned {v : Word} (h : Aligned v) : norm v = v := by
  apply BitVec.eq_of_toNat_eq; rw [norm_toNat]; unfold Aligned at h; omega

@[simp] theorem norm_idem (v : Word) : norm (norm v) = norm v := norm_of_aligned (norm_aligned v)

/-- The next address of an aligned address is aligned, also across the wrap to 0. -/
theorem aligned_add_four {v : Word} (h : Aligned v) : Aligned (v + 4#32) := by
  unfold Aligned at *
  have : (v + 4#32).toNat = (v.toNat + 4) % 2 ^ 32 := by simp [BitVec.toNat_add]
  rw [this]; omega

/-! ### Bytes -/

/-- Read after write of a byte. -/
theorem readByte_writeByte (m : Memory) (n k : Nat) (v : Byte) :
    readByte (writeByte m n v) k = if k = n then v else readByte m k :=
  getD_assocFind_assocPut ..

/-- A byte after a word store: one of the four stored bytes, or as before. -/
theorem readByte_memWrite (m : Memory) (a v : Word) (k : Nat) :
    readByte (memWrite m a v) k =
      if k = (norm a).toNat + 3 then byteOf v 3
      else if k = (norm a).toNat + 2 then byteOf v 2
      else if k = (norm a).toNat + 1 then byteOf v 1
      else if k = (norm a).toNat then byteOf v 0
      else readByte m k := by
  simp only [memWrite, readByte_writeByte]

/-- Bytes outside the stored word read as before. -/
theorem readByte_memWrite_outside (m : Memory) (a v : Word) (k : Nat)
    (h : k < (norm a).toNat ∨ (norm a).toNat + 4 ≤ k) :
    readByte (memWrite m a v) k = readByte m k := by
  rw [readByte_memWrite]
  split_ifs <;> first | omega | rfl

theorem wordOfBytes_byteOf (v : Word) :
    wordOfBytes (byteOf v 0) (byteOf v 1) (byteOf v 2) (byteOf v 3) = v := by
  apply BitVec.eq_of_getLsbD_eq
  intro k hk
  unfold wordOfBytes byteOf
  rw [BitVec.getLsbD_append, BitVec.getLsbD_append, BitVec.getLsbD_append]
  simp only [BitVec.getLsbD_extractLsb']
  split_ifs with h1 h2 h3
  · simp [h1]
  · simp only [h2, decide_true, Bool.true_and]; congr 1; omega
  · simp only [h3, decide_true, Bool.true_and]; congr 1; omega
  · have : k - 8 - 8 - 8 < 8 := by omega
    simp only [this, decide_true, Bool.true_and]; congr 1; omega


/-- Rounding down as a number and `norm` agree. -/
theorem roundDown_eq_norm (v : Word) : roundDown v = norm v := by
  apply BitVec.eq_of_toNat_eq
  have := v.isLt
  rw [norm_toNat, BitVec.toNat_ofNat]
  omega

/-- `norm` rounds toward minus infinity in the signed reading. -/
theorem norm_toInt (v : Word) : (norm v).toInt = v.toInt / 4 * 4 := by
  have h := norm_toNat v
  have := v.isLt
  rw [BitVec.toInt_eq_toNat_cond, BitVec.toInt_eq_toNat_cond, h]
  split_ifs <;> omega

@[simp] theorem norm_effAddr (x y : Word) : norm (effAddr x y) = effAddr x y := norm_idem _

/-- A read after a write: the written word in the same cell, what was there in any other. -/
theorem memRead_memWrite (m : Memory) (addr v other : Word) :
    memRead (memWrite m addr v) other = if norm other = norm addr then v else memRead m other := by
  have h1 := norm_aligned addr
  have h2 := norm_aligned other
  unfold Aligned at h1 h2
  split_ifs with h
  · simp only [memRead, readByte_memWrite, h]
    simp
    exact wordOfBytes_byteOf v
  · have h' : (norm other).toNat ≠ (norm addr).toNat := fun e => h (BitVec.eq_of_toNat_eq e)
    simp only [memRead]
    congr 1 <;> rw [readByte_memWrite_outside] <;> omega

/-- A cell of which no byte is listed reads 0. -/
theorem memRead_unset (m : Memory) (v : Word)
    (h : ∀ k, k < 4 → assocFind ((norm v).toNat + k) m = none) : memRead m v = 0#32 := by
  have h0 : assocFind (norm v).toNat m = none := h 0 (by decide)
  have h1 := h 1 (by decide)
  have h2 := h 2 (by decide)
  have h3 := h 3 (by decide)
  simp only [memRead, readByte, h0, h1, h2, h3]
  rfl

/-! ### The canonical form -/

theorem memory_wf_iff (m : Memory) : Memory.wf m = true ↔
    assocSortedFrom 0 m = true ∧ ∀ c ∈ m, c.1 < 2 ^ 32 ∧ c.2 ≠ Config.unsetByte := by
  simp [Memory.wf]

/-- Storing a byte below 2^32 keeps the canonical form. -/
theorem writeByte_wf {m : Memory} {n : Nat} (hn : n < 2 ^ 32) (v : Byte) (hm : Memory.wf m = true) :
    Memory.wf (writeByte m n v) = true := by
  rw [memory_wf_iff] at hm ⊢
  refine ⟨assocSortedFrom_assocPut _ _ _ hm.1, fun c hc => ?_⟩
  rcases mem_assocPut hc with ⟨rfl, h⟩ | h
  · exact ⟨hn, h⟩
  · exact hm.2 c h

/-- Storing a word keeps the canonical form. -/
theorem memWrite_wf {m : Memory} (a v : Word) (hm : Memory.wf m = true) :
    Memory.wf (memWrite m a v) = true := by
  have h := norm_aligned a
  have h' := (norm a).isLt
  unfold Aligned at h
  unfold memWrite
  exact writeByte_wf (by omega) _ (writeByte_wf (by omega) _ (writeByte_wf (by omega) _
    (writeByte_wf (by omega) _ hm)))

theorem reset_memory_wf : Memory.wf State.reset.mem = true := rfl

end Sys2Proof.Machine
end

