-- ==== Sys2Proof/Laws/Ops.lean ====
section
/-!
SUPPORT. The operand resolver, the writeback effects and the serial meaning: one lemma each for all that the
shared operation can do.
-/

namespace Sys2Proof.Machine

/-! ### Operand read -/

section Rd
variable (s : State) (idx : RegIdx) (seq imm v : Word)

@[simp] theorem rd_pcIdx : rd s 31#5 seq imm = seq := rfl
@[simp] theorem rd_zeroIdx : rd s 30#5 seq imm = 0#32 := rfl
@[simp] theorem rd_immIdx : rd s 29#5 seq imm = imm := rfl

/-- An index that names storage reads storage. -/
theorem rd_general (h : idx.toNat ≤ 28) : rd s idx seq imm = s.reg idx := by
  obtain ⟨h1, h2, h3⟩ := ne_special_of_le h
  simp [rd, h1, h2, h3]

/-- No operand read looks at `R[31]`. -/
@[simp] theorem rd_setPc : rd (s.setPc v) idx seq imm = rd s idx seq imm := by
  unfold rd
  split_ifs with h1 <;> first | rfl | exact setPc_reg_ne _ _ _ h1

/-- Operand reads depend on the register file alone. -/
theorem rd_congr {s t : State} (h : ∀ r : RegIdx, r ≠ 31#5 → t.reg r = s.reg r) :
    rd t idx seq imm = rd s idx seq imm := by
  unfold rd
  split_ifs with h1 <;> first | rfl | exact h _ h1

theorem operand_eq (i : Word) : s.operand idx i = rd s idx (seqOf s.pc) i := rfl

end Rd

/-! ### Writeback to an index -/

section WriteIndex
variable (s : State) (r q : RegIdx) (v : Word)

/-- The register file after a writeback to an index. -/
theorem writeIndex_reg : (s.writeIndex r v).reg q =
    if q = r ∧ r ≠ 29#5 ∧ r ≠ 30#5 then (if r = 31#5 then norm v else v) else s.reg q := by
  unfold State.writeIndex
  simp only [zeroIdx_eq, immIdx_eq, pcIdx_eq, setPc_eq]
  split_ifs <;> simp_all

@[simp] theorem writeIndex_mem : (s.writeIndex r v).mem = s.mem := by
  unfold State.writeIndex; split_ifs <;> rfl
@[simp] theorem writeIndex_halted : (s.writeIndex r v).halted = s.halted := by
  unfold State.writeIndex; split_ifs <;> rfl
@[simp] theorem writeIndex_fault : (s.writeIndex r v).fault = s.fault := by
  unfold State.writeIndex; split_ifs <;> rfl
@[simp] theorem writeIndex_fr : (s.writeIndex r v).fr = s.fr := by
  unfold State.writeIndex; split_ifs <;> rfl
@[simp] theorem writeIndex_dq : (s.writeIndex r v).dq = s.dq := by
  unfold State.writeIndex; split_ifs <;> rfl
@[simp] theorem writeIndex_dr : (s.writeIndex r v).dr = s.dr := by
  unfold State.writeIndex; split_ifs <;> rfl
@[simp] theorem writeIndex_xr : (s.writeIndex r v).xr = s.xr := by
  unfold State.writeIndex; split_ifs <;> rfl
@[simp] theorem writeIndex_stall : (s.writeIndex r v).stall = s.stall := by
  unfold State.writeIndex; split_ifs <;> rfl
@[simp] theorem writeIndex_table : (s.writeIndex r v).table = s.table := by
  unfold State.writeIndex; split_ifs <;> rfl
@[simp] theorem writeIndex_hist : (s.writeIndex r v).hist = s.hist := by
  unfold State.writeIndex; split_ifs <;> rfl
@[simp] theorem writeIndex_jumpMap : (s.writeIndex r v).jumpMap = s.jumpMap := by
  unfold State.writeIndex; split_ifs <;> rfl
@[simp] theorem writeIndex_variant : (s.writeIndex r v).variant = s.variant := by
  unfold State.writeIndex; split_ifs <;> rfl

/-- The output trace after a writeback to an index. -/
theorem writeIndex_out : (s.writeIndex r v).out = s.out ++ eventsOf r v := by
  unfold State.writeIndex eventsOf
  simp only [zeroIdx_eq, immIdx_eq, pcIdx_eq]
  split_ifs <;> simp_all [byteOf]

end WriteIndex

/-! ### The serial meaning -/

/-- An operation that gives a command is written back. -/
theorem retireOps_command {ipc : Word} {op : ExecOp} {s : State} {c : Cmd}
    (h : runOp op ipc s = .command c) (rest : List ExecOp) :
    retireOps ipc (op :: rest) s = retireOps ipc rest (s.writeback c) := by
  simp only [retireOps, h]

/-- An operation that faults latches the record and ends the instruction. -/
theorem retireOps_raise {ipc : Word} {op : ExecOp} {s : State} {f : FaultRecord}
    (h : runOp op ipc s = .raise f) (rest : List ExecOp) :
    retireOps ipc (op :: rest) s = s.raise f := by
  simp only [retireOps, h]

@[simp] theorem retireOps_nil (ipc : Word) (s : State) : retireOps ipc [] s = s := rfl

/-- `Exec` of an operation that gives a register command: the value is normalised for a PC write. -/
theorem runOp_registers {op : ExecOp} {ipc : Word} {s : State} {d : RegIdx} {v : Word}
    (h : op ipc s = .command (.registers d v)) :
    runOp op ipc s = .command (.registers d (if d = 31#5 then norm v else v)) := by
  simp [runOp, h, ExecResult.normalized]

theorem runOp_memory {op : ExecOp} {ipc : Word} {s : State} {a v : Word}
    (h : op ipc s = .command (.memory a v)) : runOp op ipc s = .command (.memory a v) := by
  simp [runOp, h, ExecResult.normalized]

theorem runOp_halt {op : ExecOp} {ipc : Word} {s : State}
    (h : op ipc s = .command .halt) : runOp op ipc s = .command .halt := by
  simp [runOp, h, ExecResult.normalized]

theorem runOp_raise {op : ExecOp} {ipc : Word} {s : State} {f : FaultRecord}
    (h : op ipc s = .raise f) : runOp op ipc s = .raise f := by
  simp [runOp, h, ExecResult.normalized]

/-- A fault of `Exec` is the opcode rule's own: the normalisation raises none. -/
theorem raise_of_runOp_raise {op : ExecOp} {ipc : Word} {s : State} {f : FaultRecord}
    (h : runOp op ipc s = .raise f) : op ipc s = .raise f := by
  unfold runOp at h
  cases e : op ipc s with
  | raise g => rw [e] at h; simpa [ExecResult.normalized] using h
  | command c => rw [e] at h; cases c <;> simp [ExecResult.normalized] at h

/-- What a fault of `div` or `mod` says: the second operand is 0, and the record is the arithmetic trap's. -/
theorem divOp_raise {c : Opcode} {d a b : RegIdx} {i ipc : Word} {g : Word → Word → Word} {s : State}
    {f : FaultRecord} (h : divOp c d a b i g ipc s = .raise f) :
    rd s b (ipc + 4#32) i = 0#32 ∧ f = ⟨.arithmeticTrap, c, ipc⟩ := by
  unfold divOp at h
  split at h
  case isTrue h0 => exact ⟨h0, (ExecResult.raise.inj h).symm⟩
  case isFalse => simp [aluOp] at h

/-- All that an instruction of one operation does when the operation gives a register command. -/
theorem serialExec_delivers {op : ExecOp} {s : State} {d : RegIdx} {v : Word}
    (h : op s.pc (s.setPc (s.pc + 4#32)) = .command (.registers d v)) :
    Delivers s (serialExec [op] s) d v := by
  have he : serialExec [op] s =
      (s.setPc (s.pc + 4#32)).writeIndex d (if d = 31#5 then norm v else v) := by
    rw [serialExec, retireOps_command (runOp_registers h)]; rfl
  rw [he]
  refine ⟨fun hd => ?_, fun r hr hrd => ?_, fun hd => ?_, ?_, fun n => ?_, ?_, ?_, ?_, ?_⟩
  · obtain ⟨h1, h2, h3⟩ := ne_special_of_le hd
    simp [writeIndex_reg, h1, h2, h3]
  · simp [writeIndex_reg, hrd, hr]
  · have h3 : d ≠ 31#5 := by rcases hd with rfl | rfl <;> decide
    rcases hd with rfl | rfl <;> simp [writeIndex_reg]
  · by_cases hd : d = 31#5
    · subst hd
      apply BitVec.eq_of_toNat_eq
      have := v.isLt
      simp [writeIndex_reg, norm_toNat]
      omega
    · simp [writeIndex_reg, hd, Ne.symm hd, pc_eq]
  · simp
  · by_cases hd : d = 31#5
    · subst hd; simp [writeIndex_out, eventsOf]
    · simp [writeIndex_out, hd]
  · simp
  · simp
  · constructor <;> simp

/-- All that an instruction of one operation does when the operation gives a store. -/
theorem serialExec_store {op : ExecOp} {s : State} {a v : Word}
    (h : op s.pc (s.setPc (s.pc + 4#32)) = .command (.memory a v)) :
    serialExec [op] s = (s.setPc (s.pc + 4#32)).store a v := by
  rw [serialExec, retireOps_command (runOp_memory h)]; rfl

/-- All that an instruction of one operation does when the operation gives a halt. -/
theorem serialExec_halt {op : ExecOp} {s : State}
    (h : op s.pc (s.setPc (s.pc + 4#32)) = .command .halt) :
    serialExec [op] s = (s.setPc (s.pc + 4#32)).halt := by
  rw [serialExec, retireOps_command (runOp_halt h)]; rfl

/-- All that an instruction of one operation does when the operation faults. -/
theorem serialExec_raise {op : ExecOp} {s : State} {f : FaultRecord}
    (h : op s.pc (s.setPc (s.pc + 4#32)) = .raise f) :
    serialExec [op] s = (s.setPc (s.pc + 4#32)).raise f := by
  rw [serialExec, retireOps_raise (runOp_raise h)]

/-- All that an instruction of two operations that both give a command does. -/
theorem serialExec_pair {op1 op2 : ExecOp} {s : State} {c1 c2 : Cmd}
    (h1 : runOp op1 s.pc (s.setPc (s.pc + 4#32)) = .command c1)
    (h2 : runOp op2 s.pc ((s.setPc (s.pc + 4#32)).writeback c1) = .command c2) :
    serialExec [op1, op2] s = ((s.setPc (s.pc + 4#32)).writeback c1).writeback c2 := by
  rw [serialExec, retireOps_command h1, retireOps_command h2, retireOps_nil]

/-- All that an instruction of the common ALU form does (R115). -/
theorem serialExec_aluOp (s : State) (d a b : RegIdx) (i : Word) (f : Word → Word → Word) :
    Delivers s (serialExec [aluOp d a b i f] s) d (f (s.operand a i) (s.operand b i)) := by
  apply serialExec_delivers
  simp [aluOp, operand_eq]

/-- All that a conditional does (R104). -/
theorem serialExec_condOp (s : State) (a b : RegIdx) (i : Word) (f : Word → Word → Bool) :
    Delivers s (serialExec [condOp a b i f] s) 31#5
      (if f (s.operand a i) (s.operand b i) then s.reg 31#5 + 4#32 else s.reg 31#5 + 4#32 + 4#32) := by
  apply serialExec_delivers
  simp only [condOp, rd_setPc, operand_eq]
  rfl

/-- All that a division does: a trap on a zero divisor, else the common ALU form (R113, R114). -/
theorem serialExec_divOp (s : State) (icode : Opcode) (d a b : RegIdx) (i : Word)
    (f : Word → Word → Word) :
    (s.operand b i = 0#32 ∧ serialExec [divOp icode d a b i f] s =
      (s.setPc (s.pc + 4#32)).raise ⟨.arithmeticTrap, icode, s.pc⟩) ∨
    (s.operand b i ≠ 0#32 ∧ Delivers s (serialExec [divOp icode d a b i f] s) d
      (f (s.operand a i) (s.operand b i))) := by
  by_cases h : s.operand b i = 0#32
  · refine .inl ⟨h, serialExec_raise ?_⟩
    rw [operand_eq] at h
    simp [divOp, h]
  · refine .inr ⟨h, serialExec_delivers ?_⟩
    rw [operand_eq] at h
    simp [divOp, aluOp, h, operand_eq]

/-- An index that is none of the three special ones is ordinary. -/
theorem general_of_ne {r : RegIdx} (h29 : r ≠ 29#5) (h30 : r ≠ 30#5) (h31 : r ≠ 31#5) :
    r.toNat ≤ 28 := by
  revert h29 h30 h31
  revert r
  decide

/-- Writing an ordinary register stores the value. -/
theorem writeIndex_general {s : State} {r : RegIdx} (h : r.toNat ≤ 28) (v : Word) :
    s.writeIndex r v = s.setReg r v := by
  obtain ⟨h1, h2, h3⟩ := ne_special_of_le h
  simp [State.writeIndex, h1, h2, h3]

/-- The fetch increment followed by a fault changes only the program counter and the fault record. -/
theorem onlyAdvances_raise (s : State) (f : FaultRecord) :
    OnlyAdvances s ((s.setPc (s.pc + 4#32)).raise f) := by
  refine ⟨fun r hr => ?_, ?_, fun n => rfl, rfl, rfl, ?_⟩
  · simp [hr]
  · rw [raise_reg, setPc_reg31, pc_eq]
  · constructor <;> rfl

end Sys2Proof.Machine
end

