-- ==== Sys2Proof/Laws/PerInstr.lean ====
section
/-!
SUPPORT. Statements for all instructions, one lemma for each constructor.
-/

namespace Sys2Proof.Laws

/-- The word the encoder writes carries the instruction's opcode and its four fields where the spec puts them
(30_encoding.md R51, R53). -/
def FieldsOfEncode.Statement (i : Instr) : Prop :=
  i.wf = true → opcodeOf (encode i) = i.opcode ∧ fieldsOf (encode i) = i.fields

/-- The family's lemma for any instruction, from the projections of a packed word. -/
theorem fieldsOfEncode_all (i : Instr) : FieldsOfEncode.Statement i := by
  intro h
  have hi : sext11 (i.fields.i.setWidth 11) = i.fields.i := sext11_setWidth h
  refine ⟨by simp [encode], ?_⟩
  simp [encode, fieldsOf, hi]

theorem FieldsOfEncode.hlt (d a b : RegIdx) (i : Word) : FieldsOfEncode.Statement (.hlt d a b i) :=
  fieldsOfEncode_all _

theorem FieldsOfEncode.ld (d a b : RegIdx) (i : Word) : FieldsOfEncode.Statement (.ld d a b i) :=
  fieldsOfEncode_all _

theorem FieldsOfEncode.st (d a b : RegIdx) (i : Word) : FieldsOfEncode.Statement (.st d a b i) :=
  fieldsOfEncode_all _

theorem FieldsOfEncode.push (d a b : RegIdx) (i : Word) : FieldsOfEncode.Statement (.push d a b i) :=
  fieldsOfEncode_all _

theorem FieldsOfEncode.pop (d a b : RegIdx) (i : Word) : FieldsOfEncode.Statement (.pop d a b i) :=
  fieldsOfEncode_all _

theorem FieldsOfEncode.pushall (d a b : RegIdx) (i : Word) : FieldsOfEncode.Statement (.pushall d a b i) :=
  fieldsOfEncode_all _

theorem FieldsOfEncode.popall (d a b : RegIdx) (i : Word) : FieldsOfEncode.Statement (.popall d a b i) :=
  fieldsOfEncode_all _

theorem FieldsOfEncode.iflt (d a b : RegIdx) (i : Word) : FieldsOfEncode.Statement (.iflt d a b i) :=
  fieldsOfEncode_all _

theorem FieldsOfEncode.ifle (d a b : RegIdx) (i : Word) : FieldsOfEncode.Statement (.ifle d a b i) :=
  fieldsOfEncode_all _

theorem FieldsOfEncode.ifeq (d a b : RegIdx) (i : Word) : FieldsOfEncode.Statement (.ifeq d a b i) :=
  fieldsOfEncode_all _

theorem FieldsOfEncode.ifne (d a b : RegIdx) (i : Word) : FieldsOfEncode.Statement (.ifne d a b i) :=
  fieldsOfEncode_all _

theorem FieldsOfEncode.call (d a b : RegIdx) (i : Word) : FieldsOfEncode.Statement (.call d a b i) :=
  fieldsOfEncode_all _

theorem FieldsOfEncode.intr (d a b : RegIdx) (i : Word) : FieldsOfEncode.Statement (.intr d a b i) :=
  fieldsOfEncode_all _

theorem FieldsOfEncode.add (d a b : RegIdx) (i : Word) : FieldsOfEncode.Statement (.add d a b i) :=
  fieldsOfEncode_all _

theorem FieldsOfEncode.sub (d a b : RegIdx) (i : Word) : FieldsOfEncode.Statement (.sub d a b i) :=
  fieldsOfEncode_all _

theorem FieldsOfEncode.div (d a b : RegIdx) (i : Word) : FieldsOfEncode.Statement (.div d a b i) :=
  fieldsOfEncode_all _

theorem FieldsOfEncode.mod (d a b : RegIdx) (i : Word) : FieldsOfEncode.Statement (.mod d a b i) :=
  fieldsOfEncode_all _

theorem FieldsOfEncode.mul (d a b : RegIdx) (i : Word) : FieldsOfEncode.Statement (.mul d a b i) :=
  fieldsOfEncode_all _

theorem FieldsOfEncode.and (d a b : RegIdx) (i : Word) : FieldsOfEncode.Statement (.and d a b i) :=
  fieldsOfEncode_all _

theorem FieldsOfEncode.or (d a b : RegIdx) (i : Word) : FieldsOfEncode.Statement (.or d a b i) :=
  fieldsOfEncode_all _

theorem FieldsOfEncode.nand (d a b : RegIdx) (i : Word) : FieldsOfEncode.Statement (.nand d a b i) :=
  fieldsOfEncode_all _

theorem FieldsOfEncode.xor (d a b : RegIdx) (i : Word) : FieldsOfEncode.Statement (.xor d a b i) :=
  fieldsOfEncode_all _

theorem FieldsOfEncode.sl (d a b : RegIdx) (i : Word) : FieldsOfEncode.Statement (.sl d a b i) :=
  fieldsOfEncode_all _

theorem FieldsOfEncode.sr (d a b : RegIdx) (i : Word) : FieldsOfEncode.Statement (.sr d a b i) :=
  fieldsOfEncode_all _

theorem FieldsOfEncode.sal (d a b : RegIdx) (i : Word) : FieldsOfEncode.Statement (.sal d a b i) :=
  fieldsOfEncode_all _

theorem FieldsOfEncode.sar (d a b : RegIdx) (i : Word) : FieldsOfEncode.Statement (.sar d a b i) :=
  fieldsOfEncode_all _

end Sys2Proof.Laws
end

