-- ==== Sys2Proof/Laws/Pipeline.lean ====
section
/-!
SUPPORT. The predictor's updates and the stage functions: what each leaves unchanged, and one inversion lemma
per stage.
-/

namespace Sys2Proof.Machine

/-! ### Predictor updates -/

section Predictor
variable (s : State) (k : BitVec 10) (c : BitVec 2) (bit : Bool) (ipc t : Word) (r : RegIdx)

@[simp] theorem setCounter_reg : (s.setCounter k c).reg r = s.reg r := rfl
@[simp] theorem setCounter_mem : (s.setCounter k c).mem = s.mem := rfl
@[simp] theorem setCounter_halted : (s.setCounter k c).halted = s.halted := rfl
@[simp] theorem setCounter_fault : (s.setCounter k c).fault = s.fault := rfl
@[simp] theorem setCounter_out : (s.setCounter k c).out = s.out := rfl
@[simp] theorem setCounter_fr : (s.setCounter k c).fr = s.fr := rfl
@[simp] theorem setCounter_dq : (s.setCounter k c).dq = s.dq := rfl
@[simp] theorem setCounter_dr : (s.setCounter k c).dr = s.dr := rfl
@[simp] theorem setCounter_xr : (s.setCounter k c).xr = s.xr := rfl
@[simp] theorem setCounter_stall : (s.setCounter k c).stall = s.stall := rfl
@[simp] theorem setCounter_hist : (s.setCounter k c).hist = s.hist := rfl
@[simp] theorem setCounter_jumpMap : (s.setCounter k c).jumpMap = s.jumpMap := rfl
@[simp] theorem setCounter_variant : (s.setCounter k c).variant = s.variant := rfl

@[simp] theorem shiftHist_reg : (s.shiftHist bit).reg r = s.reg r := rfl
@[simp] theorem shiftHist_mem : (s.shiftHist bit).mem = s.mem := rfl
@[simp] theorem shiftHist_halted : (s.shiftHist bit).halted = s.halted := rfl
@[simp] theorem shiftHist_fault : (s.shiftHist bit).fault = s.fault := rfl
@[simp] theorem shiftHist_out : (s.shiftHist bit).out = s.out := rfl
@[simp] theorem shiftHist_fr : (s.shiftHist bit).fr = s.fr := rfl
@[simp] theorem shiftHist_dq : (s.shiftHist bit).dq = s.dq := rfl
@[simp] theorem shiftHist_dr : (s.shiftHist bit).dr = s.dr := rfl
@[simp] theorem shiftHist_xr : (s.shiftHist bit).xr = s.xr := rfl
@[simp] theorem shiftHist_stall : (s.shiftHist bit).stall = s.stall := rfl
@[simp] theorem shiftHist_table : (s.shiftHist bit).table = s.table := rfl
@[simp] theorem shiftHist_jumpMap : (s.shiftHist bit).jumpMap = s.jumpMap := rfl
@[simp] theorem shiftHist_variant : (s.shiftHist bit).variant = s.variant := rfl

@[simp] theorem setJumpTarget_reg : (s.setJumpTarget ipc t).reg r = s.reg r := rfl
@[simp] theorem setJumpTarget_mem : (s.setJumpTarget ipc t).mem = s.mem := rfl
@[simp] theorem setJumpTarget_halted : (s.setJumpTarget ipc t).halted = s.halted := rfl
@[simp] theorem setJumpTarget_fault : (s.setJumpTarget ipc t).fault = s.fault := rfl
@[simp] theorem setJumpTarget_out : (s.setJumpTarget ipc t).out = s.out := rfl
@[simp] theorem setJumpTarget_fr : (s.setJumpTarget ipc t).fr = s.fr := rfl
@[simp] theorem setJumpTarget_dq : (s.setJumpTarget ipc t).dq = s.dq := rfl
@[simp] theorem setJumpTarget_dr : (s.setJumpTarget ipc t).dr = s.dr := rfl
@[simp] theorem setJumpTarget_xr : (s.setJumpTarget ipc t).xr = s.xr := rfl
@[simp] theorem setJumpTarget_stall : (s.setJumpTarget ipc t).stall = s.stall := rfl
@[simp] theorem setJumpTarget_table : (s.setJumpTarget ipc t).table = s.table := rfl
@[simp] theorem setJumpTarget_hist : (s.setJumpTarget ipc t).hist = s.hist := rfl
@[simp] theorem setJumpTarget_variant : (s.setJumpTarget ipc t).variant = s.variant := rfl

@[simp] theorem counterUp_reg : (s.counterUp ipc).reg r = s.reg r := rfl
@[simp] theorem counterUp_mem : (s.counterUp ipc).mem = s.mem := rfl
@[simp] theorem counterUp_halted : (s.counterUp ipc).halted = s.halted := rfl
@[simp] theorem counterUp_fault : (s.counterUp ipc).fault = s.fault := rfl
@[simp] theorem counterUp_out : (s.counterUp ipc).out = s.out := rfl
@[simp] theorem counterUp_fr : (s.counterUp ipc).fr = s.fr := rfl
@[simp] theorem counterUp_dq : (s.counterUp ipc).dq = s.dq := rfl
@[simp] theorem counterUp_dr : (s.counterUp ipc).dr = s.dr := rfl
@[simp] theorem counterUp_xr : (s.counterUp ipc).xr = s.xr := rfl
@[simp] theorem counterUp_stall : (s.counterUp ipc).stall = s.stall := rfl
@[simp] theorem counterUp_hist : (s.counterUp ipc).hist = s.hist := rfl
@[simp] theorem counterUp_jumpMap : (s.counterUp ipc).jumpMap = s.jumpMap := rfl
@[simp] theorem counterUp_variant : (s.counterUp ipc).variant = s.variant := rfl

@[simp] theorem counterDown_reg : (s.counterDown ipc).reg r = s.reg r := rfl
@[simp] theorem counterDown_mem : (s.counterDown ipc).mem = s.mem := rfl
@[simp] theorem counterDown_halted : (s.counterDown ipc).halted = s.halted := rfl
@[simp] theorem counterDown_fault : (s.counterDown ipc).fault = s.fault := rfl
@[simp] theorem counterDown_out : (s.counterDown ipc).out = s.out := rfl
@[simp] theorem counterDown_fr : (s.counterDown ipc).fr = s.fr := rfl
@[simp] theorem counterDown_dq : (s.counterDown ipc).dq = s.dq := rfl
@[simp] theorem counterDown_dr : (s.counterDown ipc).dr = s.dr := rfl
@[simp] theorem counterDown_xr : (s.counterDown ipc).xr = s.xr := rfl
@[simp] theorem counterDown_stall : (s.counterDown ipc).stall = s.stall := rfl
@[simp] theorem counterDown_hist : (s.counterDown ipc).hist = s.hist := rfl
@[simp] theorem counterDown_jumpMap : (s.counterDown ipc).jumpMap = s.jumpMap := rfl
@[simp] theorem counterDown_variant : (s.counterDown ipc).variant = s.variant := rfl

@[simp] theorem correctPrediction_reg : (s.correctPrediction ipc).reg r = s.reg r := by
  simp [State.correctPrediction]
@[simp] theorem correctPrediction_mem : (s.correctPrediction ipc).mem = s.mem := by
  simp [State.correctPrediction]
@[simp] theorem correctPrediction_halted : (s.correctPrediction ipc).halted = s.halted := by
  simp [State.correctPrediction]
@[simp] theorem correctPrediction_fault : (s.correctPrediction ipc).fault = s.fault := by
  simp [State.correctPrediction]
@[simp] theorem correctPrediction_out : (s.correctPrediction ipc).out = s.out := by
  simp [State.correctPrediction]
@[simp] theorem correctPrediction_fr : (s.correctPrediction ipc).fr = s.fr := by
  simp [State.correctPrediction]
@[simp] theorem correctPrediction_dq : (s.correctPrediction ipc).dq = s.dq := by
  simp [State.correctPrediction]
@[simp] theorem correctPrediction_dr : (s.correctPrediction ipc).dr = s.dr := by
  simp [State.correctPrediction]
@[simp] theorem correctPrediction_xr : (s.correctPrediction ipc).xr = s.xr := by
  simp [State.correctPrediction]
@[simp] theorem correctPrediction_stall : (s.correctPrediction ipc).stall = s.stall := by
  simp [State.correctPrediction]
@[simp] theorem correctPrediction_jumpMap : (s.correctPrediction ipc).jumpMap = s.jumpMap := by
  simp [State.correctPrediction]
@[simp] theorem correctPrediction_variant : (s.correctPrediction ipc).variant = s.variant := by
  simp [State.correctPrediction]

@[simp] theorem trainTaken_reg : (s.trainTaken ipc t).reg r = s.reg r := by
  simp [State.trainTaken]
@[simp] theorem trainTaken_mem : (s.trainTaken ipc t).mem = s.mem := by
  simp [State.trainTaken]
@[simp] theorem trainTaken_halted : (s.trainTaken ipc t).halted = s.halted := by
  simp [State.trainTaken]
@[simp] theorem trainTaken_fault : (s.trainTaken ipc t).fault = s.fault := by
  simp [State.trainTaken]
@[simp] theorem trainTaken_out : (s.trainTaken ipc t).out = s.out := by
  simp [State.trainTaken]
@[simp] theorem trainTaken_fr : (s.trainTaken ipc t).fr = s.fr := by
  simp [State.trainTaken]
@[simp] theorem trainTaken_dq : (s.trainTaken ipc t).dq = s.dq := by
  simp [State.trainTaken]
@[simp] theorem trainTaken_dr : (s.trainTaken ipc t).dr = s.dr := by
  simp [State.trainTaken]
@[simp] theorem trainTaken_xr : (s.trainTaken ipc t).xr = s.xr := by
  simp [State.trainTaken]
@[simp] theorem trainTaken_stall : (s.trainTaken ipc t).stall = s.stall := by
  simp [State.trainTaken]
@[simp] theorem trainTaken_variant : (s.trainTaken ipc t).variant = s.variant := by
  simp [State.trainTaken]

/-- Reading a counter after setting one. -/
theorem counter_setCounter (j : BitVec 10) :
    (s.setCounter k c).counter j = if j = k then c else s.counter j := by
  simp only [State.counter, State.setCounter, getD_assocFind_assocPut, BitVec.toNat_inj]

/-- Reading the jump-map after setting an entry. -/
theorem jumpTarget_setJumpTarget (q : Word) :
    (s.setJumpTarget ipc t).jumpTarget q = if q = ipc then some t else s.jumpTarget q := by
  simp only [State.jumpTarget, State.setJumpTarget, assocFind_assocInsert, BitVec.toNat_inj]

/-- Counters do not depend on the history or the jump-map. -/
@[simp] theorem counter_shiftHist (j : BitVec 10) : (s.shiftHist bit).counter j = s.counter j := rfl
@[simp] theorem counter_setJumpTarget (j : BitVec 10) :
    (s.setJumpTarget ipc t).counter j = s.counter j := rfl

/-- Every counter after a step up. -/
theorem counter_counterUp (j : BitVec 10) : (s.counterUp ipc).counter j =
    if j = s.predIndex ipc then counterInc (s.counter (s.predIndex ipc)) else s.counter j :=
  counter_setCounter ..

/-- Every counter after a step down. -/
theorem counter_counterDown (j : BitVec 10) : (s.counterDown ipc).counter j =
    if j = s.predIndex ipc then counterDec (s.counter (s.predIndex ipc)) else s.counter j :=
  counter_setCounter ..

end Predictor

/-! ### Writeback effects -/

section Writeback
variable (s : State) (c : Cmd)

@[simp] theorem writeback_fault : (s.writeback c).fault = s.fault := by
  cases c <;> simp [State.writeback]
@[simp] theorem writeback_fr : (s.writeback c).fr = s.fr := by
  cases c <;> simp [State.writeback]
@[simp] theorem writeback_dq : (s.writeback c).dq = s.dq := by
  cases c <;> simp [State.writeback]
@[simp] theorem writeback_dr : (s.writeback c).dr = s.dr := by
  cases c <;> simp [State.writeback]
@[simp] theorem writeback_xr : (s.writeback c).xr = s.xr := by
  cases c <;> simp [State.writeback]
@[simp] theorem writeback_stall : (s.writeback c).stall = s.stall := by
  cases c <;> simp [State.writeback]
@[simp] theorem writeback_table : (s.writeback c).table = s.table := by
  cases c <;> simp [State.writeback]
@[simp] theorem writeback_hist : (s.writeback c).hist = s.hist := by
  cases c <;> simp [State.writeback]
@[simp] theorem writeback_jumpMap : (s.writeback c).jumpMap = s.jumpMap := by
  cases c <;> simp [State.writeback]
@[simp] theorem writeback_variant : (s.writeback c).variant = s.variant := by
  cases c <;> simp [State.writeback]

end Writeback

/-! ### The writeback stage -/

/-- All that the writeback stage can do: nothing on a bubble; a PC write goes to the flush control; any
other command has its writeback effect. -/
theorem writebackStage_cases (s : State) :
    (s.xr = none ∧ writebackStage s = s) ∨
    (∃ v ipc npc, s.xr = some ⟨.registers 31#5 v, ipc, npc⟩ ∧
      writebackStage s = branchRetire s v ipc npc) ∨
    (∃ c ipc npc, s.xr = some ⟨c, ipc, npc⟩ ∧ (∀ v, c ≠ .registers 31#5 v) ∧
      writebackStage s = s.writeback c) := by
  unfold writebackStage
  rcases hx : s.xr with _ | ⟨c, ipc, npc⟩
  · exact .inl ⟨rfl, rfl⟩
  · cases c with
    | registers r v =>
      by_cases hr : r = 31#5
      · subst hr
        exact .inr (.inl ⟨v, ipc, npc, rfl, by simp⟩)
      · exact .inr (.inr ⟨_, ipc, npc, rfl, by simp [hr], by simp [hr]⟩)
    | memory a v => exact .inr (.inr ⟨_, ipc, npc, rfl, by simp, rfl⟩)
    | halt => exact .inr (.inr ⟨_, ipc, npc, rfl, by simp, rfl⟩)

/-- All that the flush control can do with a PC write of `v`. -/
theorem branchRetire_cases (s : State) (v ipc npc : Word) :
    (s.variant = .predicted ∧ norm v = npc ∧
      branchRetire s v ipc npc = s.correctPrediction ipc) ∨
    (s.variant = .predicted ∧ norm v ≠ npc ∧
      branchRetire s v ipc npc = ((s.setPc (norm v)).flush).trainTaken ipc (norm v)) ∨
    (s.variant ≠ .predicted ∧ branchRetire s v ipc npc = (s.setPc (norm v)).flush) := by
  unfold branchRetire
  cases h : s.variant
  · exact .inr (.inr ⟨by simp, rfl⟩)
  · exact .inr (.inr ⟨by simp, rfl⟩)
  · by_cases hn : norm v = npc
    · exact .inl ⟨rfl, hn, by simp [hn]⟩
    · exact .inr (.inl ⟨rfl, hn, by simp [hn]⟩)

section BranchRetire
variable (s : State) (v ipc npc : Word) (r : RegIdx)

@[simp] theorem branchRetire_mem : (branchRetire s v ipc npc).mem = s.mem := by
  rcases branchRetire_cases s v ipc npc with ⟨-, -, h⟩ | ⟨-, -, h⟩ | ⟨-, h⟩ <;> simp [h]
@[simp] theorem branchRetire_halted : (branchRetire s v ipc npc).halted = s.halted := by
  rcases branchRetire_cases s v ipc npc with ⟨-, -, h⟩ | ⟨-, -, h⟩ | ⟨-, h⟩ <;> simp [h]
@[simp] theorem branchRetire_fault : (branchRetire s v ipc npc).fault = s.fault := by
  rcases branchRetire_cases s v ipc npc with ⟨-, -, h⟩ | ⟨-, -, h⟩ | ⟨-, h⟩ <;> simp [h]
@[simp] theorem branchRetire_out : (branchRetire s v ipc npc).out = s.out := by
  rcases branchRetire_cases s v ipc npc with ⟨-, -, h⟩ | ⟨-, -, h⟩ | ⟨-, h⟩ <;> simp [h]
@[simp] theorem branchRetire_xr : (branchRetire s v ipc npc).xr = s.xr := by
  rcases branchRetire_cases s v ipc npc with ⟨-, -, h⟩ | ⟨-, -, h⟩ | ⟨-, h⟩ <;> simp [h]
@[simp] theorem branchRetire_stall : (branchRetire s v ipc npc).stall = s.stall := by
  rcases branchRetire_cases s v ipc npc with ⟨-, -, h⟩ | ⟨-, -, h⟩ | ⟨-, h⟩ <;> simp [h]
@[simp] theorem branchRetire_variant : (branchRetire s v ipc npc).variant = s.variant := by
  rcases branchRetire_cases s v ipc npc with ⟨-, -, h⟩ | ⟨-, -, h⟩ | ⟨-, h⟩ <;> simp [h]

@[simp] theorem branchRetire_reg (h : r ≠ 31#5) : (branchRetire s v ipc npc).reg r = s.reg r := by
  rcases branchRetire_cases s v ipc npc with ⟨-, -, e⟩ | ⟨-, -, e⟩ | ⟨-, e⟩ <;> simp [e, h]

end BranchRetire

section WritebackStage
variable (s : State)

@[simp] theorem writebackStage_fault : (writebackStage s).fault = s.fault := by
  rcases writebackStage_cases s with ⟨-, h⟩ | ⟨_, _, _, -, h⟩ | ⟨_, _, _, -, -, h⟩ <;> simp [h]
@[simp] theorem writebackStage_xr : (writebackStage s).xr = s.xr := by
  rcases writebackStage_cases s with ⟨-, h⟩ | ⟨_, _, _, -, h⟩ | ⟨_, _, _, -, -, h⟩ <;> simp [h]
@[simp] theorem writebackStage_stall : (writebackStage s).stall = s.stall := by
  rcases writebackStage_cases s with ⟨-, h⟩ | ⟨_, _, _, -, h⟩ | ⟨_, _, _, -, -, h⟩ <;> simp [h]
@[simp] theorem writebackStage_variant : (writebackStage s).variant = s.variant := by
  rcases writebackStage_cases s with ⟨-, h⟩ | ⟨_, _, _, -, h⟩ | ⟨_, _, _, -, -, h⟩ <;> simp [h]

end WritebackStage

/-! ### The execute stage -/

/-- All that the execute stage can do. -/
theorem executeStage_cases (s : State) :
    (s.dr = none ∧ executeStage s = { s with xr := none }) ∨
    (∃ D c, s.dr = some D ∧ execDecoded D s = .command c ∧
      executeStage s = { s with xr := some ⟨c, D.ipc, D.npc⟩ }) ∨
    (∃ D f, s.dr = some D ∧ execDecoded D s = .raise f ∧ executeStage s = s.raise f) := by
  unfold executeStage
  rcases hd : s.dr with _ | D
  · exact .inl ⟨rfl, rfl⟩
  · cases he : execDecoded D s with
    | command c => exact .inr (.inl ⟨D, c, rfl, he, by simp [he]⟩)
    | raise f => exact .inr (.inr ⟨D, f, rfl, he, by simp [he]⟩)

section ExecuteStage
variable (s : State) (r : RegIdx)

@[simp] theorem executeStage_reg : (executeStage s).reg r = s.reg r := by
  rcases executeStage_cases s with ⟨-, h⟩ | ⟨_, _, -, -, h⟩ | ⟨_, _, -, -, h⟩ <;> (rw [h]; try rfl)
@[simp] theorem executeStage_mem : (executeStage s).mem = s.mem := by
  rcases executeStage_cases s with ⟨-, h⟩ | ⟨_, _, -, -, h⟩ | ⟨_, _, -, -, h⟩ <;> (rw [h]; try rfl)
@[simp] theorem executeStage_halted : (executeStage s).halted = s.halted := by
  rcases executeStage_cases s with ⟨-, h⟩ | ⟨_, _, -, -, h⟩ | ⟨_, _, -, -, h⟩ <;> (rw [h]; try rfl)
@[simp] theorem executeStage_out : (executeStage s).out = s.out := by
  rcases executeStage_cases s with ⟨-, h⟩ | ⟨_, _, -, -, h⟩ | ⟨_, _, -, -, h⟩ <;> (rw [h]; try rfl)
@[simp] theorem executeStage_fr : (executeStage s).fr = s.fr := by
  rcases executeStage_cases s with ⟨-, h⟩ | ⟨_, _, -, -, h⟩ | ⟨_, _, -, -, h⟩ <;> (rw [h]; try rfl)
@[simp] theorem executeStage_dq : (executeStage s).dq = s.dq := by
  rcases executeStage_cases s with ⟨-, h⟩ | ⟨_, _, -, -, h⟩ | ⟨_, _, -, -, h⟩ <;> (rw [h]; try rfl)
@[simp] theorem executeStage_dr : (executeStage s).dr = s.dr := by
  rcases executeStage_cases s with ⟨-, h⟩ | ⟨_, _, -, -, h⟩ | ⟨_, _, -, -, h⟩ <;> (rw [h]; try rfl)
@[simp] theorem executeStage_stall : (executeStage s).stall = s.stall := by
  rcases executeStage_cases s with ⟨-, h⟩ | ⟨_, _, -, -, h⟩ | ⟨_, _, -, -, h⟩ <;> (rw [h]; try rfl)
@[simp] theorem executeStage_table : (executeStage s).table = s.table := by
  rcases executeStage_cases s with ⟨-, h⟩ | ⟨_, _, -, -, h⟩ | ⟨_, _, -, -, h⟩ <;> (rw [h]; try rfl)
@[simp] theorem executeStage_hist : (executeStage s).hist = s.hist := by
  rcases executeStage_cases s with ⟨-, h⟩ | ⟨_, _, -, -, h⟩ | ⟨_, _, -, -, h⟩ <;> (rw [h]; try rfl)
@[simp] theorem executeStage_jumpMap : (executeStage s).jumpMap = s.jumpMap := by
  rcases executeStage_cases s with ⟨-, h⟩ | ⟨_, _, -, -, h⟩ | ⟨_, _, -, -, h⟩ <;> (rw [h]; try rfl)
@[simp] theorem executeStage_variant : (executeStage s).variant = s.variant := by
  rcases executeStage_cases s with ⟨-, h⟩ | ⟨_, _, -, -, h⟩ | ⟨_, _, -, -, h⟩ <;> (rw [h]; try rfl)

end ExecuteStage

/-! ### The decode stage -/

/-- All that the decode stage can do: hold, issue from the queue, replay, issue from fetch, bubble. -/
theorem decodeStage_cases (s : State) :
    (∃ u rest, s.dq = u :: rest ∧ hazard u.op s.xr = true ∧
      decodeStage s = { s with dr := none, stall := s.stall + 1#32 }) ∨
    (∃ u rest, s.dq = u :: rest ∧ hazard u.op s.xr = false ∧
      decodeStage s = { s with dr := some u, dq := rest }) ∨
    (∃ f, s.dq = [] ∧ s.fr = some f ∧ hazard (expand (decode f.blob)).1 s.xr = true ∧
      decodeStage s =
        { s with fr := none, dr := none, stall := s.stall + 1#32 }.setPc f.ipc) ∨
    (∃ f, s.dq = [] ∧ s.fr = some f ∧ hazard (expand (decode f.blob)).1 s.xr = false ∧
      decodeStage s =
        { s with
          fr := none
          dr := some ⟨(expand (decode f.blob)).1, f.ipc, f.npc⟩
          dq := (expand (decode f.blob)).2.map fun u => ⟨u, f.ipc, f.npc⟩
          stall := s.stall + BitVec.ofNat 32 (expand (decode f.blob)).2.length }) ∨
    (s.dq = [] ∧ s.fr = none ∧ decodeStage s = { s with dr := none }) := by
  unfold decodeStage
  rcases hq : s.dq with _ | ⟨u, rest⟩
  · rcases hf : s.fr with _ | f
    · exact .inr (.inr (.inr (.inr ⟨rfl, rfl, rfl⟩)))
    · cases hz : hazard (expand (decode f.blob)).1 s.xr
      · exact .inr (.inr (.inr (.inl ⟨f, rfl, rfl, hz, by simp [hz]⟩)))
      · exact .inr (.inr (.inl ⟨f, rfl, rfl, hz, by simp [hz]⟩))
  · cases hz : hazard u.op s.xr
    · exact .inr (.inl ⟨u, rest, rfl, hz, by simp [hz]⟩)
    · exact .inl ⟨u, rest, rfl, hz, by simp [hz]⟩

section DecodeStage
variable (s : State) (r : RegIdx)

@[simp] theorem decodeStage_reg (hr : r ≠ 31#5) : (decodeStage s).reg r = s.reg r := by
  rcases decodeStage_cases s with ⟨_, _, -, -, h⟩ | ⟨_, _, -, -, h⟩ | ⟨_, -, -, -, h⟩ |
    ⟨_, -, -, -, h⟩ | ⟨-, -, h⟩ <;> rw [h] <;> first | rfl | exact setPc_reg_ne _ _ _ hr
@[simp] theorem decodeStage_mem : (decodeStage s).mem = s.mem := by
  rcases decodeStage_cases s with ⟨_, _, -, -, h⟩ | ⟨_, _, -, -, h⟩ | ⟨_, -, -, -, h⟩ |
    ⟨_, -, -, -, h⟩ | ⟨-, -, h⟩ <;> (rw [h]; try rfl)
@[simp] theorem decodeStage_halted : (decodeStage s).halted = s.halted := by
  rcases decodeStage_cases s with ⟨_, _, -, -, h⟩ | ⟨_, _, -, -, h⟩ | ⟨_, -, -, -, h⟩ |
    ⟨_, -, -, -, h⟩ | ⟨-, -, h⟩ <;> (rw [h]; try rfl)
@[simp] theorem decodeStage_fault : (decodeStage s).fault = s.fault := by
  rcases decodeStage_cases s with ⟨_, _, -, -, h⟩ | ⟨_, _, -, -, h⟩ | ⟨_, -, -, -, h⟩ |
    ⟨_, -, -, -, h⟩ | ⟨-, -, h⟩ <;> (rw [h]; try rfl)
@[simp] theorem decodeStage_out : (decodeStage s).out = s.out := by
  rcases decodeStage_cases s with ⟨_, _, -, -, h⟩ | ⟨_, _, -, -, h⟩ | ⟨_, -, -, -, h⟩ |
    ⟨_, -, -, -, h⟩ | ⟨-, -, h⟩ <;> (rw [h]; try rfl)
@[simp] theorem decodeStage_xr : (decodeStage s).xr = s.xr := by
  rcases decodeStage_cases s with ⟨_, _, -, -, h⟩ | ⟨_, _, -, -, h⟩ | ⟨_, -, -, -, h⟩ |
    ⟨_, -, -, -, h⟩ | ⟨-, -, h⟩ <;> (rw [h]; try rfl)
@[simp] theorem decodeStage_table : (decodeStage s).table = s.table := by
  rcases decodeStage_cases s with ⟨_, _, -, -, h⟩ | ⟨_, _, -, -, h⟩ | ⟨_, -, -, -, h⟩ |
    ⟨_, -, -, -, h⟩ | ⟨-, -, h⟩ <;> (rw [h]; try rfl)
@[simp] theorem decodeStage_hist : (decodeStage s).hist = s.hist := by
  rcases decodeStage_cases s with ⟨_, _, -, -, h⟩ | ⟨_, _, -, -, h⟩ | ⟨_, -, -, -, h⟩ |
    ⟨_, -, -, -, h⟩ | ⟨-, -, h⟩ <;> (rw [h]; try rfl)
@[simp] theorem decodeStage_jumpMap : (decodeStage s).jumpMap = s.jumpMap := by
  rcases decodeStage_cases s with ⟨_, _, -, -, h⟩ | ⟨_, _, -, -, h⟩ | ⟨_, -, -, -, h⟩ |
    ⟨_, -, -, -, h⟩ | ⟨-, -, h⟩ <;> (rw [h]; try rfl)
@[simp] theorem decodeStage_variant : (decodeStage s).variant = s.variant := by
  rcases decodeStage_cases s with ⟨_, _, -, -, h⟩ | ⟨_, _, -, -, h⟩ | ⟨_, -, -, -, h⟩ |
    ⟨_, -, -, -, h⟩ | ⟨-, -, h⟩ <;> (rw [h]; try rfl)

end DecodeStage

/-! ### The fetch stage and the stall decrement -/

section FetchStage
variable (s : State) (r : RegIdx)

theorem fetchStage_stalled (h : s.stall ≠ 0#32) : fetchStage s = s := by simp [fetchStage, h]

theorem fetchStage_go (h : s.stall = 0#32) : fetchStage s =
    { s with fr := some ⟨memRead s.mem s.pc, s.pc, s.nextFetch s.pc⟩ }.setPc (s.nextFetch s.pc) := by
  simp [fetchStage, h]

@[simp] theorem fetchStage_reg (hr : r ≠ 31#5) : (fetchStage s).reg r = s.reg r := by
  unfold fetchStage
  split_ifs
  · rw [setPc_reg_ne _ _ _ hr]; rfl
  · rfl
@[simp] theorem fetchStage_mem : (fetchStage s).mem = s.mem := by
  unfold fetchStage; split_ifs <;> rfl
@[simp] theorem fetchStage_halted : (fetchStage s).halted = s.halted := by
  unfold fetchStage; split_ifs <;> rfl
@[simp] theorem fetchStage_fault : (fetchStage s).fault = s.fault := by
  unfold fetchStage; split_ifs <;> rfl
@[simp] theorem fetchStage_out : (fetchStage s).out = s.out := by
  unfold fetchStage; split_ifs <;> rfl
@[simp] theorem fetchStage_dq : (fetchStage s).dq = s.dq := by
  unfold fetchStage; split_ifs <;> rfl
@[simp] theorem fetchStage_dr : (fetchStage s).dr = s.dr := by
  unfold fetchStage; split_ifs <;> rfl
@[simp] theorem fetchStage_xr : (fetchStage s).xr = s.xr := by
  unfold fetchStage; split_ifs <;> rfl
@[simp] theorem fetchStage_stall : (fetchStage s).stall = s.stall := by
  unfold fetchStage; split_ifs <;> rfl
@[simp] theorem fetchStage_table : (fetchStage s).table = s.table := by
  unfold fetchStage; split_ifs <;> rfl
@[simp] theorem fetchStage_hist : (fetchStage s).hist = s.hist := by
  unfold fetchStage; split_ifs <;> rfl
@[simp] theorem fetchStage_jumpMap : (fetchStage s).jumpMap = s.jumpMap := by
  unfold fetchStage; split_ifs <;> rfl
@[simp] theorem fetchStage_variant : (fetchStage s).variant = s.variant := by
  unfold fetchStage; split_ifs <;> rfl

@[simp] theorem stallDec_reg : (stallDec s).reg r = s.reg r := by
  unfold stallDec; split_ifs <;> rfl
@[simp] theorem stallDec_mem : (stallDec s).mem = s.mem := by
  unfold stallDec; split_ifs <;> rfl
@[simp] theorem stallDec_halted : (stallDec s).halted = s.halted := by
  unfold stallDec; split_ifs <;> rfl
@[simp] theorem stallDec_fault : (stallDec s).fault = s.fault := by
  unfold stallDec; split_ifs <;> rfl
@[simp] theorem stallDec_out : (stallDec s).out = s.out := by
  unfold stallDec; split_ifs <;> rfl
@[simp] theorem stallDec_fr : (stallDec s).fr = s.fr := by
  unfold stallDec; split_ifs <;> rfl
@[simp] theorem stallDec_dq : (stallDec s).dq = s.dq := by
  unfold stallDec; split_ifs <;> rfl
@[simp] theorem stallDec_dr : (stallDec s).dr = s.dr := by
  unfold stallDec; split_ifs <;> rfl
@[simp] theorem stallDec_xr : (stallDec s).xr = s.xr := by
  unfold stallDec; split_ifs <;> rfl
@[simp] theorem stallDec_table : (stallDec s).table = s.table := by
  unfold stallDec; split_ifs <;> rfl
@[simp] theorem stallDec_hist : (stallDec s).hist = s.hist := by
  unfold stallDec; split_ifs <;> rfl
@[simp] theorem stallDec_jumpMap : (stallDec s).jumpMap = s.jumpMap := by
  unfold stallDec; split_ifs <;> rfl
@[simp] theorem stallDec_variant : (stallDec s).variant = s.variant := by
  unfold stallDec; split_ifs <;> rfl

end FetchStage

section FrontEnd
variable (s : State) (r : RegIdx)

@[simp] theorem frontEnd_reg (hr : r ≠ 31#5) : (frontEnd s).reg r = s.reg r := by
  simp [frontEnd, hr]
@[simp] theorem frontEnd_mem : (frontEnd s).mem = s.mem := by simp [frontEnd]
@[simp] theorem frontEnd_halted : (frontEnd s).halted = s.halted := by simp [frontEnd]
@[simp] theorem frontEnd_fault : (frontEnd s).fault = s.fault := by simp [frontEnd]
@[simp] theorem frontEnd_out : (frontEnd s).out = s.out := by simp [frontEnd]
@[simp] theorem frontEnd_xr : (frontEnd s).xr = s.xr := by simp [frontEnd]
@[simp] theorem frontEnd_table : (frontEnd s).table = s.table := by simp [frontEnd]
@[simp] theorem frontEnd_hist : (frontEnd s).hist = s.hist := by simp [frontEnd]
@[simp] theorem frontEnd_jumpMap : (frontEnd s).jumpMap = s.jumpMap := by simp [frontEnd]
@[simp] theorem frontEnd_variant : (frontEnd s).variant = s.variant := by simp [frontEnd]

end FrontEnd

/-! ### The step -/

/-- All that a pipelined step can do: hold, halt in writeback, fault in execute, or run every stage. -/
theorem pipeStep_cases (s : State) :
    (s.stopped = true ∧ pipeStep s = s) ∨
    (s.stopped = false ∧ (writebackStage s).halted = true ∧ pipeStep s = writebackStage s) ∨
    (s.stopped = false ∧ (writebackStage s).halted = false ∧
      (executeStage (writebackStage s)).fault.isSome = true ∧
      pipeStep s = executeStage (writebackStage s)) ∨
    (s.stopped = false ∧ (writebackStage s).halted = false ∧
      (executeStage (writebackStage s)).fault = none ∧
      pipeStep s = frontEnd (executeStage (writebackStage s))) := by
  unfold pipeStep
  cases h1 : s.stopped
  · cases h2 : (writebackStage s).halted
    · cases h3 : (executeStage (writebackStage s)).fault
      · exact .inr (.inr (.inr ⟨rfl, rfl, rfl, by simp⟩))
      · exact .inr (.inr (.inl ⟨rfl, rfl, rfl, by simp⟩))
    · exact .inr (.inl ⟨rfl, rfl, by simp⟩)
  · exact .inl ⟨rfl, by simp⟩

/-! ### What execute and decode hand on -/

/-- Every command of the execute stage is normalised: a PC write's value and a store's address (R74, R93). -/
theorem execDecoded_command_ok {D : InFlight} {s : State} {c : Cmd} (h : execDecoded D s = .command c) :
    c.Ok := by
  have main : ∀ r : ExecResult, (∀ a v, r = .command (.memory a v) → Aligned a) →
      r.normalized = .command c → c.Ok := by
    intro r hr hn
    cases r with
    | raise f => simp [ExecResult.normalized] at hn
    | command k =>
      cases k with
      | halt => simp [ExecResult.normalized] at hn; subst hn; trivial
      | memory a v => simp [ExecResult.normalized] at hn; subst hn; exact hr a v rfl
      | registers r v =>
        simp [ExecResult.normalized] at hn
        subst hn
        intro h
        simp only [h, if_true]
        exact norm_aligned v
  obtain ⟨op, ipc, npc⟩ := D
  cases op with
  | unassigned c f => simp [execDecoded, runOp, decodedOp, invalidOp, ExecResult.normalized] at h
  | instr i =>
    refine main _ (fun a v e => ?_) h
    cases i <;> simp [decodedOp, instrOp, invalidOp, hltOp, ldOp, stOp, pushallOp, popallOp, callOp, intrOp,
      ifltOp, ifleOp, ifeqOp, ifneOp, condOp, addOp, subOp, mulOp, divideOp, modOp, divOp, aluOp, andOp, orOp,
      nandOp, xorOp, slOp, srOp, salOp, sarOp] at e
    · obtain ⟨rfl, -⟩ := e
      exact norm_aligned _
    · split_ifs at e; simp at e
    · split_ifs at e; simp at e

/-- All that a fault of the execute stage can be: the record holds the instruction's opcode and address, and
either the opcode is invalid or a `div` or `mod` has second operand 0 (R201, R202). -/
theorem execDecoded_raise_cases {D : InFlight} {s : State} {f : FaultRecord}
    (h : execDecoded D s = .raise f) :
    f.icode = D.op.icode ∧ f.ipc = D.ipc ∧
    (f.kind = .invalidOpcode ∨
      (f.kind = .arithmeticTrap ∧ ∃ d a b i,
        (D.op = .instr (.div d a b i) ∨ D.op = .instr (.mod d a b i)) ∧
          rd s b (D.ipc + 4#32) i = 0#32)) := by
  obtain ⟨op, ipc, npc⟩ := D
  have hop : decodedOp op ipc s = .raise f := raise_of_runOp_raise h
  cases op with
  | unassigned c fields => cases ExecResult.raise.inj hop; exact ⟨rfl, rfl, .inl rfl⟩
  | instr i =>
    cases i with
    | div d a b i =>
      obtain ⟨h0, rfl⟩ := divOp_raise hop
      exact ⟨rfl, rfl, .inr ⟨rfl, d, a, b, i, .inl rfl, h0⟩⟩
    | mod d a b i =>
      obtain ⟨h0, rfl⟩ := divOp_raise hop
      exact ⟨rfl, rfl, .inr ⟨rfl, d, a, b, i, .inr rfl, h0⟩⟩
    | _ => first
      | cases hop; done
      | (cases ExecResult.raise.inj hop; exact ⟨rfl, rfl, .inl rfl⟩)

/-- All that decode can make of a word: the word's own instruction, or the two micro-ops of a macro. -/
theorem expand_cases (w : Word) :
    (∃ d a b i, decode w = .instr (.push d a b i) ∧
      expand (decode w) = (.instr (.sub a a 29#5 4#32), [.instr (.st d a 30#5 0#32)])) ∨
    (∃ d a b i, decode w = .instr (.pop d a b i) ∧
      expand (decode w) = (.instr (.ld d a 30#5 0#32), [.instr (.add a a 29#5 4#32)])) ∨
    (issuable (decode w) = true ∧ expand (decode w) = (decode w, [])) := by
  have hwf := fieldsOf_wf w
  rw [← decode_fields] at hwf
  generalize decode w = D at hwf
  cases D with
  | unassigned c f => exact .inr (.inr ⟨hwf, rfl⟩)
  | instr i =>
    cases i <;> first
      | exact .inr (.inr ⟨hwf, rfl⟩)
      | exact .inl ⟨_, _, _, _, rfl, rfl⟩
      | exact .inr (.inl ⟨_, _, _, _, rfl, rfl⟩)

/-- Every micro-op that decode issues or queues can be executed. -/
theorem expand_issuable (w : Word) : issuable (expand (decode w)).1 = true ∧
    (∀ u ∈ (expand (decode w)).2, issuable u = true) ∧ (expand (decode w)).2.length ≤ 1 := by
  rcases expand_cases w with ⟨d, a, b, i, -, e⟩ | ⟨d, a, b, i, -, e⟩ | ⟨h, e⟩ <;> rw [e]
  · simp [issuable, Decoded.fields, Instr.fields, Fields.wf, immInRange]
  · simp [issuable, Decoded.fields, Instr.fields, Fields.wf, immInRange]
  · simp [h]

/-- All that fetch can go to: the next address, or a recorded target. -/
theorem nextFetch_cases (s : State) (p : Word) :
    s.nextFetch p = p + 4#32 ∨ ∃ t, s.jumpTarget p = some t ∧ s.nextFetch p = t := by
  unfold State.nextFetch
  cases s.variant
  · exact .inl rfl
  · exact .inl rfl
  · unfold State.predict
    cases h : s.jumpTarget p with
    | none => exact .inl rfl
    | some t =>
      cases s.predictTaken p
      · exact .inl rfl
      · exact .inr ⟨t, rfl, rfl⟩

theorem stopped_iff (s : State) : s.stopped = true ↔ s.halted = true ∨ s.fault ≠ none := by
  cases h : s.fault <;> simp [State.stopped, h]

theorem running_iff (s : State) : s.stopped = false ↔ s.Running := by
  cases h : s.fault <;> simp [State.stopped, State.Running, h]

/-- The step of a pipelined variant. -/
theorem step_piped {s : State} (h : s.Piped) : step s = .next (pipeStep s) := by
  unfold step; cases hv : s.variant <;> simp_all [State.Piped]

/-- The step of the serial reference. -/
theorem step_serial {s : State} (h : s.variant = .serial) : step s = serialStep s := by
  unfold step; simp [h]

/-- Every instruction's meaning answers a next state. -/
theorem exec_next (i : Instr) (s : State) : ∃ ops, exec i s = .next (serialExec ops s) := by
  cases i <;> exact ⟨_, rfl⟩

end Sys2Proof.Machine
end

