-- ==== Sys2Proof/Tests/Slice0.lean ====
section
/-!
SUPPORT. Tests of single definitions, decoding words and single steps, with expected values from the tables of
95_test_vectors.md and 30_encoding.md section 4; and, for every statement with hypotheses, a witness that
meets them.
-/

namespace Sys2Proof.Tests

open Sys2Proof Sys2Proof.Machine

/-! ### Well-formedness: the immediate's range (30_encoding.md R52) -/

theorem test_wf_refuses_1024 : (Instr.add 0#5 30#5 29#5 1024#32).wf = false := by decide

theorem test_wf_refuses_below_minus_1024 : (Instr.add 0#5 30#5 29#5 0xFFFFFBFF#32).wf = false := by decide

theorem test_wf_takes_the_ends :
    (Instr.add 0#5 30#5 29#5 1023#32).wf = true ∧ (Instr.add 0#5 30#5 29#5 0xFFFFFC00#32).wf = true := by
  decide

theorem test_vector_index_32_is_not_legal : (VectorForm.full .add (.idx 32) .rZERO .rIMM 14).legal = false := by
  decide

/-! ### Decoding, one word for each row; the encoder gives the word back (95_test_vectors.md 2.1 to 2.7) -/

/-- The word decodes to the instruction, through the decoder, the byte list and the table's numbering, and the
encoder writes the word. -/
def reads (w : Nat) (i : Instr) : Bool :=
  decide (decode (BitVec.ofNat 32 w) = .instr i) && decide (decodeTableWord 32 w = some i) &&
    decide (encode i = BitVec.ofNat 32 w)

theorem test_decode_hlt : reads 0x00ABCDEF (.hlt 5#5 11#5 25#5 0xFFFFFDEF#32) = true := by decide
theorem test_decode_ld : reads 0x4062EFFF (.ld 3#5 2#5 29#5 0xFFFFFFFF#32) = true := by decide
theorem test_decode_st : reads 0x47E7EFFF (.st 31#5 7#5 29#5 0xFFFFFFFF#32) = true := by decide
theorem test_decode_push : reads 0x481C3FFD (.push 0#5 28#5 7#5 0xFFFFFFFD#32) = true := by decide
theorem test_decode_pop : reads 0x4CBC0000 (.pop 5#5 28#5 0#5 0#32) = true := by decide
theorem test_decode_pushall : reads 0x50000000 (.pushall 0#5 0#5 0#5 0#32) = true := by decide
theorem test_decode_popall : reads 0x54000000 (.popall 0#5 0#5 0#5 0#32) = true := by decide
theorem test_decode_iflt : reads 0x8001E804 (.iflt 0#5 1#5 29#5 4#32) = true := by decide
theorem test_decode_ifle : reads 0x841DF7FF (.ifle 0#5 29#5 30#5 0xFFFFFFFF#32) = true := by decide
theorem test_decode_ifeq : reads 0x881FE904 (.ifeq 0#5 31#5 29#5 260#32) = true := by decide
theorem test_decode_ifne : reads 0x8C011000 (.ifne 0#5 1#5 2#5 0#32) = true := by decide
theorem test_decode_call : reads 0x90A41FFF (.call 5#5 4#5 3#5 0xFFFFFFFF#32) = true := by decide
theorem test_decode_intr : reads 0x94000000 (.intr 0#5 0#5 0#5 0#32) = true := by decide
theorem test_decode_add : reads 0xC3FFEC00 (.add 31#5 31#5 29#5 0xFFFFFC00#32) = true := by decide
theorem test_decode_sub : reads 0xC7FFE81C (.sub 31#5 31#5 29#5 28#32) = true := by decide
theorem test_decode_div : reads 0xC861F800 (.div 3#5 1#5 31#5 0#32) = true := by decide
theorem test_decode_mod : reads 0xCC221FFF (.mod 1#5 2#5 3#5 0xFFFFFFFF#32) = true := by decide
theorem test_decode_mul : reads 0xD061EFFD (.mul 3#5 1#5 29#5 0xFFFFFFFD#32) = true := by decide
theorem test_decode_and : reads 0xD4611000 (.and 3#5 1#5 2#5 0#32) = true := by decide
theorem test_decode_or : reads 0xD8611000 (.or 3#5 1#5 2#5 0#32) = true := by decide
theorem test_decode_nand : reads 0xDCA623FF (.nand 5#5 6#5 4#5 1023#32) = true := by decide
theorem test_decode_xor : reads 0xE061EFFF (.xor 3#5 1#5 29#5 0xFFFFFFFF#32) = true := by decide
theorem test_decode_sl : reads 0xE861E81F (.sl 3#5 1#5 29#5 31#32) = true := by decide
theorem test_decode_sr : reads 0xEC61E804 (.sr 3#5 1#5 29#5 4#32) = true := by decide
theorem test_decode_sal : reads 0xF061E801 (.sal 3#5 1#5 29#5 1#32) = true := by decide
theorem test_decode_sar : reads 0xF480E801 (.sar 4#5 0#5 29#5 1#32) = true := by decide

theorem test_decode_unassigned : decode 0xE4000000#32 = .unassigned 0x39#6 ⟨0#5, 0#5, 0#5, 0#32⟩ ∧
    decodeTableWord 32 0xE4000000 = none := by decide

theorem test_decode_truncated : (decodeBytes [0x0E#8, 0xE8#8, 0x1E#8]).toOption = none := by decide

/-- The bits of `[:add 0 30 29 14]` from 30_encoding.md R51: opcode 110000, d 0, a 30, b 29, i 14. -/
theorem test_decode_add_bit_by_bit : decode 0b11000000000111101110100000001110#32 =
    .instr (.add 0#5 30#5 29#5 14#32) := by decide

/-- The bits of `[:st 31 7 29 -1]`: opcode 010001, d 31, a 7, b 29, i all ones. -/
theorem test_decode_st_bit_by_bit : decode 0b01000111111001111110111111111111#32 =
    .instr (.st 31#5 7#5 29#5 0xFFFFFFFF#32) := by decide

/-- The bits of `[:push 0 28 0 0]`: opcode 010010, d 0, a 28. -/
theorem test_decode_push_bit_by_bit : decode 0b01001000000111000000000000000000#32 =
    .instr (.push 0#5 28#5 0#5 0#32) := by decide

/-- The bits of `[:ifeq 0 30 0]`: opcode 100010, a 0, b 30. -/
theorem test_decode_ifeq_bit_by_bit : decode 0b10001000000000001111000000000000#32 =
    .instr (.ifeq 0#5 0#5 30#5 0#32) := by decide

theorem test_vector_form_with_aliases :
    (VectorForm.full .add (.idx 0) .rZERO .rIMM 14).word = 0xC01EE80E#32 := by decide

/-! ### One step each (95_test_vectors.md section 2) -/

/-- A state with the given registers and cells, everything else 0. -/
def place (s : State) (regs cells : List (Nat × Nat)) : State :=
  cells.foldl (fun t c => t.store (BitVec.ofNat 32 c.1) (BitVec.ofNat 32 c.2))
    (regs.foldl (fun t r => t.setReg (BitVec.ofNat 5 r.1) (BitVec.ofNat 32 r.2)) s)

/-- A serial machine about to run the word `w` at `ipc`. -/
def serialAt (ipc w : Nat) (regs cells : List (Nat × Nat)) : State :=
  (place (State.boot .serial []) regs ((ipc, w) :: cells)).setPc (BitVec.ofNat 32 ipc)

/-- A pipelined variant with nothing in flight and the words at 0, 4, 8, … -/
def pipeAt (v : Variant) (words : List Nat) : State :=
  place (State.boot v []) [] (words.zipIdx.map fun w => (4 * w.2, w.1))

/-- The state after a step. -/
def after (s : State) : State :=
  match step s with
  | .next t => t
  | _ => s

theorem test_hlt :
    let s := serialAt 0 0x00ABCDEF [] []
    (after s).halted = true ∧ (after s).pc = 4#32 := by decide

theorem test_ld_scaled_index :
    let s := serialAt 256 0x40620800 [(2, 64), (1, 3)] [(76, 0xFFFFFFFE)]
    (after s).reg 3#5 = 0xFFFFFFFE#32 ∧ (after s).pc = 260#32 := by decide

theorem test_ld_jump_through_memory :
    let s := serialAt 256 0x43E2F000 [(2, 64)] [(64, 515)]
    (after s).pc = 512#32 ∧ (after s).reg 2#5 = 64#32 := by decide

theorem test_st_negative_index_stores_next_address :
    let s := serialAt 256 0x47E7EFFF [(7, 512)] []
    memRead (after s).mem 508#32 = 260#32 ∧ (after s).pc = 260#32 := by decide

theorem test_st_immediate_value :
    let s := serialAt 256 0x47A7E805 [(7, 512)] []
    memRead (after s).mem 532#32 = 5#32 ∧ (after s).reg 29#5 = 0#32 := by decide

theorem test_push_wraps_and_rounds_down :
    let s := serialAt 256 0x481C0000 [(0, 9), (28, 2)] []
    (after s).reg 28#5 = 0xFFFFFFFE#32 ∧ memRead (after s).mem 0xFFFFFFFC#32 = 9#32 := by decide

theorem test_push_of_its_own_pointer :
    let s := serialAt 256 0x4B9C0000 [(28, 2048)] []
    (after s).reg 28#5 = 2044#32 ∧ memRead (after s).mem 2044#32 = 2044#32 := by decide

theorem test_pop_into_its_own_pointer :
    let s := serialAt 256 0x4F9C0000 [(28, 2044)] [(2044, 64)]
    (after s).reg 28#5 = 68#32 ∧ (after s).pc = 260#32 := by decide

theorem test_pop_hex_pointer :
    let s := serialAt 256 0x4CBD0000 [] [(4, 119)]
    (after s).reg 5#5 = 0#32 ∧ (after s).out = [.outHex 8#32] := by decide

theorem test_pushall :
    let s := serialAt 256 0x50000000 [] []
    (after s).fault = some ⟨.invalidOpcode, 0x14#6, 256#32⟩ ∧ (after s).pc = 260#32 := by decide

theorem test_popall :
    let s := serialAt 256 0x54000000 [] []
    (after s).fault = some ⟨.invalidOpcode, 0x15#6, 256#32⟩ ∧ (after s).pc = 260#32 := by decide

theorem test_iflt_is_signed :
    let s := serialAt 256 0x80011000 [(1, 0xFFFFFFFF), (2, 1)] []
    (after s).pc = 260#32 := by decide

theorem test_iflt_most_negative_skips :
    let s := serialAt 256 0x80011000 [(1, 0x7FFFFFFF), (2, 0x80000000)] []
    (after s).pc = 264#32 := by decide

theorem test_ifle_equal :
    let s := serialAt 256 0x84011000 [(1, 2), (2, 2)] []
    (after s).pc = 260#32 := by decide

theorem test_ifle_greater_skips :
    let s := serialAt 256 0x84011000 [(1, 3), (2, 2)] []
    (after s).pc = 264#32 := by decide

theorem test_ifeq_next_address :
    let s := serialAt 256 0x881FE904 [] []
    (after s).pc = 260#32 := by decide

theorem test_ifeq_wraps :
    let s := serialAt 0xFFFFFFFC 0x881EF000 [] []
    (after s).pc = 0#32 := by decide

theorem test_ifne_differs :
    let s := serialAt 256 0x8C011000 [(1, 5), (2, 6)] []
    (after s).pc = 260#32 := by decide

theorem test_ifne_wraps :
    let s := serialAt 0xFFFFFFF8 0x8C1EF000 [] []
    (after s).pc = 0#32 := by decide

theorem test_call :
    let s := serialAt 256 0x90A41FFF [] []
    (after s).fault = some ⟨.invalidOpcode, 0x24#6, 256#32⟩ ∧ (after s).reg 5#5 = 0#32 := by decide

theorem test_intr :
    let s := serialAt 256 0x94000000 [] []
    (after s).fault = some ⟨.invalidOpcode, 0x25#6, 256#32⟩ ∧ (after s).halted = false := by decide

theorem test_add_wraps_to_negative :
    let s := serialAt 256 0xC0611000 [(1, 0x7FFFFFFF), (2, 1)] []
    (after s).reg 3#5 = 0x80000000#32 ∧ (after s).pc = 260#32 := by decide

theorem test_add_prints_the_low_byte :
    let s := serialAt 256 0xC3C1F000 [(1, 256)] []
    (after s).out = [.outChar 0#8] ∧ (after s).reg 30#5 = 0#32 := by decide

theorem test_sub_order :
    let s := serialAt 256 0xC49E0800 [(1, 0x80000000)] []
    (after s).reg 4#5 = 0x80000000#32 := by decide

theorem test_sub_jump_back :
    let s := serialAt 36 0xC7FFE81C [] []
    (after s).pc = 12#32 := by decide

theorem test_div_truncates :
    let s := serialAt 256 0xC8611000 [(1, 0xFFFFFFF9), (2, 2)] []
    (after s).reg 3#5 = 0xFFFFFFFD#32 := by decide

theorem test_div_by_next_address_zero :
    let s := serialAt 0xFFFFFFFC 0xC861F800 [(1, 5)] []
    (after s).fault = some ⟨.arithmeticTrap, 0x32#6, 0xFFFFFFFC#32⟩ ∧ (after s).reg 3#5 = 0#32 := by decide

theorem test_mod_sign_of_dividend :
    let s := serialAt 256 0xCC611000 [(1, 7), (2, 0xFFFFFFFE)] []
    (after s).reg 3#5 = 1#32 := by decide

theorem test_mod_by_zero :
    let s := serialAt 256 0xCC221FFF [(2, 9), (3, 0)] []
    (after s).fault = some ⟨.arithmeticTrap, 0x33#6, 256#32⟩ ∧ (after s).reg 1#5 = 0#32 := by decide

theorem test_mul_low_word :
    let s := serialAt 256 0xD061EFFD [(1, 5)] []
    (after s).reg 3#5 = 0xFFFFFFF1#32 := by decide

theorem test_and :
    let s := serialAt 256 0xD4611000 [(1, 0xF0F0F0F0), (2, 0xFF00FF00)] []
    (after s).reg 3#5 = 0xF000F000#32 := by decide

theorem test_or :
    let s := serialAt 256 0xD8611000 [(1, 0xF0F0F0F0), (2, 0x0F0F0F0F)] []
    (after s).reg 3#5 = 0xFFFFFFFF#32 := by decide

theorem test_nand :
    let s := serialAt 256 0xDCA623FF [(6, 0xF0F0F0F0), (4, 0xFF00FF00)] []
    (after s).reg 5#5 = 0x0FFF0FFF#32 := by decide

theorem test_xor :
    let s := serialAt 256 0xE061EFFF [(1, 0x12345678)] []
    (after s).reg 3#5 = 0xEDCBA987#32 := by decide

theorem test_sl_31 :
    let s := serialAt 256 0xE861E81F [(1, 1)] []
    (after s).reg 3#5 = 0x80000000#32 := by decide

theorem test_sl_amount_not_reduced :
    let s := serialAt 256 0xE861E820 [(1, 1)] []
    (after s).reg 3#5 = 0#32 ∧ (after s).pc = 260#32 := by decide

theorem test_sr_fills_with_zeros :
    let s := serialAt 256 0xEC61E804 [(1, 0xFFFFFFFF)] []
    (after s).reg 3#5 = 0x0FFFFFFF#32 := by decide

theorem test_sr_32 :
    let s := serialAt 256 0xEC611000 [(1, 0x80000000), (2, 32)] []
    (after s).reg 3#5 = 0#32 := by decide

theorem test_sal :
    let s := serialAt 256 0xF061E801 [(1, 0xC0000000)] []
    (after s).reg 3#5 = 0x80000000#32 := by decide

theorem test_sar_fills_with_the_sign :
    let s := serialAt 256 0xF480E801 [(0, 0xFFFFFFF6)] []
    (after s).reg 4#5 = 0xFFFFFFFB#32 := by decide

theorem test_sar_32 :
    let s := serialAt 256 0xF4611000 [(1, 0x80000000), (2, 32)] []
    (after s).reg 3#5 = 0xFFFFFFFF#32 := by decide

theorem test_unassigned_opcode :
    let s := serialAt 256 0xFFFFFFFF [] []
    (after s).fault = some ⟨.invalidOpcode, 0x3F#6, 256#32⟩ ∧ (after s).pc = 260#32 := by decide

/-! ### Single steps of the pipelined variants (95_test_vectors.md sections 4 and 5) -/

/-- Cycle 3 of section 4: `add 28 0 0 0` in `FR` reads the register that the command in `XR` will write. -/
theorem test_pipeline_replay :
    let s := after (after (after (pipeAt .pipelined [0xC01EEBE8, 0xC3800000, 0x481C0000])))
    s.pc = 4#32 ∧ s.fr = none ∧ s.dr = none ∧ s.xr = some ⟨.registers 0#5 1000#32, 0#32, 4#32⟩ ∧
      s.stall = 0#32 := by decide

/-- Cycles 8 and 9 of section 4: the macro is issued with fetch blocked, then its second micro-op is held. -/
theorem test_pipeline_macro_issue_and_hold :
    let s := { pipeAt .pipelined [] with fr := some ⟨0x481C0000#32, 8#32, 12#32⟩ }
    (after s).dr = some ⟨.instr (.sub 28#5 28#5 29#5 4#32), 8#32, 12#32⟩ ∧
      (after s).dq = [⟨.instr (.st 0#5 28#5 30#5 0#32), 8#32, 12#32⟩] ∧ (after s).fr = none ∧
      (after (after s)).dr = none ∧ (after (after s)).dq = (after s).dq := by decide

/-- Cycle 10 of section 5: a mispredicted `ifeq` flushes, trains and refetches. -/
theorem test_pipeline_mispredict :
    let s := { pipeAt .predicted [0xC01EE803, 0xC400E801, 0x8800F000, 0xC3FEE814, 0xC3FEE804, 0] with
      xr := some ⟨.registers 31#5 16#32, 8#32, 12#32⟩ }
    let t := after s
    t.fr = some ⟨0xC3FEE804#32, 16#32, 20#32⟩ ∧ t.hist = 0x200#10 ∧ t.counter 8#10 = 3#2 ∧
      t.jumpTarget 8#32 = some 16#32 := by decide

/-- Cycles 17 and 19 of section 5: fetch follows the jump-map, and a correct prediction does not flush. -/
theorem test_pipeline_correct_prediction :
    let s := { (pipeAt .predicted [0xC01EE803, 0xC400E801, 0x8800F000, 0xC3FEE814, 0xC3FEE804, 0]).setPc 16#32 with
      jumpMap := [(8, 16#32), (16, 4#32)], hist := 0x300#10,
      xr := some ⟨.registers 31#5 16#32, 8#32, 16#32⟩ }
    let t := after s
    t.fr = some ⟨0xC3FEE804#32, 16#32, 4#32⟩ ∧ t.pc = 4#32 ∧ t.hist = 0x380#10 ∧
      t.counter 0x308#10 = 3#2 := by decide

/-- Cycle 13 of section 4: the retiring `hlt` ends the cycle, the latches keep their contents. -/
theorem test_pipeline_halt_freezes :
    let s := { pipeAt .pipelined [0xE4000000] with
      xr := some ⟨.halt, 12#32, 16#32⟩, dr := some ⟨.unassigned 0x39#6 ⟨0#5, 0#5, 0#5, 0#32⟩, 16#32, 20#32⟩ }
    (after s).halted = true ∧ (after s).fault = none ∧ (after s).dr = s.dr ∧ (after s).pc = 0#32 := by decide

/-- 60_exceptions.md section 6: the fault of a bad word is raised in execute, with its address. -/
theorem test_pipeline_fault :
    (after (after (after (pipeAt .pipelined [0xE4000000])))).fault =
      some ⟨.invalidOpcode, 0x39#6, 0#32⟩ := by decide

/-- The block right after reset reads `hlt` from empty memory (20_memory.md R36): in two steps it is decoded. -/
theorem test_reset_fetches_hlt :
    let s := after (after State.reset)
    s.dr = some ⟨.instr (.hlt 0#5 0#5 0#5 0#32), 0#32, 4#32⟩ ∧ s.fr = some ⟨0#32, 4#32, 8#32⟩ ∧ s.pc = 8#32 := by
  decide

/-- From there it halts in two more, four after reset (50_pipeline.md R164). -/
theorem test_reset_halts :
    let s := { State.reset with
      dr := some ⟨.instr (.hlt 0#5 0#5 0#5 0#32), 0#32, 4#32⟩, fr := some ⟨0#32, 4#32, 8#32⟩ }
    (after s).halted = false ∧ (after (after s)).halted = true := by decide

/-- The host's placing of a word: the very next step runs it. -/
theorem test_withFetchWord_runs :
    let s := State.reset.withFetchWord 32 0xC01EE80E
    (after s).reg 0#5 = 14#32 ∧ (after s).pc = 4#32 := by decide

/-- `TrainTaken(36, 12)` once from reset (51_predictor.md R199). -/
theorem test_train_taken_once :
    let s := (State.boot .predicted []).trainTaken 36#32 12#32
    s.counter 0x24#10 = 3#2 ∧ s.hist = 0x200#10 ∧ s.jumpTarget 36#32 = some 12#32 := by decide

/-- A write of the value that an unlisted address reads as removes the entries. -/
theorem test_memory_canonical : memWrite (memWrite [] 6#32 0xFF#32) 4#32 0#32 = [] ∧
    memWrite [] 6#32 0xFF#32 = [(4, 0xFF#8)] := by decide

/-! ### Witnesses: a state and operands that meet the hypotheses of each statement -/

theorem witness_EncodeThenDecode :
    (Instr.st 31#5 7#5 29#5 0xFFFFFC00#32).wf = true ∧ (Instr.hlt 0#5 0#5 0#5 1023#32).wf = true := by decide

theorem witness_DecodeThenEncode : decode 0x47E7EFFF#32 = .instr (.st 31#5 7#5 29#5 0xFFFFFFFF#32) := by decide

theorem witness_OpcodeAssignments :
    opcodeOf 0x50000000#32 ∈ [0x14#6, 0x15#6, 0x24#6, 0x25#6] ∧
      opcodeOf 0x94000000#32 ∈ [0x14#6, 0x15#6, 0x24#6, 0x25#6] := by decide

theorem witness_VectorFormRoundTrip :
    (VectorForm.full .st .rPC (.idx 31) .rIMM (-1024)).legal = true ∧
      (VectorForm.cond .ifeq (.idx 0) .rZERO 1023).legal = true ∧ VectorForm.hlt.legal = true := by decide

theorem witness_ImmediateIsSignExtended :
    (sext11 0x400#11).toInt = -1024 ∧ (sext11 0x3FF#11).toInt = 1023 ∧ (sext11 0x400#11).getLsbD 31 = true := by
  decide

theorem witness_OperandRead : (30#5 : RegIdx) ≠ 31#5 := by decide

theorem witness_MemoryWrite :
    execDecoded ⟨.instr (.st 1#5 30#5 30#5 0#32), 256#32, 260#32⟩ (serialAt 256 0 [(1, 171)] []) =
      .command (.memory 0#32 171#32) := by decide

theorem witness_UnsetMemoryHalts :
    let s := State.boot .serial [(8, 1#8)]
    let p := State.boot .predicted [(8, 1#8)]
    s.Running ∧ s.variant = .serial ∧ p.Running ∧ p.Piped ∧
      (∀ k, k < 4 → assocFind ((roundDown (s.reg 31#5)).toNat + k) s.mem = none) ∧
      (∀ k, k < 4 → assocFind ((roundDown (p.reg 31#5)).toNat + k) p.mem = none) := by decide

theorem witness_drained (v : Variant) (m0 : Memory) : (State.boot v m0).Drained := ⟨rfl, rfl, rfl, rfl, rfl⟩

theorem witness_HaltInstruction :
    ({ pipeAt .predicted [] with xr := some ⟨.halt, 0#32, 4#32⟩ } : State).xr = some ⟨.halt, 0#32, 4#32⟩ := rfl

theorem witness_LoadInstruction :
    let s := serialAt 256 0x40A2F000 [(2, 1280)] []
    ∀ k, k < 4 → assocFind ((effAddr (s.operand 2#5 0#32) (s.operand 30#5 0#32)).toNat + k) s.mem = none := by
  decide

theorem witness_PushOrdinary :
    let s := { pipeAt .pipelined [] with
      fr := some ⟨0x481C0000#32, 8#32, 12#32⟩, xr := some ⟨.registers 5#5 1#32, 4#32, 8#32⟩ }
    s.dq = [] ∧ s.fr = some ⟨0x481C0000#32, 8#32, 12#32⟩ ∧
      decode 0x481C0000#32 = .instr (.push 0#5 28#5 0#5 0#32) ∧
      hazard (.instr (.sub 28#5 28#5 29#5 4#32)) s.xr = false ∧
      (28#5 : RegIdx).toNat ≤ 28 ∧ (0#5 : RegIdx).toNat ≤ 28 ∧ (28#5 : RegIdx) ≠ 0#5 := by decide

theorem witness_PopOrdinary :
    let s := { pipeAt .pipelined [] with
      fr := some ⟨0x4CBC0000#32, 8#32, 12#32⟩, xr := some ⟨.registers 5#5 1#32, 4#32, 8#32⟩ }
    s.dq = [] ∧ s.fr = some ⟨0x4CBC0000#32, 8#32, 12#32⟩ ∧
      decode 0x4CBC0000#32 = .instr (.pop 5#5 28#5 0#5 0#32) ∧
      hazard (.instr (.ld 5#5 28#5 30#5 0#32)) s.xr = false ∧
      (28#5 : RegIdx).toNat ≤ 28 ∧ (5#5 : RegIdx).toNat ≤ 28 ∧ (28#5 : RegIdx) ≠ 5#5 := by decide

/-- The clauses on ordinary pointers and destinations at both ends of the range, and on the hidden cells. -/
theorem witness_PushEveryForm_PopEveryForm : (0#5 : RegIdx).toNat ≤ 28 ∧ (28#5 : RegIdx).toNat ≤ 28 ∧
    28 < (29#5 : RegIdx).toNat ∧ (29#5 : RegIdx) ≠ 31#5 ∧ (27#5 : RegIdx) ≠ 28#5 := by decide

theorem witness_ConditionalSkip : Aligned ((serialAt 0xFFFFFFFC 0x881EF000 [] []).reg 31#5) := by decide

theorem witness_DivisionResults :
    let s := serialAt 256 0xC8611000 [(1, 0x80000000), (2, 0xFFFFFFFF)] []
    s.operand 2#5 0#32 ≠ 0#32 ∧ (s.operand 1#5 0#32).toInt = -2 ^ 31 ∧ (s.operand 2#5 0#32).toInt = -1 := by
  decide

theorem witness_DivisionByZeroTraps :
    (serialAt 256 0xC861F000 [(1, 5)] []).operand 30#5 0#32 = 0#32 ∧
    let s := serialAt 256 0xC8611000 [(1, 0x80000000), (2, 0xFFFFFFFF)] []
    (s.operand 1#5 0#32).toInt = -2 ^ 31 ∧ (s.operand 2#5 0#32).toInt = -1 := by decide

theorem witness_DivisionByZeroTraps_forms :
    let s := serialAt 0xFFFFFFFC 0xC861F800 [(1, 5)] []
    s.fault = none ∧ exec (.div 3#5 1#5 31#5 0#32) s = .next (after s) := ⟨by decide, rfl⟩

theorem witness_DivisionByZeroTraps_execute :
    execDecoded ⟨.instr (.mod 1#5 0#5 30#5 0#32), 4#32, 8#32⟩ State.reset =
      .raise ⟨.arithmeticTrap, 0x33#6, 4#32⟩ := by decide

theorem witness_UnusedFieldsIgnored : (28#5 : RegIdx) ≠ 29#5 ∧ (30#5 : RegIdx) ≠ 29#5 := by decide

theorem witness_CanonicalNoop (s : State) :
    Delivers s (serialExec [aluOp 30#5 30#5 30#5 0#32 fun _ _ => 0#32] s) 30#5 0#32 :=
  serialExec_aluOp s 30#5 30#5 30#5 0#32 fun _ _ => 0#32

/-- A pipelined machine whose execute latch holds the command `c` of an instruction at 4. -/
def retiring (v : Variant) (c : Cmd) : State := { pipeAt v [] with xr := some ⟨c, 4#32, 8#32⟩ }

theorem witness_WritebackEffects :
    let s := retiring .predicted .halt
    s.Piped ∧ s.Running ∧ s.xr = some ⟨.halt, 4#32, 8#32⟩ ∧
      (28#5 : RegIdx) ≠ 29#5 ∧ (28#5 : RegIdx) ≠ 30#5 ∧ (28#5 : RegIdx) ≠ 31#5 := by decide

theorem witness_OnlyPcWritesBranch :
    (∀ v ipc npc, (retiring .predicted (.registers 30#5 7#32)).xr ≠ some ⟨.registers 31#5 v, ipc, npc⟩) ∧
    (retiring .predicted (.registers 31#5 43#32)).xr = some ⟨.registers 31#5 43#32, 4#32, 8#32⟩ ∧
    roundDown 43#32 ≠ 8#32 ∧ (retiring .pipelined (.registers 31#5 8#32)).variant ≠ .predicted :=
  ⟨by intro v ipc npc; simp [retiring], rfl, by decide, by decide⟩

theorem witness_InvalidOpcodeRaised :
    let s := serialAt 256 0x90A41FFF [] []
    opcodeOf s.fetchedWord ≠ 0x12#6 ∧ opcodeOf s.fetchedWord ≠ 0x13#6 ∧ s.variant = .serial ∧ s.Running ∧
      opcodeOf s.fetchedWord ∉ executableCodes ∧ (after s).fault.isSome = true ∧
      execDecoded ⟨decode 0xFFFFFFFF#32, 4#32, 8#32⟩ s = .raise ⟨.invalidOpcode, 0x3F#6, 4#32⟩ := by decide

theorem witness_StoppedBlockHolds :
    (after (serialAt 0 0 [] [])).halted = true ∧ (after (serialAt 0 0xE4000000 [] [])).fault ≠ none := by decide

theorem witness_HaltedSetByRetiredHalt :
    let s := retiring .predicted .halt
    let u := serialAt 0 0x00ABCDEF [] []
    step s = .next (after s) ∧ s.Running ∧ s.Piped ∧ s.xr = some ⟨.halt, 4#32, 8#32⟩ ∧
      step u = .next (after u) ∧ u.Running ∧ u.variant = .serial ∧
      decode u.fetchedWord = .instr (.hlt 5#5 11#5 25#5 0xFFFFFDEF#32) :=
  ⟨rfl, by decide, by decide, rfl, rfl, by decide, rfl, by decide⟩

/-- A pipelined machine with the trapping `[:div 1 0 30 0]` of 60_exceptions.md section 6 in the decode latch. -/
def trapping : State := { pipeAt .pipelined [] with
  xr := some ⟨.registers 0#5 7#32, 0#32, 4#32⟩, dr := some ⟨.instr (.div 1#5 0#5 30#5 0#32), 4#32, 8#32⟩ }

theorem witness_PipelinedFaultsArePrecise :
    trapping.Piped ∧ trapping.fault = none ∧ step trapping = .next (after trapping) ∧
      (after trapping).fault = some ⟨.arithmeticTrap, 0x32#6, 4#32⟩ ∧ (after trapping).reg 0#5 = 7#32 :=
  ⟨by decide, rfl, rfl, by decide, by decide⟩

theorem witness_SerialFaultsArePrecise :
    let s := serialAt 256 0xC861F000 [(1, 5)] []
    s.variant = .serial ∧ s.fault = none ∧ step s = .next (after s) ∧
      (after s).fault = some ⟨.arithmeticTrap, 0x32#6, 256#32⟩ :=
  ⟨rfl, rfl, rfl, by decide⟩

theorem witness_OnlyWritebackMutates :
    let s := retiring .pipelined (.memory 4#32 9#32)
    s.Piped ∧ s.Running ∧ step s = .next (after s) ∧ (0#5 : RegIdx).toNat ≤ 28 ∧ (28#5 : RegIdx).toNat ≤ 28 :=
  ⟨by decide, by decide, rfl, by decide, by decide⟩

theorem witness_SerialStepRunsInstr :
    let s := serialAt 256 0xC01EE80E [] []
    s.variant = .serial ∧ s.Running ∧
      decodeBytes ((List.range 4).map fun k => readByte s.mem ((roundDown (s.reg 31#5)).toNat + k)) =
        .ok (.add 0#5 30#5 29#5 14#32, []) :=
  ⟨rfl, by decide, rfl⟩

theorem witness_DrainedPipelineRunsInstr :
    let s := pipeAt .predicted [0xC8611000]
    s.Piped ∧ s.Running ∧ s.Drained ∧
      decode (memRead s.mem (s.reg 31#5)) = .instr (.div 3#5 1#5 2#5 0#32) ∧
      (∀ d a b imm, Instr.div 3#5 1#5 2#5 0#32 ≠ .push d a b imm ∧ Instr.div 3#5 1#5 2#5 0#32 ≠ .pop d a b imm) :=
  ⟨by decide, by decide, ⟨rfl, rfl, rfl, rfl, rfl⟩, by decide, by intro d a b imm; simp⟩

/-- The six forms of the statement on macros: the pointer ordinary, 29, 30; the popped register the pointer. -/
theorem witness_DrainedPipelineRunsMacro :
    (pipeAt .predicted [0x481C0000]).Drained ∧ (pipeAt .predicted [0x481C0000]).Piped ∧
    (pipeAt .predicted [0x481C0000]).Running ∧
    decode (memRead (pipeAt .predicted [0x481C0000]).mem 0#32) = .instr (.push 0#5 28#5 0#5 0#32) ∧
    decode (memRead (pipeAt .pipelined [0x481E0000]).mem 0#32) = .instr (.push 0#5 30#5 0#5 0#32) ∧
    decode (memRead (pipeAt .pipelined [0x4CBC0000]).mem 0#32) = .instr (.pop 5#5 28#5 0#5 0#32) ∧
    decode (memRead (pipeAt .pipelined [0x4F9C0000]).mem 0#32) = .instr (.pop 28#5 28#5 0#5 0#32) ∧
    (pipeAt .predicted [0x481C0000]).reg 31#5 = 0#32 ∧ (pipeAt .pipelined [0x481E0000]).reg 31#5 = 0#32 ∧
    (pipeAt .pipelined [0x4CBC0000]).reg 31#5 = 0#32 ∧ (pipeAt .pipelined [0x4F9C0000]).reg 31#5 = 0#32 :=
  ⟨⟨rfl, rfl, rfl, rfl, rfl⟩, by decide, by decide, by decide, by decide, by decide, by decide, by decide,
    by decide, by decide, by decide⟩

theorem witness_FetchStage :
    (pipeAt .pipelined []).stall = 0#32 ∧ (pipeAt .pipelined []).variant ≠ .predicted ∧
    (pipeAt .predicted []).stall = 0#32 ∧ (pipeAt .predicted []).variant = .predicted ∧
    ({ pipeAt .pipelined [] with stall := 1#32 } : State).stall ≠ 0#32 ∧
    ((pipeAt .predicted []).dq ≠ [] → (pipeAt .predicted []).fr = none) := by decide

/-- A pipelined machine in which `add 28 0 0 0` in `FR` depends on the instruction in `DR`. -/
def dependent : State := { pipeAt .pipelined [0xC01EEBE8, 0xC3800000] with
  dr := some ⟨.instr (.add 0#5 30#5 29#5 1000#32), 0#32, 4#32⟩, fr := some ⟨0xC3800000#32, 4#32, 8#32⟩ }

theorem witness_HazardDetector :
    dependent.Piped ∧ dependent.Running ∧ step dependent = .next (after dependent) ∧
      (after dependent).Running ∧ hazard (expand (decode 0xC3800000#32)).1 (after dependent).xr = true :=
  ⟨by decide, by decide, rfl, by decide, by decide⟩

theorem witness_DecodeStage :
    let u : InFlight := ⟨.instr (.st 0#5 28#5 30#5 0#32), 8#32, 12#32⟩
    let held := { retiring .pipelined (.registers 28#5 1996#32) with dq := [u] }
    let replayed := { retiring .pipelined (.registers 0#5 1#32) with fr := some ⟨0xC3800000#32, 4#32, 8#32⟩ }
    let issued := { retiring .pipelined (.registers 1#5 1#32) with fr := some ⟨0xC3800000#32, 4#32, 8#32⟩ }
    let issuing := { retiring .pipelined (.registers 1#5 1#32) with fr := some ⟨0x481C0000#32, 4#32, 8#32⟩ }
    held.dq = [u] ∧ hazard u.op held.xr = true ∧ hazard u.op issued.xr = false ∧
    replayed.dq = [] ∧ hazard (expand (decode 0xC3800000#32)).1 replayed.xr = true ∧
    issued.dq = [] ∧ decode 0xC3800000#32 = .instr (.add 28#5 0#5 0#5 0#32) ∧
    hazard (.instr (.add 28#5 0#5 0#5 0#32)) issued.xr = false ∧
    issuing.dq = [] ∧ decode 0x481C0000#32 = .instr (.push 0#5 28#5 0#5 0#32) ∧
    hazard (.instr (.sub 28#5 28#5 29#5 4#32)) issuing.xr = false ∧
    (pipeAt .pipelined []).dq = [] ∧ (pipeAt .pipelined []).fr = none := by decide

theorem witness_DecodeStage_pop_unassigned :
    let s := retiring .pipelined (.registers 1#5 1#32)
    s.dq = [] ∧ { s with fr := some ⟨0x4C1C0000#32, 4#32, 8#32⟩ }.fr = some ⟨0x4C1C0000#32, 4#32, 8#32⟩ ∧
    decode 0x4C1C0000#32 = .instr (.pop 0#5 28#5 0#5 0#32) ∧
    hazard (.instr (.ld 0#5 28#5 30#5 0#32)) s.xr = false ∧
    decode 0xE4000000#32 = .unassigned 0x39#6 ⟨0#5, 0#5, 0#5, 0#32⟩ ∧
    hazard (.unassigned 0x39#6 ⟨0#5, 0#5, 0#5, 0#32⟩) s.xr = false := by decide

theorem witness_ExecuteStage :
    (pipeAt .pipelined []).dr = none ∧
    execDecoded ⟨.instr (.add 0#5 30#5 29#5 1000#32), 0#32, 4#32⟩ dependent = .command (.registers 0#5 1000#32) ∧
    trapping.Piped ∧ trapping.Running ∧ (writebackStage trapping).halted = false ∧
    (writebackStage trapping).dr = some ⟨.instr (.div 1#5 0#5 30#5 0#32), 4#32, 8#32⟩ ∧
    execDecoded ⟨.instr (.div 1#5 0#5 30#5 0#32), 4#32, 8#32⟩ (writebackStage trapping) =
      .raise ⟨.arithmeticTrap, 0x32#6, 4#32⟩ := by decide

theorem witness_PcWriteFlushes_FlushRefetchesTarget :
    let s := retiring .pipelined (.registers 31#5 43#32)
    s.variant = .pipelined ∧ s.Piped ∧ s.xr = some ⟨.registers 31#5 43#32, 4#32, 8#32⟩ ∧ s.Running ∧
      s.stall = 0#32 ∧ (s.variant = .predicted → roundDown 43#32 ≠ 8#32) ∧ step s = .next (after s) :=
  ⟨rfl, by decide, rfl, by decide, rfl, by decide, rfl⟩

theorem witness_FlushRefetchesTarget_predicted :
    let s := retiring .predicted (.registers 31#5 12#32)
    s.variant = .predicted ∧ s.Piped ∧ s.xr = some ⟨.registers 31#5 12#32, 4#32, 8#32⟩ ∧ s.Running ∧
      s.stall = 0#32 ∧ roundDown 12#32 ≠ 8#32 ∧ step s = .next (after s) :=
  ⟨rfl, by decide, rfl, by decide, rfl, by decide, rfl⟩

theorem witness_PredictedRetirement :
    let hit := retiring .predicted (.registers 31#5 11#32)
    let miss := retiring .predicted (.registers 31#5 12#32)
    hit.variant = .predicted ∧ hit.xr = some ⟨.registers 31#5 11#32, 4#32, 8#32⟩ ∧ roundDown 11#32 = 8#32 ∧
      miss.xr = some ⟨.registers 31#5 12#32, 4#32, 8#32⟩ ∧ roundDown 12#32 ≠ 8#32 := by decide

theorem witness_inv : (retiring .predicted (.memory 0#32 0x1234#32)).Inv := by
  refine ⟨rfl, by decide, by decide, by decide, fun _ h => ?_, fun _ h => ?_, fun _ h => ?_, fun x h => ?_, rfl,
    ⟨rfl, fun _ h => ?_, rfl, fun _ h => ?_⟩⟩
  · cases h
  · cases h
  · cases h
  · cases h
    exact ⟨by decide, by decide, by unfold Cmd.Ok; decide⟩
  · cases h
  · cases h

theorem witness_StoreVisibleToFetch_StepKeepsInvariant :
    let s := retiring .predicted (.memory 0#32 0x1234#32)
    s.Inv ∧ s.Piped ∧ s.Running ∧ step s = .next (after s) ∧ (after s).Running ∧
      (after s).fr = some ⟨0x1234#32, 0#32, 4#32⟩ :=
  ⟨witness_inv, by decide, by decide, rfl, by decide, by decide⟩

theorem witness_WriteFirst :
    let s := { retiring .pipelined (.registers 28#5 7#32) with
      dr := some ⟨.instr (.add 29#5 28#5 30#5 0#32), 8#32, 12#32⟩ }
    let m := { retiring .pipelined (.memory ((pipeAt .pipelined []).reg 0#5) 7#32) with
      dr := some ⟨.instr (.ld 30#5 0#5 30#5 0#32), 8#32, 12#32⟩ }
    s.Piped ∧ s.Running ∧ (28#5 : RegIdx).toNat ≤ 28 ∧ (29#5 : RegIdx) ≠ 31#5 ∧
      s.xr = some ⟨.registers 28#5 7#32, 4#32, 8#32⟩ ∧ m.Piped ∧ m.Running ∧
      m.xr = some ⟨.memory (m.reg 0#5) 7#32, 4#32, 8#32⟩ := by decide

theorem witness_PredictionRule :
    let s := { pipeAt .predicted [] with jumpMap := [(0, 16#32)] }
    s.variant = .predicted ∧ s.stall = 0#32 ∧ s.predict (s.reg 31#5) = some 16#32 ∧
      (pipeAt .predicted []).predict 0#32 = none ∧ assocFind (8#10).toNat s.table = none := by decide

theorem witness_TrainingSaturates : 13 ≤ 13 := by decide

theorem witness_PredictorChangedByBranches :
    let s := retiring .predicted (.registers 31#5 16#32)
    let u := { retiring .predicted (.registers 1#5 16#32) with jumpMap := [(4, 16#32)] }
    step s = .next (after s) ∧ (after s).counter 4#10 = 3#2 ∧ s.counter 4#10 = 2#2 ∧
      (∀ v ipc npc, u.xr ≠ some ⟨.registers 31#5 v, ipc, npc⟩) ∧ u.jumpTarget 4#32 ≠ none ∧
      (retiring .pipelined (.registers 31#5 16#32)).variant ≠ .predicted :=
  ⟨rfl, by decide, by decide, by intro v ipc npc; simp [retiring], by decide, by decide⟩

theorem witness_ResetValues : assocFind 5 [(4, 0xFF#8), (7, 1#8)] = none := by decide

theorem witness_ResetMeetsInvariant : Memory.wf [(4, 0xFF#8), (7, 1#8)] = true := by decide

/-! A legal program: `[:st 29 30 29 64]` at 0, which stores 64 at 256, and `hlt` at 4. -/

def legalImage : Memory := memWrite [] 0#32 (VectorForm.full .st .rIMM .rZERO .rIMM 64).word
def legal0 : State := State.boot .serial legalImage
def legal1 : State := after legal0
def legal2 : State := after legal1

theorem legal_runs (n : Nat) (t : State) (h : Reaches legal0 n t) :
    (n = 0 ∧ t = legal0) ∨ (n = 1 ∧ t = legal1) ∨ t = legal2 := by
  have h0 : step legal0 = .next legal1 := rfl
  have h1 : step legal1 = .next legal2 := rfl
  have h2 : step legal2 = .next legal2 := rfl
  have stays : ∀ n, runSteps n legal2 = .next legal2 := by
    intro n
    induction n with
    | zero => rfl
    | succ n ih => rw [runSteps, h2]; exact ih
  unfold Reaches at h
  match n, h with
  | 0, h => cases h; exact .inl ⟨rfl, rfl⟩
  | 1, h => rw [runSteps, h0] at h; cases h; exact .inr (.inl ⟨rfl, rfl⟩)
  | n + 2, h =>
    rw [runSteps, h0] at h
    simp only at h
    rw [runSteps, h1] at h
    simp only at h
    rw [stays] at h
    cases h
    exact .inr (.inr rfl)

theorem witness_VariantsAgree : legalImage.wf = true ∧ Legal legalImage ∧ Variant.predicted ≠ .serial := by
  have i0 : legal0.nextInstr = some (.st 29#5 30#5 29#5 64#32) := by decide
  have i1 : legal1.nextInstr = some (.hlt 0#5 0#5 0#5 0#32) := by decide
  have s2 : legal2.stopped = true := by decide
  refine ⟨by decide, ⟨⟨2, legal2, rfl, s2⟩, ?_, ?_⟩, by decide⟩
  · intro n t i h hs hi
    rcases legal_runs n t h with ⟨-, rfl⟩ | ⟨-, rfl⟩ | rfl
    · rw [i0] at hi; cases hi; rfl
    · rw [i1] at hi; cases hi; rfl
    · rw [s2] at hs; cases hs
  · intro n t i c k u h hs hi hc hu hus
    have hpc : norm u.pc = 0#32 ∨ norm u.pc = 4#32 := by
      rcases legal_runs k u hu with ⟨-, rfl⟩ | ⟨-, rfl⟩ | rfl
      · exact .inl (by decide)
      · exact .inr (by decide)
      · rw [s2] at hus; cases hus
    rcases legal_runs n t h with ⟨-, rfl⟩ | ⟨-, rfl⟩ | rfl
    · rw [i0] at hi
      cases hi
      have : storeCell legal0 (.st 29#5 30#5 29#5 64#32) = some 256#32 := by decide
      rw [this] at hc
      cases hc
      rcases hpc with e | e <;> rw [e] <;> decide
    · rw [i1] at hi; cases hi; cases hc
    · rw [s2] at hs; cases hs

end Sys2Proof.Tests
end

section
/-!
SUPPORT. `halted` (10_state.md R18) and the reset values (R28): the micro-ops a serial step executes, which
commands and operations halt, `halted` after each variant's step, and what a register, a counter and the
jump-map read after reset; then the statements O35 and O57 from these.
-/

namespace Sys2Proof.Machine

/-! ### What a serial step executes -/

/-- The operations of a decoded instruction in the order they execute: its expansion of 50_pipeline.md R147. -/
def microOps (D : Decoded) : List ExecOp := decodedOp (expand D).1 :: (expand D).2.map decodedOp

/-- The meaning of an instruction is the serial execution of its micro-ops (40_execute_common.md R86). -/
theorem exec_eq_microOps (i : Instr) (s : State) :
    exec i s = .next (serialExec (microOps (.instr i)) s) := by
  cases i <;> rfl

theorem execUnassigned_eq_microOps (c : Opcode) (f : Fields) (s : State) :
    execUnassigned c s = .next (serialExec (microOps (.unassigned c f)) s) := rfl

/-- A running serial machine executes the micro-ops of the fetched word (R84). -/
theorem serialStep_of_running {s : State} (h : s.Running) :
    serialStep s = .next (serialExec (microOps (decode s.fetchedWord)) s) := by
  rw [serialStep, (running_iff s).2 h]
  cases decode s.fetchedWord with
  | instr i => exact exec_eq_microOps i s
  | unassigned c f => exact execUnassigned_eq_microOps c f s

/-- A stopped machine holds, in every variant (50_pipeline.md R141, 60_exceptions.md R214). -/
theorem step_of_stopped {s : State} (h : s.stopped = true) : step s = .next s := by
  by_cases hv : s.variant = .serial
  · simp [step_serial hv, serialStep, h]
  · simp [step_piped hv, pipeStep, h]

/-! ### Operations that give no halt command -/

/-- An operation that gives a halt command in no state. -/
def NeverHalts (op : ExecOp) : Prop := ∀ ipc s, op ipc s ≠ .command .halt

section NeverHalts
variable {d a b : RegIdx} {i : Word} {c : Opcode}

theorem neverHalts_aluOp {f : Word → Word → Word} : NeverHalts (aluOp d a b i f) :=
  fun _ _ => by simp [aluOp]

theorem neverHalts_condOp {f : Word → Word → Bool} : NeverHalts (condOp a b i f) :=
  fun _ _ => by simp [condOp]

theorem neverHalts_invalidOp : NeverHalts (invalidOp c) :=
  fun _ _ => by simp [invalidOp]

theorem neverHalts_divOp {f : Word → Word → Word} : NeverHalts (divOp c d a b i f) := by
  intro ipc s
  unfold divOp
  split_ifs
  · simp
  · exact neverHalts_aluOp ipc s

theorem neverHalts_ldOp : NeverHalts (ldOp d a b i) := fun _ _ => by simp [ldOp]

theorem neverHalts_stOp : NeverHalts (stOp d a b i) := fun _ _ => by simp [stOp]

end NeverHalts

/-- A decoded `hlt`, whatever its fields (41_halt.md R90). -/
abbrev IsHlt (D : Decoded) : Prop := ∃ d a b i, D = .instr (.hlt d a b i)

/-- No rule but that of `hlt` gives a halt command. -/
theorem neverHalts_instrOp {i : Instr} (h : ∀ d a b imm, i ≠ .hlt d a b imm) :
    NeverHalts (instrOp i) := by
  cases i with
  | hlt d a b imm => exact absurd rfl (h d a b imm)
  | ld => exact neverHalts_ldOp
  | st => exact neverHalts_stOp
  | push | pop | pushall | popall | call | intr => exact neverHalts_invalidOp
  | iflt | ifle | ifeq | ifne => exact neverHalts_condOp
  | div | mod => exact neverHalts_divOp
  | nand => exact neverHalts_aluOp (f := fun x y => ~~~(x &&& y))
  | add | sub | mul | and | or | xor | sl | sr | sal | sar => exact neverHalts_aluOp

/-- No micro-op of a word other than `hlt` gives a halt command. -/
theorem neverHalts_of_mem_microOps {D : Decoded} (h : ¬ IsHlt D) : ∀ op ∈ microOps D, NeverHalts op := by
  cases D with
  | unassigned c f => exact List.forall_mem_singleton.2 neverHalts_invalidOp
  | instr i =>
    have hi : NeverHalts (instrOp i) :=
      neverHalts_instrOp fun d a b imm e => h ⟨d, a, b, imm, congrArg _ e⟩
    cases i with
    | push => exact List.forall_mem_cons.2 ⟨neverHalts_aluOp, List.forall_mem_singleton.2 neverHalts_stOp⟩
    | pop => exact List.forall_mem_cons.2 ⟨neverHalts_ldOp, List.forall_mem_singleton.2 neverHalts_aluOp⟩
    | _ => exact List.forall_mem_singleton.2 hi

/-- The normalisation of `Exec` makes no halt command. -/
theorem runOp_ne_halt {op : ExecOp} (h : NeverHalts op) (ipc : Word) (s : State) :
    runOp op ipc s ≠ .command .halt := by
  cases e : op ipc s with
  | raise f => simp [runOp_raise e]
  | command c =>
    cases c with
    | registers r v => simp [runOp_registers e]
    | memory a v => simp [runOp_memory e]
    | halt => exact absurd e (h ipc s)

/-! ### `halted` after a writeback and after a step -/

/-- Writeback sets `halted` for a halt command only and never clears it (40_execute_common.md R76). -/
theorem writeback_halted_iff (s : State) (c : Cmd) :
    (s.writeback c).halted = true ↔ s.halted = true ∨ c = .halt := by
  cases c <;> simp [State.writeback]

/-- Operations that never halt leave `halted` as it is, whether they retire or fault. -/
theorem retireOps_halted_iff {ops : List ExecOp} (h : ∀ op ∈ ops, NeverHalts op) (ipc : Word) (s : State) :
    (retireOps ipc ops s).halted = true ↔ s.halted = true := by
  induction ops generalizing s with
  | nil => rfl
  | cons op rest ih =>
    obtain ⟨hop, hrest⟩ := List.forall_mem_cons.1 h
    cases e : runOp op ipc s with
    | raise f => rw [retireOps_raise e, raise_halted]
    | command c =>
      have hc : c ≠ .halt := fun hc => runOp_ne_halt hop ipc s (hc ▸ e)
      rw [retireOps_command e, ih hrest, writeback_halted_iff]
      simp [hc]

/-- The serial execution of a word sets `halted` exactly for `hlt`. -/
theorem serialExec_microOps_halted_iff (D : Decoded) (s : State) :
    (serialExec (microOps D) s).halted = true ↔ s.halted = true ∨ IsHlt D := by
  by_cases hD : IsHlt D
  · have he : serialExec (microOps D) s = (s.setPc (s.pc + 4#32)).halt := by
      obtain ⟨d, a, b, i, rfl⟩ := hD
      exact serialExec_halt rfl
    simp [he, hD]
  · rw [serialExec, retireOps_halted_iff (neverHalts_of_mem_microOps hD), setPc_halted]
    simp [hD]

/-- The writeback stage sets `halted` exactly for a halt command in `XR`. -/
theorem writebackStage_halted_iff (s : State) :
    (writebackStage s).halted = true ↔ s.halted = true ∨ ∃ ipc npc, s.xr = some ⟨.halt, ipc, npc⟩ := by
  rcases writebackStage_cases s with ⟨hx, h⟩ | ⟨v, ipc, npc, hx, h⟩ | ⟨c, ipc, npc, hx, -, h⟩
  · simp [h, hx]
  · simp [h, hx]
  · simp [h, hx, writeback_halted_iff]

/-- In a running pipeline only the writeback stage touches `halted`. -/
theorem pipeStep_halted_of_running {s : State} (h : s.Running) :
    (pipeStep s).halted = (writebackStage s).halted := by
  have hs : s.stopped = false := (running_iff s).2 h
  rcases pipeStep_cases s with ⟨h0, -⟩ | ⟨-, -, e⟩ | ⟨-, -, -, e⟩ | ⟨-, -, -, e⟩
  · simp [hs] at h0
  · rw [e]
  · rw [e, executeStage_halted]
  · rw [e, frontEnd_halted, executeStage_halted]

/-! ### What reset leaves -/

section BootReads
variable (v : Variant) (m0 : Memory)

@[simp] theorem boot_reg (r : RegIdx) : (State.boot v m0).reg r = 0#32 := by
  simp [State.reg, State.boot, Config.resetPc]

@[simp] theorem boot_counter (k : BitVec 10) : (State.boot v m0).counter k = 2#2 := rfl

@[simp] theorem boot_jumpTarget (ipc : Word) : (State.boot v m0).jumpTarget ipc = none := rfl

end BootReads

/-- An unlisted byte reads 0 (20_memory.md R33). -/
theorem readByte_unlisted {m : Memory} {n : Nat} (h : assocFind n m = none) : readByte m n = 0#8 := by
  rw [readByte, h]; rfl

/-! ### The statements -/

/-- After a step `halted` holds exactly when it held before, or a halt command retired. -/
theorem step_halted_iff {s t : State} (hst : step s = .next t) : t.halted = true ↔
    s.halted = true ∨
    (s.Running ∧ s.Piped ∧ ∃ ipc npc, s.xr = some ⟨.halt, ipc, npc⟩) ∨
    (s.Running ∧ s.variant = .serial ∧ IsHlt (decode s.fetchedWord)) := by
  by_cases hrun : s.Running
  · by_cases hv : s.variant = .serial
    · rw [step_serial hv, serialStep_of_running hrun] at hst
      cases hst
      simp [serialExec_microOps_halted_iff, State.Running, hrun, hv]
    · rw [step_piped hv] at hst
      cases hst
      simp [pipeStep_halted_of_running hrun, writebackStage_halted_iff, State.Running, State.Piped, hrun, hv]
  · have hstop : s.stopped = true := by
      simpa using mt (running_iff s).1 hrun
    rw [step_of_stopped hstop] at hst
    cases hst
    tauto

/-- Settles O35: stopped machines hold; in a running one the serial execution and the writeback stage are the
only places that touch `halted`, and each sets it for a halt command alone. -/
theorem haltedSetByRetiredHalt : Obligations.HaltedSetByRetiredHalt := by
  refine ⟨boot_halted, fun s t hst => step_halted_iff hst, fun s h => ?_, fun m0 s => boot_halted ..⟩
  exact step_of_stopped ((stopped_iff s).2 (.inl h))

/-- Settles O57, field by field from the reads of the reset state. -/
theorem resetValues : Obligations.ResetValues := by
  intro v m0
  exact ⟨boot_reg v m0, boot_mem v m0, fun n hn => readByte_unlisted hn, boot_halted v m0, boot_fault v m0,
    boot_out v m0, boot_fr v m0, boot_dr v m0, boot_xr v m0, boot_dq v m0, boot_stall v m0, boot_hist v m0,
    boot_counter v m0, boot_jumpTarget v m0⟩

end Sys2Proof.Machine
end

section
/-!
SUPPORT. Memory (20_memory.md R34, R36): which operations give a memory command, and how the word that a
drained pipeline fetches travels to writeback; then the statements O11 and O12 from these.
-/

namespace Sys2Proof.Machine

/-! ### Operations that give register commands alone -/

/-- Every command that an operation gives, in whatever state, is a register command. -/
def OnlyRegisters (op : ExecOp) : Prop := ∀ ipc s c, op ipc s = .command c → ∃ r v, c = .registers r v

section OnlyRegisters
variable {d a b : RegIdx} {i : Word} {c : Opcode}

theorem onlyRegisters_aluOp {f : Word → Word → Word} : OnlyRegisters (aluOp d a b i f) :=
  fun _ _ _ h => ⟨_, _, (ExecResult.command.inj h).symm⟩

theorem onlyRegisters_condOp {f : Word → Word → Bool} : OnlyRegisters (condOp a b i f) :=
  fun _ _ _ h => ⟨_, _, (ExecResult.command.inj h).symm⟩

theorem onlyRegisters_ldOp : OnlyRegisters (ldOp d a b i) :=
  fun _ _ _ h => ⟨_, _, (ExecResult.command.inj h).symm⟩

theorem onlyRegisters_invalidOp : OnlyRegisters (invalidOp c) := fun _ _ _ h => by cases h

theorem onlyRegisters_divOp {f : Word → Word → Word} : OnlyRegisters (divOp c d a b i f) := by
  intro ipc s k h
  unfold divOp at h
  split_ifs at h
  exact onlyRegisters_aluOp ipc s k h

end OnlyRegisters

/-- Only `hlt` and `st` have a rule whose command is not a register command (40_execute_common.md R73). -/
theorem onlyRegisters_instrOp {i : Instr} (hhlt : ∀ d a b imm, i ≠ .hlt d a b imm)
    (hst : ∀ d a b imm, i ≠ .st d a b imm) : OnlyRegisters (instrOp i) := by
  cases i with
  | hlt d a b imm => exact absurd rfl (hhlt d a b imm)
  | st d a b imm => exact absurd rfl (hst d a b imm)
  | ld => exact onlyRegisters_ldOp
  | push | pop | pushall | popall | call | intr => exact onlyRegisters_invalidOp
  | iflt | ifle | ifeq | ifne => exact onlyRegisters_condOp
  | div | mod => exact onlyRegisters_divOp
  | nand => exact onlyRegisters_aluOp (f := fun x y => ~~~(x &&& y))
  | add | sub | mul | and | or | xor | sl | sr | sal | sar => exact onlyRegisters_aluOp

/-! ### Memory commands -/

/-- A memory command of `Exec` is the opcode rule's own: the normalisation makes none. -/
theorem memory_of_runOp_memory {op : ExecOp} {ipc : Word} {s : State} {addr v : Word}
    (h : runOp op ipc s = .command (.memory addr v)) : op ipc s = .command (.memory addr v) := by
  cases e : op ipc s with
  | raise f => simp [runOp_raise e] at h
  | command c =>
    cases c with
    | registers r w => simp [runOp_registers e] at h
    | memory a w => rwa [runOp_memory e] at h
    | halt => simp [runOp_halt e] at h

/-- Only `st` executes to a memory command (42_load_store.md R93). -/
theorem st_of_execDecoded_memory {D : InFlight} {s : State} {addr v : Word}
    (h : execDecoded D s = .command (.memory addr v)) : ∃ d a b i, D.op = .instr (.st d a b i) := by
  have hop : decodedOp D.op D.ipc s = .command (.memory addr v) := memory_of_runOp_memory h
  have notRegisters : ¬ OnlyRegisters (decodedOp D.op) := by
    intro honly
    obtain ⟨r, w, hc⟩ := honly D.ipc s _ hop
    cases hc
  cases hD : D.op with
  | unassigned c f => exact absurd (hD ▸ onlyRegisters_invalidOp) notRegisters
  | instr i =>
    rw [hD] at hop notRegisters
    by_contra hst
    refine notRegisters (onlyRegisters_instrOp (fun d a b imm hi => ?_) fun d a b imm hi => ?_)
    · subst hi; cases hop
    · exact hst ⟨d, a, b, imm, congrArg _ hi⟩

/-- Settles O11: read after write is `memRead_memWrite`; a writeback to an index leaves memory alone; only the
rule of `st` gives a memory command. -/
theorem memoryWrite : Obligations.MemoryWrite := by
  refine ⟨memRead_memWrite, fun s c => ?_, fun s D addr v h => st_of_execDecoded_memory h, fun d a b i => rfl⟩
  cases c with
  | registers r v => exact writeIndex_mem s r v
  | memory addr v => rfl
  | halt => rfl

/-! ### Unset memory is `hlt` -/

/-- The words of an opcode with a row in the table decode to the row's instruction. -/
theorem encodedAs_of_lookup {op : Opcode} {mk : RegIdx → RegIdx → RegIdx → Word → Instr}
    (h : opcodeTable.lookup op = some mk) : EncodedAs op mk := by
  intro d a b v
  simp only [decode, opcodeOf_packFields, h, dOf_packFields, aOf_packFields, bOf_packFields,
    immOf_packFields]

theorem decode_zero : decode 0#32 = .instr (.hlt 0#5 0#5 0#5 0#32) := by decide

/-- With its four bytes unlisted, the cell at the program counter reads 0 (R33). -/
theorem fetchedWord_unset {s : State}
    (h : ∀ k, k < 4 → assocFind ((roundDown (s.reg 31#5)).toNat + k) s.mem = none) :
    s.fetchedWord = 0#32 := by
  rw [roundDown_eq_norm] at h
  exact memRead_unset s.mem s.pc h

/-- The serial reference runs a fetched `hlt` in one step. -/
theorem serialStep_hlt {s : State} (hrun : s.Running) {d a b : RegIdx} {i : Word}
    (hw : decode s.fetchedWord = .instr (.hlt d a b i)) :
    serialStep s = .next (s.setPc (s.pc + 4#32)).halt := by
  rw [serialStep_of_running hrun, hw]
  exact congrArg _ (serialExec_halt rfl)

/-! ### Steps of a pipeline in which nothing retires -/

/-- Nothing retired from `s` to `t`: only the program counter, the latches, the queue, the stall counter and the
predictor may differ. -/
structure NothingRetired (s t : State) : Prop where
  regs : ∀ r : RegIdx, r ≠ 31#5 → t.reg r = s.reg r
  mem : t.mem = s.mem
  out : t.out = s.out
  halted : t.halted = s.halted
  fault : t.fault = s.fault
  variant : t.variant = s.variant

theorem NothingRetired.trans {s t u : State} (h1 : NothingRetired s t) (h2 : NothingRetired t u) :
    NothingRetired s u where
  regs r hr := (h2.regs r hr).trans (h1.regs r hr)
  mem := h2.mem.trans h1.mem
  out := h2.out.trans h1.out
  halted := h2.halted.trans h1.halted
  fault := h2.fault.trans h1.fault
  variant := h2.variant.trans h1.variant

theorem NothingRetired.running {s t : State} (h : NothingRetired s t) (hs : s.Running) : t.Running :=
  ⟨h.halted.trans hs.1, h.fault.trans hs.2⟩

theorem NothingRetired.piped {s t : State} (h : NothingRetired s t) (hs : s.Piped) : t.Piped := by
  rw [State.Piped, h.variant]; exact hs

theorem executeStage_of_bubble {s : State} (h : s.dr = none) : executeStage s = { s with xr := none } := by
  rw [executeStage, h]

theorem executeStage_of_command {s : State} {D : InFlight} {c : Cmd} (hD : s.dr = some D)
    (hc : execDecoded D s = .command c) : executeStage s = { s with xr := some ⟨c, D.ipc, D.npc⟩ } := by
  simp only [executeStage, hD, hc]

/-- With `XR` empty and no fault in execute, a step is execute and the front end. -/
theorem pipeStep_of_xr_none {s : State} (hrun : s.Running) (hxr : s.xr = none)
    (hfault : (executeStage s).fault = none) : pipeStep s = frontEnd (executeStage s) := by
  have hwb : writebackStage s = s := by rw [writebackStage, hxr]
  simp [pipeStep, (running_iff s).2 hrun, hwb, hrun.1, hfault]

/-- With `XR` empty and no fault in execute, nothing retires in a step. -/
theorem nothingRetired_pipeStep {s : State} (hrun : s.Running) (hxr : s.xr = none)
    (hfault : (executeStage s).fault = none) : NothingRetired s (pipeStep s) := by
  rw [pipeStep_of_xr_none hrun hxr hfault]
  constructor <;> simp +contextual [hfault, hrun.2]

/-- With nothing to decode and no stall, the front end fetches the word at `R[31]` (50_pipeline.md R150). -/
theorem frontEnd_of_empty {s : State} (hdq : s.dq = []) (hfr : s.fr = none) (hstall : s.stall = 0#32) :
    (frontEnd s).fr = some ⟨memRead s.mem s.pc, s.pc, s.nextFetch s.pc⟩ ∧ (frontEnd s).dq = [] ∧
      (frontEnd s).dr = none := by
  have hdec : decodeStage s = { s with dr := none } := by simp only [decodeStage, hdq, hfr]
  have hgo := fetchStage_go (decodeStage s) (by rw [hdec]; exact hstall)
  rw [hdec] at hgo
  refine ⟨?_, ?_, ?_⟩
  · rw [frontEnd, stallDec_fr, hdec, hgo]; rfl
  · rw [frontEnd, stallDec_dq, fetchStage_dq, hdec]; exact hdq
  · rw [frontEnd, stallDec_dr, fetchStage_dr, hdec]

/-- With the queue empty and no hazard, the front end issues the first micro-op of the fetched word
(50_pipeline.md R157). -/
theorem frontEnd_dr_of_fetched {s : State} {f : FetchSlot} (hdq : s.dq = []) (hfr : s.fr = some f)
    (hz : hazard (expand (decode f.blob)).1 s.xr = false) :
    (frontEnd s).dr = some ⟨(expand (decode f.blob)).1, f.ipc, f.npc⟩ := by
  rw [frontEnd, stallDec_dr, fetchStage_dr]
  simp [decodeStage, hdq, hfr, hz]

/-- In the first step of a drained pipeline only fetch does anything. -/
theorem pipeStep_of_drained {s : State} (hrun : s.Running) (hs : s.Drained) :
    NothingRetired s (pipeStep s) ∧
      (pipeStep s).fr = some ⟨s.fetchedWord, s.pc, s.nextFetch s.pc⟩ ∧
      (pipeStep s).dq = [] ∧ (pipeStep s).dr = none ∧ (pipeStep s).xr = none := by
  have hex := executeStage_of_bubble hs.dr
  have hfault : (executeStage s).fault = none := by rw [hex]; exact hrun.2
  have hfront : frontEnd (executeStage s) = pipeStep s := (pipeStep_of_xr_none hrun hs.xr hfault).symm
  obtain ⟨hfr, hdq, hdr⟩ := frontEnd_of_empty (s := executeStage s) (by simp [hs.dq]) (by simp [hs.fr])
    (by simp [hs.stall])
  have hxr : (frontEnd (executeStage s)).xr = none := by rw [frontEnd_xr, hex]
  rw [hfront] at hfr hdq hdr hxr
  rw [hex] at hfr
  exact ⟨nothingRetired_pipeStep hrun hs.xr hfault, hfr, hdq, hdr, hxr⟩

/-- A fetched word behind two bubbles is decoded in the next step, and nothing else happens but a fetch. -/
theorem pipeStep_of_fetched {s : State} {f : FetchSlot} (hrun : s.Running) (hfr : s.fr = some f)
    (hdq : s.dq = []) (hdr : s.dr = none) (hxr : s.xr = none) :
    NothingRetired s (pipeStep s) ∧
      (pipeStep s).dr = some ⟨(expand (decode f.blob)).1, f.ipc, f.npc⟩ ∧ (pipeStep s).xr = none := by
  have hex := executeStage_of_bubble hdr
  have hfault : (executeStage s).fault = none := by rw [hex]; exact hrun.2
  refine ⟨nothingRetired_pipeStep hrun hxr hfault, ?_, ?_⟩
  · rw [pipeStep_of_xr_none hrun hxr hfault, hex]
    exact frontEnd_dr_of_fetched hdq hfr rfl
  · rw [pipeStep_of_xr_none hrun hxr hfault, frontEnd_xr, hex]

/-- A decoded instruction that gives a command and has a bubble ahead is in `XR` after the next step. -/
theorem pipeStep_of_decoded {s : State} {D : InFlight} {c : Cmd} (hrun : s.Running) (hdr : s.dr = some D)
    (hxr : s.xr = none) (hc : execDecoded D s = .command c) :
    NothingRetired s (pipeStep s) ∧ (pipeStep s).xr = some ⟨c, D.ipc, D.npc⟩ := by
  have hex := executeStage_of_command hdr hc
  have hfault : (executeStage s).fault = none := by rw [hex]; exact hrun.2
  refine ⟨nothingRetired_pipeStep hrun hxr hfault, ?_⟩
  rw [pipeStep_of_xr_none hrun hxr hfault, frontEnd_xr, hex]

/-- A halt command in `XR` retires and ends the step (40_execute_common.md R76). -/
theorem pipeStep_of_halt {s : State} {ipc npc : Word} (hrun : s.Running)
    (hxr : s.xr = some ⟨.halt, ipc, npc⟩) : pipeStep s = s.halt := by
  have hwb : writebackStage s = s.halt := by rw [writebackStage, hxr]; rfl
  simp [pipeStep, (running_iff s).2 hrun, hwb]

/-! ### Runs -/

/-- A step of a pipelined variant put before a run. -/
theorem reaches_pipeStep {s t : State} {n : Nat} (hs : s.Piped) (h : Reaches (pipeStep s) n t) :
    Reaches s (n + 1) t := by
  rw [Reaches, runSteps, step_piped hs]
  exact h

/-- A drained pipeline has the first micro-op of the word at `R[31]` in `DR` after two steps, with nothing ahead
of it and nothing retired. -/
theorem drained_decodes {s : State} (hrun : s.Running) (hs : s.Drained) :
    NothingRetired s (pipeStep (pipeStep s)) ∧
      (pipeStep (pipeStep s)).dr =
        some ⟨(expand (decode s.fetchedWord)).1, s.pc, s.nextFetch s.pc⟩ ∧
      (pipeStep (pipeStep s)).xr = none := by
  obtain ⟨hkeep1, hfr, hdq, hdr, hxr⟩ := pipeStep_of_drained hrun hs
  obtain ⟨hkeep2, hdr2, hxr2⟩ := pipeStep_of_fetched (hkeep1.running hrun) hfr hdq hdr hxr
  exact ⟨hkeep1.trans hkeep2, hdr2, hxr2⟩

/-- A drained pipeline that fetches `hlt` is halted after four steps, and nothing retired before. -/
theorem drained_hlt_reaches {s : State} (hrun : s.Running) (hpiped : s.Piped) (hs : s.Drained)
    {d a b : RegIdx} {i : Word} (hw : decode s.fetchedWord = .instr (.hlt d a b i)) :
    ∃ t, NothingRetired s t ∧ Reaches s 4 t.halt := by
  obtain ⟨hkeep1, -⟩ := pipeStep_of_drained hrun hs
  obtain ⟨hkeep2, hdr, hxr⟩ := drained_decodes hrun hs
  rw [hw] at hdr
  obtain ⟨hkeep, hxr3⟩ := pipeStep_of_decoded (c := .halt) (hkeep2.running hrun) hdr hxr rfl
  have hkeep3 := hkeep2.trans hkeep
  refine ⟨_, hkeep3, ?_⟩
  refine reaches_pipeStep hpiped (reaches_pipeStep (hkeep1.piped hpiped) (reaches_pipeStep
    (hkeep2.piped hpiped) (reaches_pipeStep (hkeep3.piped hpiped) ?_)))
  rw [pipeStep_of_halt (hkeep3.running hrun) hxr3]
  rfl

/-- Settles O12: the fetched word is 0, which is `hlt`; the serial reference runs it at once, and a drained
pipeline retires it in its fourth step. -/
theorem unsetMemoryHalts : Obligations.UnsetMemoryHalts := by
  refine ⟨encodedAs_of_lookup rfl, fun s hrun hunset => ?_⟩
  have hzero : s.fetchedWord = 0#32 := fetchedWord_unset hunset
  have hhlt : decode s.fetchedWord = .instr (.hlt 0#5 0#5 0#5 0#32) := by rw [hzero, decode_zero]
  refine ⟨hzero, fun hserial => ?_, fun hpiped hdrained => ?_⟩
  · exact ⟨_, (step_serial hserial).trans (serialStep_hlt hrun hhlt), rfl, hrun.2⟩
  · obtain ⟨t, hkeep, hreach⟩ := drained_hlt_reaches hrun hpiped hdrained hhlt
    exact ⟨4, t.halt, hreach, rfl, hkeep.fault.trans hrun.2, fun n => congrArg (readByte · n) hkeep.mem,
      hkeep.out, hkeep.regs⟩

end Sys2Proof.Machine
end

section
/-!
SUPPORT. The encoding as numbers (30_encoding.md R52, R53, R65): a field of a word is a shift and a mask, the
sign extension of the immediate bit by bit and as a number, and the canonical no-op; then the statements O3, O8
and O29 from these.
-/

namespace Sys2Proof.Machine

/-! ### Fields as numbers -/

/-- A field of a word, as the spec writes it: the word shifted down, under a mask of the field's width. -/
theorem toNat_extractLsb'_eq_and (w : Word) (start len : Nat) :
    (w.extractLsb' start len).toNat = (w.toNat >>> start) &&& (2 ^ len - 1) := by
  rw [BitVec.extractLsb'_toNat, Nat.and_two_pow_sub_one_eq_mod]

theorem immFieldOf_eq_ofNat_mod (w : Word) : immFieldOf w = BitVec.ofNat 11 (w.toNat % 2048) := by
  apply BitVec.eq_of_toNat_eq
  rw [immFieldOf, BitVec.extractLsb'_toNat, BitVec.toNat_ofNat, Nat.shiftRight_zero, Nat.mod_mod]

theorem immFieldOf_eq_ofNat_and (w : Word) : immFieldOf w = BitVec.ofNat 11 (w.toNat &&& 0x7FF) := by
  rw [immFieldOf_eq_ofNat_mod]
  exact congrArg _ (Nat.and_two_pow_sub_one_eq_mod w.toNat 11).symm

/-- Settles O3: each projection is a shift and a mask, and decode keeps the word's own opcode and fields. -/
theorem projectionsOfAWord : Obligations.ProjectionsOfAWord := by
  intro w
  refine ⟨toNat_extractLsb'_eq_and w 26 6, toNat_extractLsb'_eq_and w 21 5, toNat_extractLsb'_eq_and w 16 5,
    toNat_extractLsb'_eq_and w 11 5, ?_, decode_icode w, decode_fields w⟩
  rw [immOf, immFieldOf_eq_ofNat_and]

/-! ### The sign extension -/

section Sext11
variable (v : BitVec 11) {k : Nat}

theorem getLsbD_sext11_low (hk : k < 11) : (sext11 v).getLsbD k = v.getLsbD k := by
  have hk32 : k < 32 := by omega
  rw [sext11, BitVec.getLsbD_signExtend, if_pos hk, decide_eq_true hk32, Bool.true_and]

theorem getLsbD_sext11_high (hlo : 11 ≤ k) (hhi : k < 32) : (sext11 v).getLsbD k = v.getLsbD 10 := by
  rw [sext11, BitVec.getLsbD_signExtend, if_neg (by omega), decide_eq_true hhi, Bool.true_and,
    BitVec.msb_eq_getLsbD_last]

theorem toInt_sext11 :
    (sext11 v).toInt = if v.toNat < 1024 then (v.toNat : Int) else (v.toNat : Int) - 2048 := by
  rw [sext11, BitVec.toInt_signExtend_of_le (by omega), BitVec.toInt_eq_toNat_cond]
  split_ifs <;> omega

theorem toInt_sext11_range : -1024 ≤ (sext11 v).toInt ∧ (sext11 v).toInt ≤ 1023 := by
  simpa [immInRange] using immInRange_sext11 v

end Sext11

/-- Settles O8: the sign extension bit by bit and as a number, and the fields of a decoded word are the word's. -/
theorem immediateIsSignExtended : Obligations.ImmediateIsSignExtended := by
  refine ⟨fun v => ⟨fun k hk => getLsbD_sext11_low v hk, fun k hlo hhi => getLsbD_sext11_high v hlo hhi,
    toInt_sext11 v, toInt_sext11_range v⟩, fun w => ?_⟩
  rw [decode_fields, ← immFieldOf_eq_ofNat_mod]
  rfl

/-! ### The canonical no-op -/

theorem noopWord_eq_packFields : Config.noopWord = packFields 0x30#6 30#5 30#5 30#5 0#11 := by decide

theorem decode_noopWord : decode Config.noopWord = .instr (.add 30#5 30#5 30#5 0#32) := by
  rw [noopWord_eq_packFields]
  exact encodedAs_of_lookup (mk := .add) rfl 30#5 30#5 30#5 0#11

/-- Zero written to index 30 is suppressed (40_execute_common.md R75). -/
theorem writeback_zeroIdx_zero (s : State) : s.writeback (.registers 30#5 0#32) = s := rfl

theorem execDecoded_noop (s : State) (ipc npc : Word) :
    execDecoded ⟨.instr (.add 30#5 30#5 30#5 0#32), ipc, npc⟩ s = .command (.registers 30#5 0#32) :=
  runOp_registers (d := 30#5) (v := 0#32) rfl

/-- An instruction that delivers 0 to index 30 changes only the program counter: no register is stored and no
event is emitted. -/
theorem onlyAdvances_of_delivers_zeroIdx_zero {s t : State} (h : Delivers s t 30#5 0#32) : OnlyAdvances s t where
  regs r hr := by
    by_cases hd : r = 30#5
    · subst hd; exact h.hidden (.inr rfl)
    · exact h.others r hr hd
  pc := h.pc
  mem := h.mem
  out := by simpa [eventsOf] using h.out
  halted := h.halted
  micro := h.micro

/-- The no-op is an ALU instruction whose operands both read 0, so it delivers 0 to index 30. -/
theorem exec_noop_delivers (s : State) :
    ∃ t, exec (.add 30#5 30#5 30#5 0#32) s = .next t ∧ Delivers s t 30#5 0#32 :=
  ⟨_, rfl, serialExec_aluOp s 30#5 30#5 30#5 0#32 fun x y => x + y⟩

/-- Settles O29: the no-op's word is a packed `add`, its command is suppressed at writeback, and what it delivers,
0 to index 30, changes only the program counter. -/
theorem canonicalNoop : Obligations.CanonicalNoop := by
  refine ⟨noopWord_eq_packFields, rfl, decode_noopWord, fun s ipc npc => ?_, fun s => ?_, fun s t h => ?_⟩
  · rw [decode_noopWord]
    exact ⟨execDecoded_noop s ipc npc, writeback_zeroIdx_zero s⟩
  · obtain ⟨t, ht, hdel⟩ := exec_noop_delivers s
    exact ⟨t, ht, onlyAdvances_of_delivers_zeroIdx_zero hdel, hdel.fault⟩
  · exact ⟨onlyAdvances_of_delivers_zeroIdx_zero h, h.fault⟩

end Sys2Proof.Machine
end

section
/-!
SUPPORT. Operand reads and the writes of the stages (40_execute_common.md R70, R76, R79, R80): what the writeback
stage does with each command in `XR`, what a whole step leaves of it, and where decode and fetch leave `R[31]`;
then the statements O9, O30 and O38 from these.
-/

namespace Sys2Proof.Machine

/-! ### Operand reads (R70) -/

/-- The operand resolver, index by index: the three special indices read no storage. -/
theorem rd_eq_ite (s : State) (idx : RegIdx) (seq imm : Word) : rd s idx seq imm =
    if idx = 31#5 then seq else if idx = 30#5 then 0#32 else if idx = 29#5 then imm else s.reg idx := by
  split_ifs with h31 h30 h29
  · rw [h31, rd_pcIdx]
  · rw [h30, rd_zeroIdx]
  · rw [h29, rd_immIdx]
  · exact rd_general s idx seq imm (general_of_ne h29 h30 h31)

/-- Settles O9: the resolver by cases on the index; `add` reads both operands with its own `ipc + 4` and
immediate, and a destination other than 31 is not normalised. -/
theorem operandRead : Obligations.OperandRead := by
  refine ⟨rd_eq_ite, fun s d a b i ipc npc hd => ?_⟩
  have hexec : execDecoded ⟨.instr (.add d a b i), ipc, npc⟩ s = _ := runOp_registers rfl
  rw [hexec, if_neg hd]
  rfl

/-! ### The writeback stage on each command in `XR` -/

section WritebackStage
variable {s : State} {ipc npc : Word}

theorem writebackStage_of_bubble (hx : s.xr = none) : writebackStage s = s := by
  rw [writebackStage, hx]

theorem writebackStage_of_memory {addr v : Word} (hx : s.xr = some ⟨.memory addr v, ipc, npc⟩) :
    writebackStage s = s.store addr v := by
  rw [writebackStage, hx]; rfl

theorem writebackStage_of_halt (hx : s.xr = some ⟨.halt, ipc, npc⟩) : writebackStage s = s.halt := by
  rw [writebackStage, hx]; rfl

theorem writebackStage_of_pcWrite {v : Word} (hx : s.xr = some ⟨.registers 31#5 v, ipc, npc⟩) :
    writebackStage s = branchRetire s v ipc npc := by
  rw [writebackStage, hx]; rfl

theorem writebackStage_of_index {q : RegIdx} {v : Word} (hx : s.xr = some ⟨.registers q v, ipc, npc⟩)
    (hq : q ≠ 31#5) : writebackStage s = s.writeIndex q v := by
  simp [writebackStage, hx, hq, State.writeback]

/-- A register command writes no general register but its own destination. -/
theorem writebackStage_reg_of_registers {q r : RegIdx} {v : Word}
    (hx : s.xr = some ⟨.registers q v, ipc, npc⟩) (hr : r.toNat ≤ 28) :
    (writebackStage s).reg r = if q = r then v else s.reg r := by
  obtain ⟨h29, h30, h31⟩ := ne_special_of_le hr
  by_cases hq : q = 31#5
  · subst hq
    rw [writebackStage_of_pcWrite hx, branchRetire_reg _ _ _ _ _ h31, if_neg h31.symm]
  · rw [writebackStage_of_index hx hq, writeIndex_reg, if_neg hq]
    by_cases hqr : q = r
    · subst hqr; simp [h29, h30]
    · simp [hqr, Ne.symm hqr]

/-- A register command leaves memory alone, whatever its index. -/
theorem writebackStage_mem_of_registers {q : RegIdx} {v : Word}
    (hx : s.xr = some ⟨.registers q v, ipc, npc⟩) : (writebackStage s).mem = s.mem := by
  by_cases hq : q = 31#5
  · subst hq
    rw [writebackStage_of_pcWrite hx, branchRetire_mem]
  · rw [writebackStage_of_index hx hq, writeIndex_mem]

end WritebackStage

/-- Settles O30: a halt command and a command to an ordinary index have their one effect, and a retired halt
ends the pipelined step. -/
theorem writebackEffects : Obligations.WritebackEffects := by
  refine ⟨fun s => rfl, fun s x hpiped hrun hx hcmd => ?_, fun s r v h29 h30 h31 => ?_⟩
  · obtain ⟨c, ipc, npc⟩ := x
    obtain rfl : c = .halt := hcmd
    rw [step_piped hpiped, pipeStep_of_halt hrun hx]
    rfl
  · exact writeIndex_general (general_of_ne h29 h30 h31) v

/-! ### The stages after writeback (R80) -/

/-- The register file as a whole is its 32 cells. -/
theorem regs_eq_of_reg {s t : State} (h : ∀ r : RegIdx, t.reg r = s.reg r) : t.regs = s.regs := by
  apply Vector.ext
  intro k hk
  have hcell := h (BitVec.ofNat 5 k)
  have hindex : k % 2 ^ 5 = k := Nat.mod_eq_of_lt hk
  simpa only [State.reg, BitVec.toNat_ofNat, hindex] using hcell

/-- Decode writes `R[31]` only where it replays the fetched instruction (50_pipeline.md R156). -/
theorem decodeStage_reg31 (s : State) :
    (decodeStage s).reg 31#5 = s.reg 31#5 ∨
      ∃ f, s.dq = [] ∧ s.fr = some f ∧ hazard (expand (decode f.blob)).1 s.xr = true ∧
        (decodeStage s).reg 31#5 = f.ipc := by
  rcases decodeStage_cases s with ⟨u, rest, -, -, hold⟩ | ⟨u, rest, -, -, issue⟩ |
    ⟨f, hdq, hfr, hz, replay⟩ | ⟨f, -, -, -, issue⟩ | ⟨-, -, bubble⟩
  · rw [hold]; exact .inl rfl
  · rw [issue]; exact .inl rfl
  · exact .inr ⟨f, hdq, hfr, hz, by rw [replay, setPc_reg31]⟩
  · rw [issue]; exact .inl rfl
  · rw [bubble]; exact .inl rfl

/-- Fetch moves `R[31]` to where it goes next, unless it is stalled (50_pipeline.md R150, R151). -/
theorem fetchStage_reg31 (s : State) : (fetchStage s).reg 31#5 =
    if s.stall = 0#32 then s.nextFetch (s.reg 31#5) else s.reg 31#5 := by
  split_ifs with hstall
  · rw [fetchStage_go s hstall, setPc_reg31, pc_eq]
  · rw [fetchStage_stalled s hstall]

/-- In a running pipeline the writeback stage alone decides memory and every register but `R[31]`. -/
theorem pipeStep_writes_of_running {s : State} (h : s.Running) :
    (∀ r : RegIdx, r ≠ 31#5 → (pipeStep s).reg r = (writebackStage s).reg r) ∧
      (pipeStep s).mem = (writebackStage s).mem := by
  have hs : s.stopped = false := (running_iff s).2 h
  rcases pipeStep_cases s with ⟨hstop, -⟩ | ⟨-, -, halts⟩ | ⟨-, -, -, faults⟩ | ⟨-, -, -, runs⟩
  · simp [hs] at hstop
  · rw [halts]; exact ⟨fun _ _ => rfl, rfl⟩
  · rw [faults]; exact ⟨fun r _ => executeStage_reg _ r, executeStage_mem _⟩
  · rw [runs]
    exact ⟨fun r hr => (frontEnd_reg _ r hr).trans (executeStage_reg _ r),
      (frontEnd_mem _).trans (executeStage_mem _)⟩

/-- Settles O38: stage by stage, then the whole step from what the writeback stage does with the command in
`XR`, which no later stage overwrites. -/
theorem onlyWritebackMutates : Obligations.OnlyWritebackMutates := by
  refine ⟨fun s => ⟨regs_eq_of_reg (executeStage_reg s), executeStage_mem s⟩,
    fun s => ⟨decodeStage_mem s, fun r hr => decodeStage_reg s r hr, decodeStage_reg31 s⟩,
    fun s => ⟨fetchStage_mem s, fun r hr => fetchStage_reg s r hr, fetchStage_reg31 s⟩,
    fun s => ⟨regs_eq_of_reg (stallDec_reg s), stallDec_mem s⟩, fun s t hpiped hrun hst => ?_⟩
  rw [step_piped hpiped] at hst
  cases hst
  obtain ⟨hreg, hmem⟩ := pipeStep_writes_of_running hrun
  have hgeneral : ∀ r : RegIdx, r.toNat ≤ 28 → (pipeStep s).reg r = (writebackStage s).reg r :=
    fun r hr => hreg r (ne_special_of_le hr).2.2
  rw [hmem]
  rcases hx : s.xr with _ | ⟨c, ipc, npc⟩
  · have hwb := writebackStage_of_bubble hx
    exact ⟨fun r hr => by rw [hgeneral r hr, hwb], by rw [hwb]⟩
  · cases c with
    | registers q v =>
      exact ⟨fun r hr => (hgeneral r hr).trans (writebackStage_reg_of_registers hx hr),
        writebackStage_mem_of_registers hx⟩
    | memory addr v =>
      have hwb := writebackStage_of_memory hx
      exact ⟨fun r hr => by rw [hgeneral r hr, hwb, store_reg], by rw [hwb, store_mem]⟩
    | halt =>
      have hwb := writebackStage_of_halt hx
      exact ⟨fun r hr => by rw [hgeneral r hr, hwb, halt_reg], by rw [hwb, halt_mem]⟩

end Sys2Proof.Machine
end

section
/-!
SUPPORT. The instruction `hlt` (41_halt.md R90): what `exec` of it answers and its frame; then the statement O13
from these.
-/

namespace Sys2Proof.Machine

/-- `exec` of `hlt`: the fetch increment, then `halted` (41_halt.md R90, R91). -/
theorem exec_hlt (s : State) (d a b : RegIdx) (i : Word) :
    exec (.hlt d a b i) s = .next (s.setPc (s.pc + 4#32)).halt := by
  have harm : exec (.hlt d a b i) s = .next (serialExec [hltOp d a b i] s) := rfl
  rw [harm, serialExec_halt rfl]

theorem execDecoded_hlt (s : State) (d a b : RegIdx) (i ipc npc : Word) :
    execDecoded ⟨.instr (.hlt d a b i), ipc, npc⟩ s = .command .halt :=
  runOp_halt (op := hltOp d a b i) rfl

/-- The frame of a halt after the fetch increment: beside `halted`, only the program counter moved. -/
theorem onlyAdvances_halt (s : State) : OnlyAdvances s.halt (s.setPc (s.pc + 4#32)).halt where
  regs r hr := by rw [halt_reg, halt_reg, setPc_reg_ne _ _ _ hr]
  pc := by rw [halt_reg, halt_reg, setPc_reg31, pc_eq]
  mem n := by rw [halt_mem, halt_mem, setPc_mem]
  out := by rw [halt_out, halt_out, setPc_out]
  halted := by rw [halt_halted, halt_halted]
  micro := by constructor <;> simp

/-- Settles O13: opcode 0 is `hlt`'s row of the table, and its halt command does one thing wherever it retires:
after the fetch increment in `exec`, alone in the writeback stage. -/
theorem haltInstruction : Obligations.HaltInstruction := by
  refine ⟨encodedAs_of_lookup rfl, by decide, fun s d a b i => ?_, execDecoded_hlt,
    fun s ipc npc hx => writebackStage_of_halt hx⟩
  exact ⟨_, exec_hlt s d a b i, rfl, rfl, onlyAdvances_halt s⟩

end Sys2Proof.Machine
end

section
/-!
SUPPORT. The instructions `ld` and `st` (42_load_store.md R92, R93): what `exec` of each answers and the command of
its execute stage; then the statements O14 and O15 from these.
-/

namespace Sys2Proof.Machine

section LoadStore
variable (s : State) (d a b : RegIdx) (i : Word)

/-- `exec` of `ld`: the word the state's memory holds at the effective address goes where `d` says. -/
theorem exec_ld_delivers : ∃ t, exec (.ld d a b i) s = .next t ∧
    Delivers s t d (memRead s.mem (effAddr (s.operand a i) (s.operand b i))) := by
  have harm : exec (.ld d a b i) s = .next (serialExec [ldOp d a b i] s) := rfl
  refine ⟨_, harm, serialExec_delivers ?_⟩
  simp only [ldOp, rd_setPc, setPc_mem, operand_eq]

/-- The execute stage of `ld` reads memory; the word it read travels in the command. -/
theorem execDecoded_ld (ipc npc : Word) (hd : d ≠ 31#5) :
    execDecoded ⟨.instr (.ld d a b i), ipc, npc⟩ s = .command (.registers d
      (memRead s.mem (effAddr (rd s a (ipc + 4#32) i) (rd s b (ipc + 4#32) i)))) := by
  have hexec : execDecoded ⟨.instr (.ld d a b i), ipc, npc⟩ s = _ := runOp_registers rfl
  rw [hexec, if_neg hd]
  rfl

/-- `exec` of `st`: the fetch increment, then the store; neither changes what its operands read. -/
theorem exec_st : exec (.st d a b i) s = .next ((s.setPc (s.pc + 4#32)).store
    (effAddr (s.operand a i) (s.operand b i)) (s.operand d i)) := by
  have harm : exec (.st d a b i) s = .next (serialExec [stOp d a b i] s) := rfl
  rw [harm, serialExec_store]
  simp only [stOp, rd_setPc, operand_eq]

/-- The execute stage of `st` writes nothing: address and value travel in a memory command. -/
theorem execDecoded_st (ipc npc : Word) :
    execDecoded ⟨.instr (.st d a b i), ipc, npc⟩ s = .command (.memory
      (effAddr (rd s a (ipc + 4#32) i) (rd s b (ipc + 4#32) i)) (rd s d (ipc + 4#32) i)) :=
  runOp_memory (op := stOp d a b i) rfl

end LoadStore

/-- The fetch increment and a store at an effective address, which is already normalised, leave every byte outside
the stored word. -/
theorem sameMemOutsideWord_setPc_store (s : State) (pc x y v : Word) :
    SameMemOutsideWord s ((s.setPc pc).store (effAddr x y) v) (effAddr x y).toNat := by
  intro n hn
  rw [store_mem, setPc_mem]
  exact readByte_memWrite_outside _ _ _ _ (by rwa [norm_effAddr])

/-- The fetch increment and a store touch no latch, no queue and no predictor field. -/
theorem sameMicro_setPc_store (s : State) (pc addr v : Word) : SameMicro s ((s.setPc pc).store addr v) := by
  constructor <;> simp

/-- Settles O14: opcode 0x10 is `ld`'s row of the table; its register command is delivered, and a cell of which no
byte is listed reads 0. -/
theorem loadInstruction : Obligations.LoadInstruction := by
  refine ⟨encodedAs_of_lookup rfl, fun s d a b i => ⟨exec_ld_delivers s d a b i, fun hunset => ?_,
    execDecoded_ld s d a b i⟩⟩
  exact memRead_unset _ _ (by rwa [norm_effAddr])

/-- Settles O15: opcode 0x11 is `st`'s row of the table; the cell reads back the stored value, which is the
resolver's case on `d`, and what the store and the fetch increment leave alone is the frame. -/
theorem storeInstruction : Obligations.StoreInstruction := by
  refine ⟨encodedAs_of_lookup rfl, fun s d a b i =>
    ⟨⟨_, exec_st s d a b i, ?value, sameMemOutsideWord_setPc_store s _ _ _ _, fun r hr => ?others, ?pc, ?out,
      ?halted, ?fault, sameMicro_setPc_store ..⟩, execDecoded_st s d a b i⟩⟩
  case value => rw [store_mem, memRead_memWrite, if_pos rfl, State.operand, rd_eq_ite]
  case others => rw [store_reg, setPc_reg_ne _ _ _ hr]
  case pc => rw [store_reg, setPc_reg31, pc_eq]
  case out => rw [store_out, setPc_out]
  case halted => rw [store_halted, setPc_halted]
  case fault => rw [store_fault, setPc_fault]

end Sys2Proof.Machine
end

section
/-!
SUPPORT. The stack macros `push` and `pop` by an ordinary pointer (43_stack_macros.md R97, R98): what decode issues and
queues for a macro, and the state the two micro-ops leave; then the statements O16 and O17 from these.
-/

namespace Sys2Proof.Machine

/-! ### The parts of a macro -/

/-- A general register is not the program counter. -/
theorem ne_pcIdx_of_le {r : RegIdx} (h : r.toNat ≤ 28) : r ≠ 31#5 := by
  obtain ⟨-, -, hpc⟩ := ne_special_of_le h
  exact hpc

/-- With index 30 as the offset, an effective address is the base, normalised (20_memory.md R37). -/
theorem effAddr_zero (x : Word) : effAddr x 0#32 = norm x := by
  simp [effAddr]

/-- A read normalises its address itself (20_memory.md R33). -/
theorem memRead_norm (m : Memory) (addr : Word) : memRead m (norm addr) = memRead m addr := by
  simp only [memRead, norm_idem]

/-- With the queue empty and no hazard, decode issues the first micro-op of the fetched word and queues the rest, each
with the word's metadata (50_pipeline.md R157). -/
theorem decodeStage_issues {s : State} {f : FetchSlot} {D : Decoded} (hdq : s.dq = []) (hfr : s.fr = some f)
    (hD : decode f.blob = D) (hz : hazard (expand D).1 s.xr = false) :
    (decodeStage s).dr = some ⟨(expand D).1, f.ipc, f.npc⟩ ∧
      (decodeStage s).dq = (expand D).2.map fun u => ⟨u, f.ipc, f.npc⟩ := by
  simp [decodeStage, hdq, hfr, hD, hz]

/-- A register command to an ordinary register, computed and written back, stores its value. -/
theorem runOp_writeback_general {op : ExecOp} {ipc : Word} {s : State} {r : RegIdx} {v : Word} (hr : r.toNat ≤ 28)
    (h : op ipc s = .command (.registers r v)) :
    runOp op ipc s = .command (.registers r v) ∧ s.writeback (.registers r v) = s.setReg r v :=
  ⟨by rw [runOp_registers h, if_neg (ne_pcIdx_of_le hr)], writeIndex_general hr v⟩

/-! ### Both micro-ops -/

section Ordinary
variable (s : State) {d a : RegIdx} (b : RegIdx) (i : Word)

/-- `push` is the fetch increment, the pointer's decrement, then the store where the lowered pointer points: `st` reads
the pointer after `sub` wrote it, and `d`, which `sub` left alone. -/
theorem exec_push_ordinary (ha : a.toNat ≤ 28) (hd : d.toNat ≤ 28) (hda : d ≠ a) :
    exec (.push d a b i) s = .next (((s.setPc (s.pc + 4#32)).setReg a (s.reg a - 4#32)).store
      (norm (s.reg a - 4#32)) (s.reg d)) := by
  have harm : exec (.push d a b i) s = .next (serialExec
    [subOp a a Config.immIdx 4#32, stOp d a Config.zeroIdx 0#32] s) := rfl
  have ha31 : a ≠ 31#5 := ne_pcIdx_of_le ha
  have hd31 : d ≠ 31#5 := ne_pcIdx_of_le hd
  obtain ⟨hsub, hwrite⟩ := runOp_writeback_general (op := subOp a a Config.immIdx 4#32) (ipc := s.pc)
    (s := s.setPc (s.pc + 4#32)) (v := s.reg a - 4#32) ha (by simp [subOp, aluOp, rd_general _ _ _ _ ha, ha31])
  have hst : runOp (stOp d a Config.zeroIdx 0#32) s.pc ((s.setPc (s.pc + 4#32)).setReg a (s.reg a - 4#32)) =
      .command (.memory (norm (s.reg a - 4#32)) (s.reg d)) :=
    runOp_memory (by simp [stOp, rd_general _ _ _ _ ha, rd_general _ _ _ _ hd, effAddr_zero, hda, hd31])
  rw [harm, serialExec_pair hsub (by rw [hwrite]; exact hst), hwrite]
  rfl

/-- `pop` is the fetch increment, the load from where the pointer points, then the pointer's increment: `add` reads the
pointer, which `ld` left alone. -/
theorem exec_pop_ordinary (ha : a.toNat ≤ 28) (hd : d.toNat ≤ 28) (had : a ≠ d) :
    exec (.pop d a b i) s = .next (((s.setPc (s.pc + 4#32)).setReg d (memRead s.mem (norm (s.reg a)))).setReg a
      (s.reg a + 4#32)) := by
  have harm : exec (.pop d a b i) s = .next (serialExec
    [ldOp d a Config.zeroIdx 0#32, addOp a a Config.immIdx 4#32] s) := rfl
  have ha31 : a ≠ 31#5 := ne_pcIdx_of_le ha
  obtain ⟨hld, hwrite⟩ := runOp_writeback_general (op := ldOp d a Config.zeroIdx 0#32) (ipc := s.pc)
    (s := s.setPc (s.pc + 4#32)) (v := memRead s.mem (norm (s.reg a))) hd
    (by simp [ldOp, rd_general _ _ _ _ ha, effAddr_zero, ha31])
  obtain ⟨hadd, hwrite'⟩ := runOp_writeback_general (op := addOp a a Config.immIdx 4#32) (ipc := s.pc)
    (s := (s.setPc (s.pc + 4#32)).setReg d (memRead s.mem (norm (s.reg a)))) (v := s.reg a + 4#32) ha
    (by simp [addOp, aluOp, rd_general _ _ _ _ ha, had, ha31])
  rw [harm, serialExec_pair hld (by rw [hwrite]; exact hadd), hwrite, hwrite']

end Ordinary

/-! ### The statements -/

/-- Settles O16: opcode 0x12 is `push`'s row of the table; decode issues the first part of the expansion and queues the
second; and the clauses on `exec` read off the state the two micro-ops leave. -/
theorem pushOrdinary : Obligations.PushOrdinary := by
  refine ⟨encodedAs_of_lookup rfl, fun s f d a b i hdq hfr hdec hz => decodeStage_issues hdq hfr hdec hz,
    fun s d a b i ha hd had => ⟨_, exec_push_ordinary s b i ha hd had.symm, ?pointer, ?cell, fun n hn => ?memory,
      fun r hr hra => ?others, ?pc, rfl, rfl, rfl, ?micro⟩⟩
  case pointer => rw [store_reg, reg_setReg_self]
  case cell => rw [store_reg, reg_setReg_self, store_mem, memRead_memWrite, norm_idem, if_pos rfl]
  case memory =>
    rw [store_mem, setReg_mem, setPc_mem]
    exact readByte_memWrite_outside _ _ _ _ (by rwa [norm_idem])
  case others => rw [store_reg, reg_setReg_ne _ _ _ _ hra, setPc_reg_ne _ _ _ hr]
  case pc => rw [store_reg, reg_setReg_ne _ _ _ _ (ne_pcIdx_of_le ha).symm, setPc_reg31, pc_eq]
  case micro => constructor <;> simp

/-- Settles O17: opcode 0x13 is `pop`'s row of the table; decode and `exec` as for `push`; and the restoring clause is
O16's pointer and cell, read by the `pop` that follows. -/
theorem popOrdinary : Obligations.PopOrdinary := by
  refine ⟨encodedAs_of_lookup rfl, fun s f d a b i hdq hfr hdec hz => decodeStage_issues hdq hfr hdec hz,
    fun s d a b i ha hd had => ⟨_, exec_pop_ordinary s b i ha hd had, ?loaded, ?pointer, fun _ => rfl,
      fun r hr hra hrd => ?others, ?pc, rfl, rfl, rfl, ?micro⟩,
    fun s x y a b b' i i' ha hx hy hxa hya => ?restore⟩
  case loaded => rw [reg_setReg_ne _ _ _ _ had.symm, reg_setReg_self]
  case pointer => rw [reg_setReg_self]
  case others => rw [reg_setReg_ne _ _ _ _ hra, reg_setReg_ne _ _ _ _ hrd, setPc_reg_ne _ _ _ hr]
  case pc =>
    rw [reg_setReg_ne _ _ _ _ (ne_pcIdx_of_le ha).symm, reg_setReg_ne _ _ _ _ (ne_pcIdx_of_le hd).symm,
      setPc_reg31, pc_eq]
  case micro => constructor <;> simp
  case restore =>
    obtain ⟨-, -, hpush⟩ := pushOrdinary
    obtain ⟨t, ht, hpointer, hcell, -⟩ := hpush s x a b i ha hx hxa.symm
    refine ⟨t, _, ht, exec_pop_ordinary t b' i' ha hy hya.symm, ?_, ?_⟩
    · rw [reg_setReg_ne _ _ _ _ hya, reg_setReg_self, memRead_norm, hcell]
    · rw [reg_setReg_self, hpointer, BitVec.sub_add_cancel]

end Sys2Proof.Machine
end

section
/-!
SUPPORT. The conditionals `iflt`, `ifle`, `ifeq` and `ifne` (44_conditionals.md R104 to R108): what a comparison says of
its operands and what `exec` of a conditional delivers to index 31; then the statement O20 from these.
-/

namespace Sys2Proof.Machine

/-! ### The comparisons -/

section Comparisons
variable (x y : Word)

@[simp] theorem condLt_iff : condLt x y = true ↔ x.toInt < y.toInt := decide_eq_true_iff

@[simp] theorem condLe_iff : condLe x y = true ↔ x.toInt ≤ y.toInt := decide_eq_true_iff

@[simp] theorem condEq_iff : condEq x y = true ↔ x = y := decide_eq_true_iff

@[simp] theorem condNe_iff : condNe x y = true ↔ x ≠ y := decide_eq_true_iff

end Comparisons

/-! ### What a conditional delivers -/

/-- An instruction of the common conditional shape, with its comparison read as the proposition `P`: a PC write of
`seq` when `P` holds, of `seq + 4` when it fails (R104). -/
theorem exec_cond_delivers {ins : Instr} {s : State} {a b : RegIdx} {i : Word} {cond : Word → Word → Bool}
    {P : Prop} [Decidable P] (harm : exec ins s = .next (serialExec [condOp a b i cond] s))
    (hP : cond (s.operand a i) (s.operand b i) = true ↔ P) :
    ∃ t, exec ins s = .next t ∧
      Delivers s t 31#5 (if P then s.reg 31#5 + 4#32 else s.reg 31#5 + 4#32 + 4#32) := by
  refine ⟨_, harm, ?_⟩
  rw [← if_congr hP rfl rfl]
  exact serialExec_condOp s a b i cond

/-- A multiple of 4 is its own rounding down: the normalisation of a PC write leaves it (40_execute_common.md R78). -/
theorem roundDown_of_aligned {v : Word} (h : Aligned v) : roundDown v = v := by
  rw [roundDown_eq_norm, norm_of_aligned h]

/-- From an aligned program counter both targets of a conditional are multiples of 4, also across the wrap to 0. -/
theorem roundDown_seq_of_aligned {pc : Word} (h : Aligned pc) :
    roundDown (pc + 4#32) = pc + 4#32 ∧ roundDown (pc + 4#32 + 4#32) = pc + 4#32 + 4#32 := by
  have hseq : Aligned (pc + 4#32) := aligned_add_four h
  exact ⟨roundDown_of_aligned hseq, roundDown_of_aligned (aligned_add_four hseq)⟩

/-! ### The assembler's word -/

/-- The assembler writes 0 in `d` of every conditional, whatever stands in the other slots (R104). -/
theorem dOf_word_cond (op : CondOp) (a b : AsmReg) (i : Int) : dOf (VectorForm.cond op a b i).word = 0#5 :=
  dOf_packFields _ _ _ _ _

/-- Settles O20: opcodes 0x20 to 0x23 are the four rows of the table; each conditional is the common shape with its own
comparison, signed for `iflt` and `ifle` (92_eei_decisions.md D8). -/
theorem conditionalSkip : Obligations.ConditionalSkip := by
  refine ⟨⟨encodedAs_of_lookup rfl, encodedAs_of_lookup rfl, encodedAs_of_lookup rfl, encodedAs_of_lookup rfl⟩,
    dOf_word_cond, fun s d a b i => ?_⟩
  exact ⟨exec_cond_delivers rfl (condLt_iff _ _), exec_cond_delivers rfl (condLe_iff _ _),
    exec_cond_delivers rfl (condEq_iff _ _), exec_cond_delivers rfl (condNe_iff _ _), roundDown_seq_of_aligned⟩

end Sys2Proof.Machine
end

section
/-!
SUPPORT. The instructions of the common ALU form (45_alu_arith.md R115) and, of these, `add` and `sub` (R110, R111):
what `exec` of such an instruction delivers to its destination, and the sum and the difference of two words as
numbers modulo 2^32; then the statement O21 from these.
-/

namespace Sys2Proof.Machine

/-- An instruction of the common ALU form delivers its function of the two operands, in whatever spelling `v` a
statement gives the result (R115). -/
theorem exec_alu_delivers {ins : Instr} {s : State} {d a b : RegIdx} {i v : Word} {f : Word → Word → Word}
    (harm : exec ins s = .next (serialExec [aluOp d a b i f] s))
    (hv : f (s.operand a i) (s.operand b i) = v) :
    ∃ t, exec ins s = .next t ∧ Delivers s t d v := by
  refine ⟨_, harm, ?_⟩
  rw [← hv]
  exact serialExec_aluOp s d a b i f

/-! ### The sum and the difference as numbers -/

section SumAndDifference
variable {w : Nat} (x y : BitVec w)

/-- The sum of two words is the word of the sum of their unsigned values modulo `2 ^ w`. -/
theorem add_eq_ofNat_mod : x + y = BitVec.ofNat w ((x.toNat + y.toNat) % 2 ^ w) := by
  rw [← BitVec.toNat_add, BitVec.ofNat_toNat, BitVec.setWidth_eq]

/-- The difference of two words is the word of the difference of their signed values, first minus second. -/
theorem sub_eq_ofInt_sub : x - y = BitVec.ofInt w (x.toInt - y.toInt) := by
  rw [Int.sub_eq_add_neg, BitVec.ofInt_add, BitVec.ofInt_neg, BitVec.ofInt_toInt, BitVec.ofInt_toInt,
    BitVec.sub_eq_add_neg]

end SumAndDifference

/-! ### The statement -/

/-- Settles O21: opcodes 0x30 and 0x31 are the rows of `add` and `sub` in the table; both are of the common ALU form,
and the words they compute are the sum and the difference as numbers. -/
theorem addAndSub : Obligations.AddAndSub := by
  refine ⟨encodedAs_of_lookup rfl, encodedAs_of_lookup rfl, fun s d a b i => ⟨?sum, ?difference⟩⟩
  case sum => exact exec_alu_delivers (f := fun x y => x + y) rfl (add_eq_ofNat_mod _ _)
  case difference => exact exec_alu_delivers (f := fun x y => x - y) rfl (sub_eq_ofInt_sub _ _)

end Sys2Proof.Machine
end

section
/-!
SUPPORT. The bitwise operations `and`, `or`, `nand` and `xor` (46_alu_logic_shift.md R118 to R121): which Boolean
operation each works on the bits, and what `exec` of a bitwise instruction delivers to its destination; then the
statement O25 from these.
-/

namespace Sys2Proof.Machine

/-! ### Operations that work bit by bit -/

/-- Each of the 32 bits of `f x y` is `g` of the two bits in its place. -/
def ActsBitwise (f : Word → Word → Word) (g : Bool → Bool → Bool) : Prop :=
  ∀ (x y : Word) (k : Nat), k < 32 → (f x y).getLsbD k = g (x.getLsbD k) (y.getLsbD k)

theorem actsBitwise_and : ActsBitwise (fun x y => x &&& y) and :=
  fun _ _ _ _ => BitVec.getLsbD_and

theorem actsBitwise_or : ActsBitwise (fun x y => x ||| y) or :=
  fun _ _ _ _ => BitVec.getLsbD_or

theorem actsBitwise_xor : ActsBitwise (fun x y => x ^^^ y) xor :=
  fun _ _ _ _ => BitVec.getLsbD_xor

/-- The complement acts on the bits below 32 alone: above them `getLsbD` reads 0, not the complement of 0. -/
theorem ActsBitwise.complement {f : Word → Word → Word} {g : Bool → Bool → Bool} (h : ActsBitwise f g) :
    ActsBitwise (fun x y => ~~~ f x y) (fun p q => !g p q) := by
  intro x y k hk
  rw [BitVec.getLsbD_not, decide_eq_true hk, Bool.true_and, h x y k hk]

/-! ### The statement -/

/-- An instruction of the common ALU form whose function works bit by bit delivers a word with those bits. -/
theorem exec_bitwise_delivers {ins : Instr} {s : State} {d a b : RegIdx} {i : Word} {f : Word → Word → Word}
    {g : Bool → Bool → Bool} (hbits : ActsBitwise f g)
    (harm : exec ins s = .next (serialExec [aluOp d a b i f] s)) :
    ∃ t v, exec ins s = .next t ∧ Delivers s t d v ∧
      ∀ k, k < 32 → v.getLsbD k = g ((s.operand a i).getLsbD k) ((s.operand b i).getLsbD k) := by
  obtain ⟨t, hexec, hdelivers⟩ := exec_alu_delivers harm rfl
  exact ⟨t, _, hexec, hdelivers, hbits _ _⟩

/-- Settles O25: opcodes 0x35 to 0x38 are the four rows of the table; each instruction is of the common ALU form with
an operation that works bit by bit, that of `nand` being the complement of that of `and`. -/
theorem bitwiseOperations : Obligations.BitwiseOperations := by
  refine ⟨⟨encodedAs_of_lookup rfl, encodedAs_of_lookup rfl, encodedAs_of_lookup rfl, encodedAs_of_lookup rfl⟩,
    fun s d a b i => ⟨?and, ?or, ?nand, ?xor⟩⟩
  case and => exact exec_bitwise_delivers actsBitwise_and rfl
  case or => exact exec_bitwise_delivers actsBitwise_or rfl
  case nand => exact exec_bitwise_delivers actsBitwise_and.complement rfl
  case xor => exact exec_bitwise_delivers actsBitwise_xor rfl

end Sys2Proof.Machine
end

section
/-!
SUPPORT. The stages of the pipelined step (50_pipeline.md R146, R150, R151, R154, R161): where fetch goes, what decode
leaves in `FR` and `DR`, how a fault ends the step, and how a PC write retires without the predictor; then the statements
O44, O43, O46 and O47 from these.
-/

namespace Sys2Proof.Machine

/-! ### The hazard detector (R154) -/

/-- A halt or memory command and an empty `XR` are never a hazard; a register command is one by its index alone. -/
theorem hazard_eq_true_iff (u : Decoded) (xr : Option ExecSlot) :
    hazard u xr = true ↔ ∃ r v ipc npc, xr = some ⟨.registers r v, ipc, npc⟩ ∧
      (r = u.fields.a ∨ r = u.fields.b) ∧ r ≠ 29#5 ∧ r ≠ 30#5 := by
  rcases xr with _ | ⟨_ | _ | _, ipc, npc⟩ <;> simp [hazard]

/-- The micro-op decode considers next: the head of the queue, else the first of the fetched word, else the
canonical no-op, of which decode makes a bubble. -/
def State.candidate (s : State) : Decoded :=
  match s.dq, s.fr with
  | u :: _, _ => u.op
  | [], some f => (expand (decode f.blob)).1
  | [], none => .instr (.add 30#5 30#5 30#5 0#32)

theorem candidate_of_queue {s : State} {u : InFlight} {rest : List InFlight} (hdq : s.dq = u :: rest) :
    s.candidate = u.op := by
  rw [State.candidate, hdq]

theorem candidate_of_fetched {s : State} {f : FetchSlot} (hdq : s.dq = []) (hfr : s.fr = some f) :
    s.candidate = (expand (decode f.blob)).1 := by
  rw [State.candidate, hdq, hfr]

@[simp] theorem executeStage_candidate (s : State) : (executeStage s).candidate = s.candidate := by
  simp only [State.candidate, executeStage_dq, executeStage_fr]

/-- With a hazard decode leaves a bubble, whether it holds the queue (R155) or replays the fetched word (R156). -/
theorem decodeStage_dr_of_hazard {s : State} (h : hazard s.candidate s.xr = true) : (decodeStage s).dr = none := by
  rcases decodeStage_cases s with ⟨u, rest, -, -, hold⟩ | ⟨u, rest, hdq, hz, -⟩ | ⟨f, -, -, -, replay⟩ |
    ⟨f, hdq, hfr, hz, -⟩ | ⟨-, -, bubble⟩
  · rw [hold]
  · rw [candidate_of_queue hdq, hz] at h
    cases h
  · rw [replay, setPc_dr]
  · rw [candidate_of_fetched hdq hfr, hz] at h
    cases h
  · rw [bubble]

@[simp] theorem frontEnd_dr (s : State) : (frontEnd s).dr = (decodeStage s).dr := by simp [frontEnd]

/-- A step that does not leave the block stopped runs every stage. -/
theorem pipeStep_of_next_running {s : State} (h : (pipeStep s).Running) :
    pipeStep s = frontEnd (executeStage (writebackStage s)) := by
  obtain ⟨hhalted, hfault⟩ := h
  rcases pipeStep_cases s with ⟨hstop, hold⟩ | ⟨-, hhalt, halts⟩ | ⟨-, -, hraise, faults⟩ | ⟨-, -, -, runs⟩
  · rw [hold] at hhalted hfault
    rw [(running_iff s).2 ⟨hhalted, hfault⟩] at hstop
    cases hstop
  · rw [halts, hhalt] at hhalted
    cases hhalted
  · rw [faults] at hfault
    rw [hfault] at hraise
    cases hraise
  · exact runs

/-- Settles O44: the detector by cases on the command; in a step, decode sees the queue and fetch latch that writeback
left and the `XR` that execute left, which fetch and the stall decrement do not touch. -/
theorem hazardDetector : Obligations.HazardDetector := by
  refine ⟨hazard_eq_true_iff, fun s t hpiped _ hst hnext hz => ?_⟩
  rw [step_piped hpiped] at hst
  cases hst
  rw [pipeStep_of_next_running hnext, frontEnd_xr] at hz
  have hcand : hazard (writebackStage s).candidate (executeStage (writebackStage s)).xr = true := hz
  rw [← executeStage_candidate] at hcand
  rw [pipeStep_of_next_running hnext, frontEnd_dr]
  exact decodeStage_dr_of_hazard hcand

/-! ### The fetch stage (R150, R151) -/

theorem nextFetch_of_predicted {s : State} (h : s.variant = .predicted) (ipc : Word) :
    s.nextFetch ipc = (s.predict ipc).getD (ipc + 4#32) := by
  rw [State.nextFetch, h]

theorem nextFetch_of_not_predicted {s : State} (h : s.variant ≠ .predicted) (ipc : Word) :
    s.nextFetch ipc = ipc + 4#32 := by
  rw [State.nextFetch]
  split
  · contradiction
  · rfl

/-- Decode empties `FR` where it reads it; where it serves the queue instead, `FR` has to be empty already (R29). -/
theorem decodeStage_fr {s : State} (h : s.dq ≠ [] → s.fr = none) : (decodeStage s).fr = none := by
  rcases decodeStage_cases s with ⟨u, rest, hdq, -, hold⟩ | ⟨u, rest, hdq, -, issue⟩ | ⟨f, -, -, -, replay⟩ |
    ⟨f, -, -, -, issue⟩ | ⟨-, hfr, bubble⟩
  · rw [hold]; exact h (by simp [hdq])
  · rw [issue]; exact h (by simp [hdq])
  · rw [replay, setPc_fr]
  · rw [issue]
  · rw [bubble]; exact hfr

/-- Settles O43: the two variants differ only in where fetch goes next. -/
theorem fetchStage_rule : Obligations.FetchStage := by
  refine ⟨fun s hstall hv => ?_, fun s hstall hv => ?_, fetchStage_stalled, fun s => decodeStage_fr⟩
  · rw [fetchStage_go s hstall, nextFetch_of_not_predicted hv]; rfl
  · rw [fetchStage_go s hstall, nextFetch_of_predicted hv]; rfl

/-! ### A fault in the execute stage (R146) -/

theorem executeStage_of_raise {s : State} {D : InFlight} {f : FaultRecord} (hD : s.dr = some D)
    (hraise : execDecoded D s = .raise f) : executeStage s = s.raise f := by
  simp only [executeStage, hD, hraise]

/-- A fault of the instruction in `DR` ends the step (R141). -/
theorem pipeStep_of_raise {s : State} {D : InFlight} {f : FaultRecord} (hrun : s.Running)
    (hhalt : (writebackStage s).halted = false) (hD : (writebackStage s).dr = some D)
    (hraise : execDecoded D (writebackStage s) = .raise f) : pipeStep s = (writebackStage s).raise f := by
  have hex := executeStage_of_raise hD hraise
  simp [pipeStep, (running_iff s).2 hrun, hhalt, hex]

/-- Settles O46: the three outcomes of the stage, and the step that a fault ends. -/
theorem executeStage_rule : Obligations.ExecuteStage := by
  refine ⟨fun s => executeStage_of_bubble, fun s D c => executeStage_of_command, fun s D f => executeStage_of_raise,
    fun s D f hpiped hrun hhalt hD hraise => ?_⟩
  rw [step_piped hpiped, pipeStep_of_raise hrun hhalt hD hraise]
  rfl

/-! ### A PC write that retires without the predictor (R161) -/

theorem branchRetire_of_not_predicted {s : State} (h : s.variant ≠ .predicted) (v ipc npc : Word) :
    branchRetire s v ipc npc = (s.setPc (norm v)).flush := by
  rcases branchRetire_cases s v ipc npc with ⟨hv, -, -⟩ | ⟨hv, -, -⟩ | ⟨-, redirects⟩
  · exact absurd hv h
  · exact absurd hv h
  · exact redirects

/-- Settles O47: the flush control without the predictor compares nothing. -/
theorem pcWriteFlushes : Obligations.PcWriteFlushes := by
  intro s v ipc npc hv hx
  rw [writebackStage_of_pcWrite hx, branchRetire_of_not_predicted (by simp [hv]), roundDown_eq_norm]
  rfl

end Sys2Proof.Machine
end

section
/-!
SUPPORT. The codec round trips (30_encoding.md section 3): decoding after encoding, as a word and as bytes, encoding after
decoding, and the assembler's vector forms; which opcodes have a row in the table and which have an execute contract
(section 2); then the statements O1, O2, O7, O4, O5 and O6 from these.
-/

namespace Sys2Proof.Machine

/-! ### Encoding and decoding words -/

/-- `decode` finds the row of the instruction's opcode and gives it the instruction's own fields (R61 a). -/
theorem decode_encode {i : Instr} (h : i.wf = true) : decode (encode i) = .instr i := by
  obtain ⟨hop, hfields⟩ := Laws.fieldsOfEncode_all i h
  obtain ⟨mk, hrow, hmk⟩ := opcodeTable_lookup i
  rw [← hfields] at hmk
  simp only [decode, hop, hrow]
  exact congrArg _ hmk

/-- Four bytes of a word in front of a list are decoded as the word. -/
theorem decodeBytes_wordBytes {w : Word} {i : Instr} (h : decode w = .instr i) (rest : List Byte) :
    decodeBytes (wordBytes w ++ rest) = .ok (i, rest) := by
  simp only [wordBytes, List.cons_append, List.nil_append, decodeBytes, wordOfBytes_byteOf, h]

/-- Settles O1: the row of the opcode and the fields come back from the word, and the word from its bytes. -/
theorem encodeThenDecode : Obligations.EncodeThenDecode :=
  fun _ rest h => ⟨decode_encode h, decodeBytes_wordBytes (decode_encode h) rest⟩

/-- No bit of a word is dropped by `decode`: its answer holds the five projections, which tile the word (R51). -/
theorem packFields_decode (w : Word) :
    packFields (decode w).icode (decode w).fields.d (decode w).fields.a (decode w).fields.b
      ((decode w).fields.i.setWidth 11) = w := by
  rw [decode_icode, decode_fields]
  simp only [fieldsOf, immOf, setWidth_sext11, packFields_projections]

/-- Settles O2: a decoded instruction has the opcode and the fields of the answer it stands in. -/
theorem decodeThenEncode : Obligations.DecodeThenEncode := by
  intro w
  have hwf : (decode w).fields.wf = true := by rw [decode_fields]; exact fieldsOf_wf w
  refine ⟨packFields_decode w, hwf, fun i hi => ?_⟩
  have htile := packFields_decode w
  rw [hi] at htile hwf
  exact ⟨hwf, htile⟩

/-! ### The assembler's vector forms -/

/-- The row of a four-slot opcode prints as that opcode's form (R58). -/
theorem fullOp_row (op : FullOp) : ∃ mk, opcodeTable.lookup (BitVec.ofNat 6 op.code) = some mk ∧
    ∀ d a b i, (mk d a b i).vectorForm = some (fullForm op d a b i) := by
  cases op <;> exact ⟨_, rfl, fun _ _ _ _ => rfl⟩

/-- The row of a conditional prints as the conditional's form, without `d` (R58). -/
theorem condOp_row (op : CondOp) : ∃ mk, opcodeTable.lookup (BitVec.ofNat 6 op.code) = some mk ∧
    ∀ d a b i, (mk d a b i).vectorForm = some (condForm op a b i) := by
  cases op <;> exact ⟨_, rfl, fun _ _ _ _ => rfl⟩

/-- A word whose opcode has a row prints as the row's instruction does. -/
theorem disassemble_packFields {op : Opcode} {mk : RegIdx → RegIdx → RegIdx → Word → Instr}
    (h : opcodeTable.lookup op = some mk) (d a b : RegIdx) (v : BitVec 11) :
    disassemble (packFields op d a b v) = (mk d a b (sext11 v)).vectorForm := by
  rw [disassemble, encodedAs_of_lookup h]

/-- A legal register slot is read back from its 5-bit field. -/
theorem AsmReg.toNat_field {r : AsmReg} (h : r.legal = true) : (BitVec.ofNat 5 r.number).toNat = r.number :=
  Nat.mod_eq_of_lt (of_decide_eq_true h)

/-- An immediate in range is read back from its 11-bit field. -/
theorem toInt_sext11_ofInt {i : Int} (hlo : -1024 ≤ i) (hhi : i ≤ 1023) :
    (sext11 (BitVec.ofInt 11 i)).toInt = i := by
  rw [sext11, BitVec.toInt_signExtend_of_le (by omega), BitVec.toInt_ofInt, Int.bmod_def]
  split_ifs <;> omega

/-- Settles O7, by the three shapes of a form: each slot's number is read back from the field it was packed in. -/
theorem vectorFormRoundTrip : Obligations.VectorFormRoundTrip := by
  intro v hlegal
  cases v with
  | hlt => decide
  | cond op a b i =>
    simp only [VectorForm.legal, Bool.and_eq_true, decide_eq_true_eq] at hlegal
    obtain ⟨⟨⟨ha, hb⟩, hlo⟩, hhi⟩ := hlegal
    obtain ⟨mk, hrow, hform⟩ := condOp_row op
    rw [VectorForm.word, pack, disassemble_packFields hrow, hform, condForm, AsmReg.toNat_field ha,
      AsmReg.toNat_field hb, toInt_sext11_ofInt hlo hhi, VectorForm.normalized]
  | full op d a b i =>
    simp only [VectorForm.legal, Bool.and_eq_true, decide_eq_true_eq] at hlegal
    obtain ⟨⟨⟨⟨hd, ha⟩, hb⟩, hlo⟩, hhi⟩ := hlegal
    obtain ⟨mk, hrow, hform⟩ := fullOp_row op
    rw [VectorForm.word, pack, disassemble_packFields hrow, hform, fullForm, AsmReg.toNat_field hd,
      AsmReg.toNat_field ha, AsmReg.toNat_field hb, toInt_sext11_ofInt hlo hhi, VectorForm.normalized]

/-! ### Opcodes with a row, and opcodes with an execute contract -/

/-- Without an execute contract an opcode's rule is to raise `InvalidOpcode` with its own code (60_exceptions.md R201). -/
theorem decodedOp_eq_invalidOp {D : Decoded} (h : D.icode ∉ executableCodes) : decodedOp D = invalidOp D.icode := by
  cases D with
  | unassigned c f => rfl
  | instr i =>
    cases i with
    | push | pop | pushall | popall | call | intr => rfl
    | _ => exact absurd (by simp [Decoded.icode, Instr.opcode, executableCodes]) h

theorem execDecoded_of_not_executable {D : InFlight} (h : D.op.icode ∉ executableCodes) (s : State) :
    execDecoded D s = .raise ⟨.invalidOpcode, D.op.icode, D.ipc⟩ := by
  rw [execDecoded, decodedOp_eq_invalidOp h]
  exact runOp_raise rfl

/-- Settles O4: each code's row is found in the table, and the four v1 codes are none of the executable ones. -/
theorem opcodeAssignments : Obligations.OpcodeAssignments := by
  refine ⟨?_, ?_, fun w ipc npc s hv1 => ?_⟩
  · refine ⟨?_, ?_, ?_, ?_, ?_, ?_, ?_, ?_, ?_, ?_, ?_, ?_, ?_, ?_, ?_, ?_, ?_, ?_, ?_, ?_, ?_, ?_⟩ <;>
      exact encodedAs_of_lookup rfl
  · refine ⟨?_, ?_, ?_, ?_⟩ <;> exact encodedAs_of_lookup rfl
  · have hnot : ∀ c ∈ [0x14#6, 0x15#6, 0x24#6, 0x25#6], c ∉ executableCodes := by decide
    rw [← decode_icode] at hv1 ⊢
    exact execDecoded_of_not_executable (hnot _ hv1) s

/-- The codes without a row of the table (R57). -/
theorem lookup_isNone_iff : ∀ c : Opcode, (opcodeTable.lookup c).isNone = true ↔
    (0x01 ≤ c.toNat ∧ c.toNat ≤ 0x0F) ∨ (0x16 ≤ c.toNat ∧ c.toNat ≤ 0x1F) ∨
    (0x26 ≤ c.toNat ∧ c.toNat ≤ 0x2F) ∨ c.toNat = 0x39 ∨ c.toNat = 0x3E ∨ c.toNat = 0x3F := by
  decide

/-- A word decodes to no instruction exactly when its opcode has no row (R54). -/
theorem decode_eq_unassigned_iff (w : Word) : decode w = .unassigned (opcodeOf w) (fieldsOf w) ↔
    (opcodeTable.lookup (opcodeOf w)).isNone = true := by
  unfold decode
  cases opcodeTable.lookup (opcodeOf w) <;> simp

/-- Settles O5: the codes without a row are the 38, and `decode` has only the two answers. -/
theorem unassignedOpcodes : Obligations.UnassignedOpcodes := by
  intro w
  refine ⟨(decode_eq_unassigned_iff w).trans (lookup_isNone_iff _), ?_⟩
  rcases decode_cases w with ⟨i, hi, -⟩ | ⟨hu, -⟩
  · exact .inl ⟨i, hi⟩
  · exact .inr hu

/-- Settles O6: eleven closed words. -/
theorem writtenWordsDecode : Obligations.WrittenWordsDecode := by
  unfold Obligations.WrittenWordsDecode
  decide

end Sys2Proof.Machine
end

section
/-!
SUPPORT. The branch predictor (51_predictor.md): counters, index and history as numbers, what prediction answers, and
what many trainings of one branch come to; then the statements O52, O53, O54 and O55 from these.
-/

namespace Sys2Proof.Machine

/-! ### Counters (R186) -/

theorem counterInc_toNat : ∀ c : BitVec 2, (counterInc c).toNat = min (c.toNat + 1) 3 := by decide

theorem counterDec_toNat : ∀ c : BitVec 2, (counterDec c).toNat = c.toNat - 1 := by decide

section Counters
variable (s : State) (ipc : Word) (k : BitVec 10)

theorem counter_counterUp_toNat : ((s.counterUp ipc).counter k).toNat =
    if k = s.predIndex ipc then min ((s.counter k).toNat + 1) 3 else (s.counter k).toNat := by
  rw [counter_counterUp]
  split_ifs with hk
  · rw [hk, counterInc_toNat]
  · rfl

theorem counter_counterDown_toNat : ((s.counterDown ipc).counter k).toNat =
    if k = s.predIndex ipc then (s.counter k).toNat - 1 else (s.counter k).toNat := by
  rw [counter_counterDown]
  split_ifs with hk
  · rw [hk, counterDec_toNat]
  · rfl

end Counters

/-- Settles O52: a counter read after a step up or down; the step writes the table alone. -/
theorem countersSaturate : Obligations.CountersSaturate :=
  fun s ipc k => ⟨counter_counterUp_toNat s ipc k, counter_counterDown_toNat s ipc k, rfl, rfl⟩

/-! ### Index and history (R182, R184, R187) -/

theorem predIndex_toNat (s : State) (ipc : Word) :
    (s.predIndex ipc).toNat = (ipc.toNat % 512) ^^^ s.hist.toNat := by
  have hlow : ipc.toNat &&& 511 = ipc.toNat % 512 := Nat.and_two_pow_sub_one_eq_mod ipc.toNat 9
  have hfits : ipc.toNat % 512 % 1024 = ipc.toNat % 512 := Nat.mod_eq_of_lt (by omega)
  rw [State.predIndex, BitVec.toNat_xor, BitVec.toNat_setWidth, BitVec.toNat_and]
  simp [hlow, hfits]

/-- The index depends on the predictor's history alone. -/
theorem predIndex_congr {s t : State} (h : t.hist = s.hist) (ipc : Word) : t.predIndex ipc = s.predIndex ipc := by
  rw [State.predIndex, State.predIndex, h]

/-- A shift halves the history and enters the new outcome at the top. -/
theorem shiftHist_toNat (s : State) (bit : Bool) :
    (s.shiftHist bit).hist.toNat = s.hist.toNat / 2 + if bit then 512 else 0 := by
  have hhalf : s.hist.toNat / 2 < 2 ^ 9 := by have := s.hist.isLt; omega
  have hor := Nat.two_pow_add_eq_or_of_lt hhalf 1
  cases bit
  · simp [State.shiftHist, Nat.shiftRight_eq_div_pow]
  · simp only [State.shiftHist, BitVec.toNat_or, BitVec.toNat_ushiftRight, Nat.shiftRight_eq_div_pow, if_true,
      BitVec.toNat_ofNat]
    have htop : 512 % 2 ^ 10 = 2 ^ 9 * 1 := rfl
    rw [Nat.or_comm, htop, pow_one, ← hor]
    omega

/-- Settles O53: the index's mask is a remainder, and the bit a shift enters lies above what the shift leaves. -/
theorem indexAndHistory : Obligations.IndexAndHistory :=
  ⟨predIndex_toNat, fun s bit => ⟨shiftHist_toNat s bit, rfl⟩⟩

/-! ### Prediction (R185, R190) -/

theorem predictTaken_iff (s : State) (ipc : Word) :
    s.predictTaken ipc = true ↔ 2 ≤ (s.counter (s.predIndex ipc)).toNat :=
  decide_eq_true_iff

theorem predict_eq_some_iff (s : State) (ipc t : Word) :
    s.predict ipc = some t ↔ s.jumpTarget ipc = some t ∧ s.predictTaken ipc = true := by
  unfold State.predict
  cases s.jumpTarget ipc with
  | none => simp
  | some u => cases s.predictTaken ipc <;> simp

/-- Fetch in the predicted variant: the word at `R[31]`, and the predicted address after it (50_pipeline.md R150). -/
theorem fetchStage_predicted {s : State} (hv : s.variant = .predicted) (hstall : s.stall = 0#32) :
    (fetchStage s).reg 31#5 = (s.predict (s.reg 31#5)).getD (s.reg 31#5 + 4#32) ∧
    (fetchStage s).fr = some ⟨memRead s.mem (s.reg 31#5), s.reg 31#5,
      (s.predict (s.reg 31#5)).getD (s.reg 31#5 + 4#32)⟩ := by
  rw [fetchStage_go s hstall, nextFetch_of_predicted hv, setPc_reg31]
  exact ⟨rfl, rfl⟩

/-- Settles O54: an unlisted counter holds the default 2, and fetch goes where the prediction says. -/
theorem predictionRule : Obligations.PredictionRule := by
  refine ⟨predictTaken_iff, fun s k h => ?unlisted, fun m0 ipc => ?reset, predict_eq_some_iff, fun s hv hstall => ?_⟩
  case unlisted => rw [State.counter, h]; rfl
  case reset => rw [predictTaken_iff, boot_counter]; decide
  obtain ⟨hpc, hfr⟩ := fetchStage_predicted hv hstall
  refine ⟨fun t ht => ?_, fun hnone => ?_, fetchStage_table s, fetchStage_hist s, fetchStage_jumpMap s⟩
  · rw [ht] at hpc hfr; exact ⟨hpc, hfr⟩
  · rw [hnone] at hpc hfr; exact ⟨hpc, hfr⟩

/-! ### Repeated training (R199) -/

/-- A training of the branch at `ipc`: the counter of its index is taken through `g`, then the outcome `bit` is shifted
into the history. -/
structure TrainsBy (f : State → State) (ipc : Word) (bit : Bool) (g : BitVec 2 → BitVec 2) : Prop where
  hist : ∀ s, (f s).hist = (s.shiftHist bit).hist
  counter : ∀ s, (f s).counter (s.predIndex ipc) = g (s.counter (s.predIndex ipc))

theorem trainTaken_trainsBy (ipc target : Word) :
    TrainsBy (fun s => s.trainTaken ipc target) ipc true counterInc where
  hist _ := rfl
  counter s := by simp [State.trainTaken, counter_counterUp]

theorem trainNotTaken_trainsBy (ipc : Word) : TrainsBy (fun s => s.trainNotTaken ipc) ipc false counterDec where
  hist _ := rfl
  counter s := by simp [State.trainNotTaken, counter_counterDown]

section Iterate
variable {f : State → State} {ipc : Word} {bit : Bool} {g : BitVec 2 → BitVec 2}

/-- Taken outcomes halve the distance of the history from all ones. -/
theorem TrainsBy.hist_iterate_taken (h : TrainsBy f ipc true g) (s : State) (n : Nat) :
    1023 - (f^[n] s).hist.toNat = (1023 - s.hist.toNat) / 2 ^ n := by
  induction n with
  | zero => simp
  | succ n ih =>
    rw [Function.iterate_succ_apply', h.hist, shiftHist_toNat, pow_succ, ← Nat.div_div_eq_div_mul, ← ih, if_pos rfl]
    omega

/-- Outcomes not taken halve the history. -/
theorem TrainsBy.hist_iterate_notTaken (h : TrainsBy f ipc false g) (s : State) (n : Nat) :
    (f^[n] s).hist.toNat = s.hist.toNat / 2 ^ n := by
  induction n with
  | zero => simp
  | succ n ih =>
    rw [Function.iterate_succ_apply', h.hist, shiftHist_toNat, pow_succ, ← Nat.div_div_eq_div_mul, ← ih]
    rfl

/-- Ten outcomes shift every older one out (the history has ten bits). -/
theorem TrainsBy.hist_of_ten_le (h : TrainsBy f ipc bit g) (s : State) {n : Nat} (hn : 10 ≤ n) :
    (f^[n] s).hist = if bit then 0x3FF#10 else 0#10 := by
  have hpow : 2 ^ 10 ≤ 2 ^ n := Nat.pow_le_pow_right (by decide) hn
  have hlt := s.hist.isLt
  have hlt' := (f^[n] s).hist.isLt
  apply BitVec.eq_of_toNat_eq
  cases bit
  · rw [h.hist_iterate_notTaken, Nat.div_eq_of_lt (by omega)]
    rfl
  · have hdist := h.hist_iterate_taken s n
    rw [Nat.div_eq_of_lt (by omega)] at hdist
    have hones : (0x3FF#10).toNat = 1023 := rfl
    rw [if_pos rfl, hones]
    omega

/-- Once the history is constant every training meets the same counter. -/
theorem TrainsBy.counter_iterate (h : TrainsBy f ipc bit g) (s : State) (m : Nat) :
    (f^[10 + m] s).counter ((f^[10] s).predIndex ipc) = g^[m] ((f^[10] s).counter ((f^[10] s).predIndex ipc)) := by
  induction m with
  | zero => rfl
  | succ m ih =>
    have hindex : (f^[10] s).predIndex ipc = (f^[10 + m] s).predIndex ipc :=
      predIndex_congr (by rw [h.hist_of_ten_le s le_rfl, h.hist_of_ten_le s (Nat.le_add_right 10 m)]) ipc
    rw [← Nat.add_assoc, Function.iterate_succ_apply' f (10 + m), Function.iterate_succ_apply' g m, ← ih, hindex,
      h.counter]

/-- The counter of the branch after many trainings, in terms of the one it had when the history became constant. -/
theorem TrainsBy.counter_of_ten_le (h : TrainsBy f ipc bit g) (s : State) {n : Nat} (hn : 10 ≤ n) :
    ∃ c, (f^[n] s).counter ((f^[n] s).predIndex ipc) = g^[n - 10] c := by
  have hindex : (f^[n] s).predIndex ipc = (f^[10] s).predIndex ipc :=
    predIndex_congr (by rw [h.hist_of_ten_le s le_rfl, h.hist_of_ten_le s hn]) ipc
  have hsplit : 10 + (n - 10) = n := by omega
  refine ⟨(f^[10] s).counter ((f^[10] s).predIndex ipc), ?_⟩
  rw [← h.counter_iterate s (n - 10), hsplit, hindex]

end Iterate

theorem counterInc_iterate_toNat (m : Nat) (c : BitVec 2) : (counterInc^[m] c).toNat = min (c.toNat + m) 3 := by
  induction m with
  | zero => have := c.isLt; simp; omega
  | succ m ih => rw [Function.iterate_succ_apply', counterInc_toNat, ih]; omega

theorem counterDec_iterate_toNat (m : Nat) (c : BitVec 2) : (counterDec^[m] c).toNat = c.toNat - m := by
  induction m with
  | zero => rfl
  | succ m ih => rw [Function.iterate_succ_apply', counterDec_toNat, ih]; omega

/-- Settles O55: ten trainings fix the history and so the index, three more saturate the counter there. -/
theorem trainingSaturates : Obligations.TrainingSaturates := by
  intro s ipc target n hn up down
  have hup := trainTaken_trainsBy ipc target
  have hdown := trainNotTaken_trainsBy ipc
  have hn10 : 10 ≤ n := by omega
  have hup3 : up.counter (up.predIndex ipc) = 3#2 := by
    obtain ⟨c, hc⟩ := hup.counter_of_ten_le s hn10
    refine hc.trans (BitVec.eq_of_toNat_eq ?_)
    rw [counterInc_iterate_toNat, min_eq_right (by omega)]
    rfl
  have hdown0 : down.counter (down.predIndex ipc) = 0#2 := by
    obtain ⟨c, hc⟩ := hdown.counter_of_ten_le s hn10
    have := c.isLt
    refine hc.trans (BitVec.eq_of_toNat_eq ?_)
    rw [counterDec_iterate_toNat, Nat.sub_eq_zero_of_le (by omega)]
    rfl
  have htarget : up.jumpTarget ipc = some target := by
    obtain ⟨m, rfl⟩ : ∃ m, n = m + 1 := ⟨n - 1, by omega⟩
    simp only [up, Function.iterate_succ_apply', State.trainTaken, jumpTarget_setJumpTarget, if_true]
  exact ⟨hup.hist_of_ten_le s hn10, hup3, htarget, by rw [hdown.counter up, hup3]; rfl,
    hdown.hist_of_ten_le s hn10, hdown0⟩

end Sys2Proof.Machine
end

section
/-!
SUPPORT. Addresses as numbers (20_memory.md R31, R37); products, quotients, remainders and shifts as numbers
(45_alu_arith.md, 46_alu_logic_shift.md); the faults of `div`, `mod` and of the v1 opcodes; and which fields an operation
reads (30_encoding.md R64); then the statements O10, O22, O23, O24, O26, O27 and O28 from these.
-/

namespace Sys2Proof.Machine

/-! ### Addresses -/

theorem effAddr_toNat (x y : Word) : (effAddr x y).toNat = (x.toNat + 4 * y.toNat) % 2 ^ 32 / 4 * 4 := by
  rw [effAddr, norm_toNat, BitVec.toNat_add, BitVec.toNat_mul, Nat.add_mod_mod]
  rfl

/-- Settles O10: clearing the low two bits is rounding down, read unsigned or signed. -/
theorem addressesRoundDown : Obligations.AddressesRoundDown :=
  ⟨fun v => ⟨norm_toNat v, norm_toInt v⟩, effAddr_toNat⟩

/-! ### `mul` -/

section Product
variable {w : Nat} (x y : BitVec w)

theorem mul_eq_ofNat_mul : x * y = BitVec.ofNat w (x.toNat * y.toNat) := by
  rw [BitVec.ofNat_mul, BitVec.ofNat_toNat, BitVec.ofNat_toNat, BitVec.setWidth_eq, BitVec.setWidth_eq]

theorem mul_eq_ofInt_mul : x * y = BitVec.ofInt w (x.toInt * y.toInt) := by
  rw [BitVec.ofInt_mul, BitVec.ofInt_toInt, BitVec.ofInt_toInt]

end Product

/-- Settles O22: the word product is the product of either reading. -/
theorem mulLowWord : Obligations.MulLowWord := by
  intro s d a b i
  obtain ⟨t, hexec, hdelivers⟩ := exec_alu_delivers (f := fun x y => x * y) (ins := .mul d a b i) (s := s) rfl rfl
  exact ⟨t, _, hexec, hdelivers, mul_eq_ofNat_mul _ _, mul_eq_ofInt_mul _ _⟩

/-! ### `div` and `mod` -/

/-- Truncated division works on the magnitudes and puts the signs back. -/
theorem tdiv_eq_sign_mul (x y : Int) : x.tdiv y = x.sign * y.sign * (x.natAbs / y.natAbs : Nat) := by
  rw [← Int.sign_mul_natAbs (x.tdiv y), Int.natAbs_tdiv, Int.sign_tdiv]
  split_ifs with hlt
  · simp [Nat.div_eq_of_lt hlt]
  · rfl

/-- The truncated remainder works on the magnitudes and takes the dividend's sign. -/
theorem tmod_eq_sign_mul (x y : Int) : x.tmod y = x.sign * (x.natAbs % y.natAbs : Nat) := by
  rw [← Int.sign_mul_natAbs (x.tmod y), Int.natAbs_tmod, Int.sign_tmod]
  split_ifs with hdvd
  · simp [Nat.mod_eq_zero_of_dvd (Int.natAbs_dvd_natAbs.2 hdvd)]
  · rfl

/-- A remainder is no larger than the dividend, so it is a word without wrapping. -/
theorem remainder_toInt (x y : Word) :
    (remainder x y).toInt = x.toInt.sign * (x.toInt.natAbs % y.toInt.natAbs : Nat) := by
  have hle : (x.toInt.tmod y.toInt).natAbs ≤ x.toInt.natAbs := by
    rw [Int.natAbs_tmod]; exact Nat.mod_le _ _
  have hneg : x.toInt ≤ 0 → 0 ≤ -x.toInt.tmod y.toInt := fun h => by
    rw [← Int.neg_tmod]; exact Int.tmod_nonneg _ (by omega)
  have hlo := BitVec.le_toInt x
  have hhi := BitVec.toInt_lt (x := x)
  rw [← tmod_eq_sign_mul, remainder, BitVec.toInt_ofInt_eq_self (by decide)] <;> omega

/-- `div` or `mod` with a divisor that is not 0 delivers its function of the operands (R113, R114). -/
theorem exec_divOp_delivers {ins : Instr} {s : State} {c : Opcode} {d a b : RegIdx} {i : Word}
    {f : Word → Word → Word} (harm : exec ins s = .next (serialExec [divOp c d a b i f] s))
    (hb : s.operand b i ≠ 0#32) :
    ∃ t, exec ins s = .next t ∧ Delivers s t d (f (s.operand a i) (s.operand b i)) := by
  rcases serialExec_divOp s c d a b i f with ⟨hzero, -⟩ | ⟨-, hdelivers⟩
  · exact absurd hzero hb
  · exact ⟨_, harm, hdelivers⟩

/-- Settles O23: the quotient and the remainder by magnitudes and signs; the overflow case by evaluation. -/
theorem divisionResults : Obligations.DivisionResults := by
  intro s d a b i x y hb
  obtain ⟨t, ht, hdiv⟩ := exec_divOp_delivers (ins := .div d a b i) (d := d) (a := a) (f := quotient) rfl hb
  obtain ⟨u, hu, hmod⟩ := exec_divOp_delivers (ins := .mod d a b i) (d := d) (a := a) (f := remainder) rfl hb
  refine ⟨⟨t, _, ht, hdiv, ?quotient, fun hx hy => ?overflow⟩, ⟨u, _, hu, hmod, remainder_toInt _ _, fun hx hy => ?_⟩⟩
  case quotient => rw [quotient, tdiv_eq_sign_mul]
  case overflow =>
    have hq : quotient (s.operand a i) (s.operand b i) = BitVec.ofInt 32 (x.tdiv y) := rfl
    rw [hq, hx, hy]
    decide
  · have hr : remainder (s.operand a i) (s.operand b i) = BitVec.ofInt 32 (x.tmod y) := rfl
    rw [hr, hx, hy]
    decide

/-- `div` or `mod` by 0 latches its record and nothing else; the block then holds (60_exceptions.md R200, R202). -/
theorem exec_divOp_traps {ins : Instr} {s : State} {c : Opcode} {d a b : RegIdx} {i : Word}
    {f : Word → Word → Word} (harm : exec ins s = .next (serialExec [divOp c d a b i f] s))
    (hb : s.operand b i = 0#32) :
    ∃ t, exec ins s = .next t ∧ t.fault = some ⟨.arithmeticTrap, c, s.reg 31#5⟩ ∧ OnlyAdvances s t ∧
      step t = .next t := by
  rcases serialExec_divOp s c d a b i f with ⟨-, htraps⟩ | ⟨hne, -⟩
  · rw [htraps] at harm
    exact ⟨_, harm, rfl, onlyAdvances_raise s _, step_of_stopped ((stopped_iff _).2 (.inr (by simp)))⟩
  · exact absurd hb hne

/-- On a machine without a fault `div` and `mod` latch one exactly when the second operand is 0. -/
theorem exec_divOp_fault_iff {ins : Instr} {s t : State} {c : Opcode} {d a b : RegIdx} {i : Word}
    {f : Word → Word → Word} (harm : exec ins s = .next (serialExec [divOp c d a b i f] s)) (hs : s.fault = none)
    (ht : exec ins s = .next t) : t.fault.isSome = true ↔ s.operand b i = 0#32 := by
  rw [harm] at ht
  cases ht
  rcases serialExec_divOp s c d a b i f with ⟨hzero, htraps⟩ | ⟨hne, hdelivers⟩
  · simp [htraps, hzero]
  · simp [hdelivers.fault, hs, hne]

/-- When the second operand is 0, by its index (R117). -/
theorem operand_eq_zero_iff (s : State) (b : RegIdx) (i : Word) : s.operand b i = 0#32 ↔
    if b = 30#5 then True else if b = 29#5 then i = 0#32
    else if b = 31#5 then s.reg 31#5 + 4#32 = 0#32 else s.reg b = 0#32 := by
  rw [State.operand, rd_eq_ite]
  split_ifs <;> simp_all

/-- Settles O24: the trap by the zero test of the second operand, in `exec` and in the execute stage. -/
theorem divisionByZeroTraps : Obligations.DivisionByZeroTraps := by
  refine ⟨fun s d a b i => ⟨fun hb => ⟨exec_divOp_traps rfl hb, exec_divOp_traps rfl hb⟩, fun _ hy => ?overflow,
    fun t hs ht => ?zeroTest⟩, fun s D f hraise hkind => ?execute⟩
  case overflow =>
    have hb : s.operand b i ≠ 0#32 := by
      intro hzero
      rw [hzero] at hy
      exact absurd hy (by decide)
    obtain ⟨t, ht, hdiv⟩ := exec_divOp_delivers (ins := .div d a b i) (d := d) (a := a) (f := quotient) rfl hb
    obtain ⟨u, hu, hmod⟩ := exec_divOp_delivers (ins := .mod d a b i) (d := d) (a := a) (f := remainder) rfl hb
    exact ⟨⟨t, ht, hdiv.fault⟩, u, hu, hmod.fault⟩
  case zeroTest =>
    rw [← operand_eq_zero_iff]
    rcases ht with ht | ht
    · exact exec_divOp_fault_iff (f := quotient) (d := d) (a := a) rfl hs ht
    · exact exec_divOp_fault_iff (f := remainder) (d := d) (a := a) rfl hs ht
  case execute =>
    obtain ⟨hcode, hipc, hinvalid | ⟨-, d, a, b, i, hop, hzero⟩⟩ := execDecoded_raise_cases hraise
    · rw [hinvalid] at hkind
      cases hkind
    · exact ⟨d, a, b, i, hop, hzero, hcode, hipc⟩

/-! ### The shifts -/

theorem shiftLeftBy_eq (x y : Word) :
    shiftLeftBy x y = if y.toNat < 32 then BitVec.ofNat 32 (x.toNat * 2 ^ y.toNat) else 0#32 := by
  rw [shiftLeftBy]
  split_ifs
  · apply BitVec.eq_of_toNat_eq
    rw [BitVec.toNat_shiftLeft, Nat.shiftLeft_eq, BitVec.toNat_ofNat]
  · rfl

theorem shiftRightBy_toNat (x y : Word) :
    (shiftRightBy x y).toNat = if y.toNat < 32 then x.toNat / 2 ^ y.toNat else 0 := by
  rw [shiftRightBy]
  split_ifs
  · rw [BitVec.toNat_ushiftRight, Nat.shiftRight_eq_div_pow]
  · rfl

theorem shiftArithRightBy_toInt (x y : Word) : (shiftArithRightBy x y).toInt = x.toInt / 2 ^ min y.toNat 31 := by
  rw [shiftArithRightBy, BitVec.toInt_sshiftRight, Int.shiftRight_eq_div_pow]
  norm_cast

/-- Settles O26: all four are of the common ALU form, `sal` with the function of `sl`. -/
theorem shifts : Obligations.Shifts := by
  intro s d a b i x n
  obtain ⟨t1, h1, hsl⟩ := exec_alu_delivers (f := shiftLeftBy) (ins := .sl d a b i) (s := s) rfl rfl
  obtain ⟨t2, h2, hsr⟩ := exec_alu_delivers (f := shiftRightBy) (ins := .sr d a b i) (s := s) rfl rfl
  obtain ⟨t3, h3, hsal⟩ := exec_alu_delivers (f := shiftLeftBy) (ins := .sal d a b i) (s := s) rfl rfl
  obtain ⟨t4, h4, hsar⟩ := exec_alu_delivers (f := shiftArithRightBy) (ins := .sar d a b i) (s := s) rfl rfl
  exact ⟨⟨t1, _, h1, hsl, shiftLeftBy_eq _ _⟩, ⟨t2, _, h2, hsr, shiftRightBy_toNat _ _⟩,
    ⟨t3, _, h3, hsal, shiftLeftBy_eq _ _⟩, ⟨t4, _, h4, hsar, shiftArithRightBy_toInt _ _⟩⟩

/-! ### The v1 opcodes -/

/-- An instruction whose rule is to raise `InvalidOpcode` latches it and only advances (R62). -/
theorem exec_invalidOp {ins : Instr} {s : State} {c : Opcode}
    (harm : exec ins s = .next (serialExec [invalidOp c] s)) :
    ∃ t, exec ins s = .next t ∧ OnlyAdvances s t ∧ t.fault = some ⟨.invalidOpcode, c, s.reg 31#5⟩ := by
  rw [serialExec_raise rfl] at harm
  exact ⟨_, harm, onlyAdvances_raise s _, rfl⟩

/-- Settles O27: each of the four raises `InvalidOpcode` with its code. -/
theorem v1OpcodesFault : Obligations.V1OpcodesFault :=
  fun _ _ _ _ _ => ⟨exec_invalidOp rfl, exec_invalidOp rfl, exec_invalidOp rfl, exec_invalidOp rfl⟩

/-! ### Fields an instruction does not use (R64) -/

section UnusedImmediate
variable {d a b : RegIdx} (i i' : Word)

/-- Only index 29 reads the immediate. -/
theorem rd_immediate (s : State) {idx : RegIdx} (h : idx ≠ 29#5) (seq : Word) : rd s idx seq i = rd s idx seq i' := by
  simp only [rd_eq_ite, if_neg h]

theorem aluOp_immediate (ha : a ≠ 29#5) (hb : b ≠ 29#5) (f : Word → Word → Word) :
    aluOp d a b i f = aluOp d a b i' f := by
  funext ipc s
  simp only [aluOp, rd_immediate i i' s ha, rd_immediate i i' s hb]

theorem divOp_immediate (ha : a ≠ 29#5) (hb : b ≠ 29#5) (c : Opcode) (f : Word → Word → Word) :
    divOp c d a b i f = divOp c d a b i' f := by
  funext ipc s
  simp only [divOp, rd_immediate i i' s hb, aluOp_immediate i i' ha hb]

theorem condOp_immediate (ha : a ≠ 29#5) (hb : b ≠ 29#5) (f : Word → Word → Bool) :
    condOp a b i f = condOp a b i' f := by
  funext ipc s
  simp only [condOp, rd_immediate i i' s ha, rd_immediate i i' s hb]

theorem ldOp_immediate (ha : a ≠ 29#5) (hb : b ≠ 29#5) : ldOp d a b i = ldOp d a b i' := by
  funext ipc s
  simp only [ldOp, rd_immediate i i' s ha, rd_immediate i i' s hb]

theorem stOp_immediate (hd : d ≠ 29#5) (ha : a ≠ 29#5) (hb : b ≠ 29#5) : stOp d a b i = stOp d a b i' := by
  funext ipc s
  simp only [stOp, rd_immediate i i' s hd, rd_immediate i i' s ha, rd_immediate i i' s hb]

end UnusedImmediate

/-- Instructions with the same one operation have the same meaning. -/
theorem exec_congr {ins ins' : Instr} {op op' : ExecOp} {s : State} (h : exec ins s = .next (serialExec [op] s))
    (h' : exec ins' s = .next (serialExec [op'] s)) (e : op = op') : exec ins s = exec ins' s := by
  rw [h, h', e]

/-- Settles O28: a field that an operation's rule does not mention drops out by unfolding; the immediate stands in the
operand reads alone. -/
theorem unusedFieldsIgnored : Obligations.UnusedFieldsIgnored := by
  intro s d a b d' a' b' i i'
  refine ⟨rfl, rfl, rfl, rfl, rfl, rfl, rfl, fun ha hb => ?_⟩
  have alu := fun f => aluOp_immediate (d := d) i i' ha hb f
  have div := fun c f => divOp_immediate (d := d) i i' ha hb c f
  have cond := fun f => condOp_immediate i i' ha hb f
  exact ⟨exec_congr rfl rfl (ldOp_immediate i i' ha hb),
    fun hd => exec_congr rfl rfl (stOp_immediate i i' hd ha hb),
    exec_congr rfl rfl (cond _), exec_congr rfl rfl (cond _), exec_congr rfl rfl (cond _), exec_congr rfl rfl (cond _),
    exec_congr rfl rfl (alu fun x y => x + y), exec_congr rfl rfl (alu fun x y => x - y),
    exec_congr rfl rfl (alu fun x y => x * y), exec_congr rfl rfl (div _ _), exec_congr rfl rfl (div _ _),
    exec_congr rfl rfl (alu fun x y => x &&& y), exec_congr rfl rfl (alu fun x y => x ||| y),
    exec_congr rfl rfl (alu fun x y => ~~~(x &&& y)), exec_congr rfl rfl (alu fun x y => x ^^^ y),
    exec_congr rfl rfl (alu _), exec_congr rfl rfl (alu _), exec_congr rfl rfl (alu _), exec_congr rfl rfl (alu _)⟩

end Sys2Proof.Machine
end

section
/-!
SUPPORT. The stages one by one (40_execute_common.md R75, R84; 50_pipeline.md R147, R159 to R162): output events, commands
that are no PC write, the decode stage by cases, PC writes that flush and what the rest of their step refetches, and the
block that holds; then the statements O31, O32, O34, O39, O45, O48, O49 and O58 from these.
-/

namespace Sys2Proof.Machine

/-! ### Output (R75) -/

/-- Settles O31: the zero test is on the whole word, before a character's low byte is taken. -/
theorem outputIndices : Obligations.OutputIndices := by
  intro s v
  by_cases hv : v = 0#32
  · subst hv
    constructor <;> simp [State.writeback, State.writeIndex]
  · have hbyte : byteOf v 0 = BitVec.ofNat 8 v.toNat := by
      apply BitVec.eq_of_toNat_eq
      simp [byteOf]
    constructor <;> simp [State.writeback, State.writeIndex, State.emit, hv, hbyte]

/-! ### Commands that are no PC write (47_control_transfer.md R128) -/

/-- A command that is no PC write leaves `R[31]`. -/
theorem writeback_reg31 {c : Cmd} (h : ∀ v, c ≠ .registers 31#5 v) (s : State) :
    (s.writeback c).reg 31#5 = s.reg 31#5 := by
  cases c with
  | memory | halt => rfl
  | registers r v =>
    have hr : ¬ (31#5 = r ∧ r ≠ 29#5 ∧ r ≠ 30#5) := fun ⟨e, _⟩ => h v (e ▸ rfl)
    rw [State.writeback, writeIndex_reg, if_neg hr]

/-- Where `XR` holds no PC write, the writeback stage is at most the command's writeback. -/
theorem writebackStage_of_no_pcWrite {s : State} (h : ∀ v ipc npc, s.xr ≠ some ⟨.registers 31#5 v, ipc, npc⟩) :
    writebackStage s = s ∨ ∃ c, (∀ v, c ≠ .registers 31#5 v) ∧ writebackStage s = s.writeback c := by
  rcases writebackStage_cases s with ⟨-, e⟩ | ⟨v, ipc, npc, hx, -⟩ | ⟨c, -, -, -, hc, e⟩
  · exact .inl e
  · exact absurd hx (h v ipc npc)
  · exact .inr ⟨c, hc, e⟩

/-- A PC write that is no correct prediction flushes: `R[31]` goes to the target, the latches before execute and the
queue are emptied, and only the predictor may differ beside (R161, R162). -/
theorem branchRetire_flushes {s : State} {v npc : Word} (h : s.variant = .predicted → norm v ≠ npc) (ipc : Word) :
    branchRetire s v ipc npc = if s.variant = .predicted
      then ((s.setPc (norm v)).flush).trainTaken ipc (norm v) else (s.setPc (norm v)).flush := by
  rcases branchRetire_cases s v ipc npc with ⟨hv, heq, -⟩ | ⟨hv, -, e⟩ | ⟨hv, e⟩
  · exact absurd heq (h hv)
  · rw [e, if_pos hv]
  · rw [e, if_neg hv]

section Flushes
variable {s : State} {v ipc npc : Word}

theorem branchRetire_reg31 (h : s.variant = .predicted → norm v ≠ npc) :
    (branchRetire s v ipc npc).reg 31#5 = norm v := by
  rw [branchRetire_flushes h]; split_ifs <;> simp

theorem branchRetire_latches (h : s.variant = .predicted → norm v ≠ npc) :
    (branchRetire s v ipc npc).fr = none ∧ (branchRetire s v ipc npc).dr = none ∧
      (branchRetire s v ipc npc).dq = [] := by
  rw [branchRetire_flushes h]; split_ifs <;> simp

end Flushes

/-- Settles O32: a command that is no PC write has its writeback effect alone; a PC write that is no correct prediction
flushes. -/
theorem onlyPcWritesBranch : Obligations.OnlyPcWritesBranch := by
  intro s
  refine ⟨fun hx => ?_, fun v ipc npc hx h => ?_⟩
  · rcases writebackStage_of_no_pcWrite hx with e | ⟨c, hc, e⟩
    · simp [e]
    · simp [e, writeback_reg31 hc]
  · rw [roundDown_eq_norm] at h ⊢
    rw [writebackStage_of_pcWrite hx, branchRetire_reg31 fun hv => h.resolve_left (not_not_intro hv)]

/-! ### The block that holds, and the serial step -/

theorem reaches_of_stopped {s : State} (h : s.stopped = true) (n : Nat) : Reaches s n s := by
  induction n with
  | zero => rfl
  | succ n ih => rw [Reaches, runSteps, step_of_stopped h]; exact ih

/-- Settles O34: a stopped step is the identity, any number of times; reset is `State.boot` by definition. -/
theorem stoppedBlockHolds : Obligations.StoppedBlockHolds :=
  ⟨fun s h => reaches_of_stopped ((stopped_iff s).2 h), fun _ _ => ⟨rfl, boot_halted .., boot_fault ..⟩⟩

/-- The four bytes at the program counter decode as the fetched word does. -/
theorem decodeBytes_at_pc (s : State) (i : Instr)
    (h : decodeBytes ((List.range 4).map fun k => readByte s.mem ((roundDown (s.reg 31#5)).toNat + k)) = .ok (i, [])) :
    decode s.fetchedWord = .instr i := by
  rw [roundDown_eq_norm] at h
  have hbytes : decodeBytes ((List.range 4).map fun k => readByte s.mem ((norm (s.reg 31#5)).toNat + k)) =
      match decode s.fetchedWord with
      | .instr i => .ok (i, [])
      | .unassigned c _ => .error (.unassignedOpcode c) := rfl
  rw [hbytes] at h
  cases hD : decode s.fetchedWord with
  | instr j => rw [hD] at h; cases h; rfl
  | unassigned c f => rw [hD] at h; cases h

/-- Settles O39: the serial step fetches these four bytes. -/
theorem serialStepRunsInstr : Obligations.SerialStepRunsInstr := by
  intro s i hserial hrun h
  rw [step_serial hserial, serialStep_of_running hrun, decodeBytes_at_pc s i h, exec_eq_microOps]

/-! ### The decode stage (R147, R155 to R158) -/

section Decode
variable {s : State} {f : FetchSlot}

theorem decodeStage_of_queue {u : InFlight} {rest : List InFlight} (hdq : s.dq = u :: rest) :
    decodeStage s = if hazard u.op s.xr = true then { s with dr := none, stall := s.stall + 1#32 }
      else { s with dr := some u, dq := rest } := by
  simp only [decodeStage, hdq]

theorem decodeStage_of_replay (hdq : s.dq = []) (hfr : s.fr = some f)
    (hz : hazard (expand (decode f.blob)).1 s.xr = true) :
    decodeStage s = { s with fr := none, dr := none, stall := s.stall + 1#32, regs := s.regs.set 31 f.ipc } := by
  simp only [decodeStage, hdq, hfr, hz, if_true]
  rfl

theorem decodeStage_of_issue (hdq : s.dq = []) (hfr : s.fr = some f) {D : Decoded} {rest : List Decoded}
    (hD : expand (decode f.blob) = (D, rest)) (hz : hazard D s.xr = false) :
    decodeStage s = { s with
      fr := none, dr := some ⟨D, f.ipc, f.npc⟩, dq := rest.map fun u => ⟨u, f.ipc, f.npc⟩
      stall := s.stall + BitVec.ofNat 32 rest.length } := by
  simp [decodeStage, hdq, hfr, hD, hz]

/-- The issue of a word that is its own one micro-op leaves the queue and the stall counter. -/
theorem decodeStage_of_single (hdq : s.dq = []) (hfr : s.fr = some f) {D : Decoded}
    (hD : expand (decode f.blob) = (D, [])) (hz : hazard D s.xr = false) :
    decodeStage s = { s with fr := none, dr := some ⟨D, f.ipc, f.npc⟩ } := by
  rw [decodeStage_of_issue hdq hfr hD hz]
  simp [hdq]

theorem decodeStage_of_empty (hdq : s.dq = []) (hfr : s.fr = none) : decodeStage s = { s with dr := none } := by
  simp only [decodeStage, hdq, hfr]

end Decode

/-- An instruction that is no macro is its own expansion. -/
theorem expand_instr {i : Instr} (h : ∀ d a b imm, i ≠ .push d a b imm ∧ i ≠ .pop d a b imm) :
    expand (.instr i) = (.instr i, []) := by
  cases i with
  | push d a b imm => exact absurd rfl (h d a b imm).1
  | pop d a b imm => exact absurd rfl (h d a b imm).2
  | _ => rfl

/-- Settles O45: the seven cases, by the queue, the fetch latch, the hazard and the expansion of the word. -/
theorem decodeStage_rule : Obligations.DecodeStage := by
  refine ⟨fun s u rest hdq => decodeStage_of_queue hdq, fun s f hdq hfr hz => decodeStage_of_replay hdq hfr hz,
    fun s f i hdq hfr hD hi hz => ?_, fun s f c fields hdq hfr hD hz => ?_, fun s f d a b i hdq hfr hD hz => ?_,
    fun s f d a b i hdq hfr hD hz => ?_, fun s hdq hfr => decodeStage_of_empty hdq hfr⟩
  · exact decodeStage_of_single hdq hfr (by rw [hD, expand_instr hi]) hz
  · exact decodeStage_of_single hdq hfr (by rw [hD]; rfl) hz
  · exact decodeStage_of_issue hdq hfr (by rw [hD]; rfl) hz
  · exact decodeStage_of_issue hdq hfr (by rw [hD]; rfl) hz

/-! ### The step in which a PC write flushes (R159) -/

/-- With nothing to decode and no stall, the front end leaves `R[31]` where fetch went and no stall. -/
theorem frontEnd_of_empty_pc {s : State} (hdq : s.dq = []) (hfr : s.fr = none) (hstall : s.stall = 0#32) :
    (frontEnd s).reg 31#5 = s.nextFetch (s.reg 31#5) ∧ (frontEnd s).stall = 0#32 := by
  have hdec := decodeStage_of_empty hdq hfr
  have hgo : (decodeStage s).stall = 0#32 := by rw [hdec]; exact hstall
  refine ⟨?_, ?_⟩
  · rw [frontEnd, stallDec_reg, fetchStage_reg31, if_pos hgo, hdec]; rfl
  · have hzero : (fetchStage (decodeStage s)).stall = 0#32 := by rw [fetchStage_stall, hgo]
    rw [frontEnd, stallDec, if_pos hzero, hzero]

/-- A step after whose writeback stage nothing is left to execute or decode fetches the word at `R[31]`. -/
theorem pipeStep_of_flushed {s : State} (hrun : s.Running) (hhalt : (writebackStage s).halted = false)
    (hfr : (writebackStage s).fr = none) (hdr : (writebackStage s).dr = none) (hdq : (writebackStage s).dq = [])
    (hstall : s.stall = 0#32) :
    let w := writebackStage s
    pipeStep s = frontEnd { w with xr := none } ∧ (pipeStep s).dr = none ∧ (pipeStep s).xr = none ∧
      (pipeStep s).dq = [] ∧ (pipeStep s).stall = 0#32 ∧
      (pipeStep s).fr = some ⟨memRead w.mem (w.reg 31#5), w.reg 31#5, w.nextFetch (w.reg 31#5)⟩ ∧
      (pipeStep s).reg 31#5 = w.nextFetch (w.reg 31#5) := by
  intro w
  have hex := executeStage_of_bubble hdr
  have hfault : (executeStage w).fault = none := by rw [hex]; exact (writebackStage_fault s).trans hrun.2
  have hstep : pipeStep s = frontEnd { w with xr := none } := by
    rw [← hex]
    simp [pipeStep, (running_iff s).2 hrun, hhalt, hfault, w]
  have hstall' : ({ w with xr := none } : State).stall = 0#32 := (writebackStage_stall s).trans hstall
  obtain ⟨hfr', hdq', hdr'⟩ := frontEnd_of_empty (s := { w with xr := none }) hdq hfr hstall'
  obtain ⟨hpc', hzero'⟩ := frontEnd_of_empty_pc (s := { w with xr := none }) hdq hfr hstall'
  rw [hstep]
  exact ⟨rfl, hdr', frontEnd_xr _, hdq', hzero', hfr', hpc'⟩

/-- The flush of a PC write leaves the architectural result: only `R[31]` and pipeline state move. -/
theorem sameArch_branchRetire (s : State) (v ipc npc : Word) : SameArch s (branchRetire s v ipc npc) where
  regs r hr := branchRetire_reg s v ipc npc r (ne_pcIdx_of_le hr)
  mem n := by rw [branchRetire_mem]
  halted := branchRetire_halted ..
  fault := branchRetire_fault ..
  out := branchRetire_out ..

theorem SameArch.trans {s t u : State} (h1 : SameArch s t) (h2 : SameArch t u) : SameArch s u where
  regs r hr := (h2.regs r hr).trans (h1.regs r hr)
  mem n := (h2.mem n).trans (h1.mem n)
  halted := h2.halted.trans h1.halted
  fault := h2.fault.trans h1.fault
  out := h2.out.trans h1.out

theorem sameArch_frontEnd (s : State) : SameArch s (frontEnd s) where
  regs r hr := frontEnd_reg s r (ne_pcIdx_of_le hr)
  mem n := by rw [frontEnd_mem]
  halted := frontEnd_halted s
  fault := frontEnd_fault s
  out := frontEnd_out s

/-- Settles O48: the flush empties everything before execute, and the rest of the step is a fetch at the target, with the
predictor as the flush has trained it. -/
theorem flushRefetchesTarget : Obligations.FlushRefetchesTarget := by
  intro s t v ipc npc hpiped hrun hstall hx hpred hst target next
  rw [step_piped hpiped] at hst
  cases hst
  have htarget : target = norm v := roundDown_eq_norm v
  have hflush : s.variant = .predicted → norm v ≠ npc := by rwa [← roundDown_eq_norm]
  have hwb := writebackStage_of_pcWrite hx
  obtain ⟨hfr, hdr, hdq⟩ := branchRetire_latches (ipc := ipc) hflush
  have hpc := branchRetire_reg31 (ipc := ipc) hflush
  have hnext : (branchRetire s v ipc npc).nextFetch (norm v) = next := by
    simp only [next, htarget]
    by_cases hv : s.variant = .predicted
    · rw [nextFetch_of_predicted ((branchRetire_variant ..).trans hv), if_pos hv, branchRetire_flushes hflush, if_pos hv]
      rfl
    · rw [nextFetch_of_not_predicted (by rwa [branchRetire_variant]), if_neg hv]
  rw [← hwb] at hfr hdr hdq hpc hnext
  have hhalt : (writebackStage s).halted = false := by rw [hwb, branchRetire_halted]; exact hrun.1
  obtain ⟨hstep, hdr', hxr', hdq', hstall', hfr', hpc'⟩ := pipeStep_of_flushed hrun hhalt hfr hdr hdq hstall
  have hmem : (writebackStage s).mem = s.mem := writebackStage_mem_of_registers hx
  refine ⟨hdr', hxr', hdq', hstall', ?_, ?_, ?_⟩
  · rw [hfr', hpc, hnext, hmem, memRead_norm, htarget]
  · rw [hpc', hpc, hnext]
  · rw [hstep, hwb]
    have hexec : SameArch (branchRetire s v ipc npc) { branchRetire s v ipc npc with xr := none } :=
      ⟨fun _ _ => rfl, fun _ => rfl, rfl, rfl, rfl⟩
    exact ((sameArch_branchRetire s v ipc npc).trans hexec).trans (sameArch_frontEnd _)

/-- Settles O49: the two cases of the flush control in the predicted variant. -/
theorem predictedRetirement : Obligations.PredictedRetirement := by
  intro s v ipc npc hv hx
  rw [writebackStage_of_pcWrite hx, roundDown_eq_norm]
  refine ⟨fun heq => ?hit, fun hne => ?miss⟩
  case hit =>
    rcases branchRetire_cases s v ipc npc with ⟨-, -, e⟩ | ⟨-, hne, -⟩ | ⟨hnot, -⟩
    · exact e
    · exact absurd heq hne
    · exact absurd hv hnot
  case miss =>
    have hflush : s.variant = .predicted → norm v ≠ npc := fun _ => hne
    obtain ⟨hfr, hdr, hdq⟩ := branchRetire_latches (ipc := ipc) hflush
    have htrain := branchRetire_flushes hflush ipc
    rw [if_pos hv] at htrain
    refine ⟨branchRetire_reg31 hflush, hfr, hdr, hdq, ?_, fun k hk => ?_, ?_, ?_, branchRetire_xr .., branchRetire_stall ..,
      sameArch_branchRetire ..⟩
    · rw [htrain, State.trainTaken, jumpTarget_setJumpTarget, if_pos rfl]
    · rw [htrain, State.trainTaken, jumpTarget_setJumpTarget, if_neg hk]; rfl
    · rw [htrain]; rfl
    · rw [htrain]; rfl

/-! ### Reset -/

/-- The reset state of every variant meets the invariant: nothing is in flight and nothing is listed in the predictor. -/
theorem boot_inv (v : Variant) {m0 : Memory} (h : m0.wf = true) : (State.boot v m0).Inv where
  stall := boot_stall ..
  queue := by simp
  fetchEmpty := by simp
  pc := by rw [boot_reg]; decide
  frOk := by simp
  dqOk := by simp
  drOk := by simp
  xrOk := by simp
  mem := h
  predictor := ⟨rfl, by simp, rfl, by simp⟩

/-- Settles O58: `State.reset` is the reset state with the empty image. -/
theorem resetMeetsInvariant : Obligations.ResetMeetsInvariant :=
  ⟨boot_inv _ reset_memory_wf, fun v _ h => boot_inv v h⟩

end Sys2Proof.Machine
end

section
/-!
SUPPORT. Frames of whole steps (50_pipeline.md R140, R163; 60_exceptions.md R200, R201): what a serial step keeps, what the
writeback stage does to the latches and to the predictor, what a pipelined step takes over from it, and what a step that
faults leaves; then the statements O33, O36, O37, O40, O50, O51 and O56 from these.
-/

namespace Sys2Proof.Machine

/-! ### The serial step -/

theorem SameMicro.refl (s : State) : SameMicro s s := ⟨rfl, rfl, rfl, rfl, rfl, rfl, rfl, rfl, rfl⟩

theorem SameMicro.trans {s t u : State} (h1 : SameMicro s t) (h2 : SameMicro t u) : SameMicro s u where
  fr := h2.fr.trans h1.fr
  dq := h2.dq.trans h1.dq
  dr := h2.dr.trans h1.dr
  xr := h2.xr.trans h1.xr
  stall := h2.stall.trans h1.stall
  table := h2.table.trans h1.table
  hist := h2.hist.trans h1.hist
  jumpMap := h2.jumpMap.trans h1.jumpMap
  variant := h2.variant.trans h1.variant

theorem sameMicro_setPc (s : State) (v : Word) : SameMicro s (s.setPc v) := by constructor <;> rfl

theorem sameMicro_raise (s : State) (f : FaultRecord) : SameMicro s (s.raise f) := by constructor <;> rfl

theorem sameMicro_writeback (s : State) (c : Cmd) : SameMicro s (s.writeback c) := by constructor <;> simp

/-- Serial execution touches neither latches nor predictor. -/
theorem sameMicro_retireOps (ipc : Word) (ops : List ExecOp) (s : State) : SameMicro s (retireOps ipc ops s) := by
  induction ops generalizing s with
  | nil => exact SameMicro.refl s
  | cons op rest ih =>
    cases e : runOp op ipc s with
    | command c => rw [retireOps_command e]; exact (sameMicro_writeback s c).trans (ih _)
    | raise f => rw [retireOps_raise e]; exact sameMicro_raise s f

theorem sameMicro_serialExec (ops : List ExecOp) (s : State) : SameMicro s (serialExec ops s) :=
  (sameMicro_setPc s _).trans (sameMicro_retireOps ..)

/-- All that a step of the serial reference can do: hold, or execute the fetched word. -/
theorem step_serial_cases {s t : State} (hv : s.variant = .serial) (h : step s = .next t) :
    (s.stopped = true ∧ t = s) ∨ (s.Running ∧ t = serialExec (microOps (decode s.fetchedWord)) s) := by
  cases hs : s.stopped with
  | true =>
    rw [step_of_stopped hs] at h
    cases h
    exact .inl ⟨rfl, rfl⟩
  | false =>
    have hrun := (running_iff s).1 hs
    rw [step_serial hv, serialStep_of_running hrun] at h
    cases h
    exact .inr ⟨hrun, rfl⟩

/-- Every step of a pipelined variant is `pipeStep`. -/
theorem eq_pipeStep_of_step {s t : State} (hpiped : s.Piped) (h : step s = .next t) : t = pipeStep s := by
  rw [step_piped hpiped] at h
  cases h
  rfl

/-! ### The writeback stage -/

/-- The writeback stage keeps the latches and the queue, or empties all three of them (R160). -/
theorem writebackStage_latches (s : State) :
    ((writebackStage s).fr = s.fr ∧ (writebackStage s).dr = s.dr ∧ (writebackStage s).dq = s.dq) ∨
    ((writebackStage s).fr = none ∧ (writebackStage s).dr = none ∧ (writebackStage s).dq = []) := by
  rcases writebackStage_cases s with ⟨-, e⟩ | ⟨v, ipc, npc, -, e⟩ | ⟨c, -, -, -, -, e⟩
  · rw [e]; exact .inl ⟨rfl, rfl, rfl⟩
  · rw [e]
    rcases branchRetire_cases s v ipc npc with ⟨-, -, e⟩ | ⟨-, -, e⟩ | ⟨-, e⟩ <;> simp [e]
  · rw [e]; exact .inl ⟨writeback_fr s c, writeback_dr s c, writeback_dq s c⟩

theorem dr_of_writebackStage_dr {s : State} {D : InFlight} (h : (writebackStage s).dr = some D) : s.dr = some D := by
  rcases writebackStage_latches s with ⟨-, hdr, -⟩ | ⟨-, hdr, -⟩
  · rw [← hdr, h]
  · rw [hdr] at h; cases h

/-- The predictor's three pieces of state are unchanged. -/
structure SamePredictor (s t : State) : Prop where
  table : t.table = s.table
  hist : t.hist = s.hist
  jumpMap : t.jumpMap = s.jumpMap

theorem SamePredictor.trans {s t u : State} (h1 : SamePredictor s t) (h2 : SamePredictor t u) : SamePredictor s u :=
  ⟨h2.table.trans h1.table, h2.hist.trans h1.hist, h2.jumpMap.trans h1.jumpMap⟩

theorem SameMicro.predictor {s t : State} (h : SameMicro s t) : SamePredictor s t := ⟨h.table, h.hist, h.jumpMap⟩

theorem SamePredictor.counter {s t : State} (h : SamePredictor s t) (k : BitVec 10) : t.counter k = s.counter k := by
  rw [State.counter, State.counter, h.table]

theorem SamePredictor.jumpTarget {s t : State} (h : SamePredictor s t) (ipc : Word) :
    t.jumpTarget ipc = s.jumpTarget ipc := by
  rw [State.jumpTarget, State.jumpTarget, h.jumpMap]

/-- All that the writeback stage can do to the predictor: nothing, or, where a PC write retires in the predicted variant,
the note of a correct prediction or a training (R162). -/
theorem writebackStage_predictor (s : State) :
    SamePredictor s (writebackStage s) ∨
    ∃ v ipc npc, s.xr = some ⟨.registers 31#5 v, ipc, npc⟩ ∧ s.variant = .predicted ∧
      (SamePredictor (s.correctPrediction ipc) (writebackStage s) ∨
        SamePredictor (s.trainTaken ipc (norm v)) (writebackStage s)) := by
  rcases writebackStage_cases s with ⟨-, e⟩ | ⟨v, ipc, npc, hx, e⟩ | ⟨c, -, -, -, -, e⟩
  · rw [e]; exact .inl ⟨rfl, rfl, rfl⟩
  · rw [e]
    rcases branchRetire_cases s v ipc npc with ⟨hv, -, e⟩ | ⟨hv, -, e⟩ | ⟨-, e⟩
    · exact .inr ⟨v, ipc, npc, hx, hv, .inl (by rw [e]; exact ⟨rfl, rfl, rfl⟩)⟩
    · exact .inr ⟨v, ipc, npc, hx, hv, .inr (by rw [e]; exact ⟨rfl, rfl, rfl⟩)⟩
    · rw [e]; exact .inl ⟨rfl, rfl, rfl⟩
  · rw [e]; exact .inl (sameMicro_writeback s c).predictor

theorem eventsOf_length (d : RegIdx) (v : Word) : (eventsOf d v).length ≤ 1 := by
  unfold eventsOf; split_ifs <;> simp

/-- A command emits at most one event. -/
theorem writeback_out (s : State) (c : Cmd) : ∃ evs, (s.writeback c).out = s.out ++ evs ∧ evs.length ≤ 1 := by
  cases c with
  | registers r v => exact ⟨_, writeIndex_out s r v, eventsOf_length r v⟩
  | memory addr v => exact ⟨[], by simp [State.writeback]⟩
  | halt => exact ⟨[], by simp [State.writeback]⟩

theorem writebackStage_out (s : State) :
    ∃ evs, (writebackStage s).out = s.out ++ evs ∧ evs.length ≤ 1 := by
  rcases writebackStage_cases s with ⟨-, e⟩ | ⟨v, ipc, npc, -, e⟩ | ⟨c, -, -, -, -, e⟩
  · exact ⟨[], by simp [e]⟩
  · exact ⟨[], by simp [e]⟩
  · rw [e]; exact writeback_out s c

/-- Serial execution emits at most one event for each operation. -/
theorem retireOps_out (ipc : Word) (ops : List ExecOp) (s : State) :
    ∃ evs, (retireOps ipc ops s).out = s.out ++ evs ∧ evs.length ≤ ops.length := by
  induction ops generalizing s with
  | nil => exact ⟨[], by simp⟩
  | cons op rest ih =>
    cases e : runOp op ipc s with
    | raise f => rw [retireOps_raise e]; exact ⟨[], by simp⟩
    | command c =>
      obtain ⟨evs1, h1, hlen1⟩ := writeback_out s c
      obtain ⟨evs2, h2, hlen2⟩ := ih (s.writeback c)
      refine ⟨evs1 ++ evs2, by rw [retireOps_command e, h2, h1, List.append_assoc], ?_⟩
      rw [List.length_append, List.length_cons]
      omega

theorem microOps_length (w : Word) : (microOps (decode w)).length ≤ 2 := by
  obtain ⟨-, -, hlen⟩ := expand_issuable w
  rw [microOps, List.length_cons, List.length_map]
  omega

/-! ### The pipelined step -/

/-- In a running pipeline the stages after writeback add no output and leave the predictor and the variant alone. -/
theorem pipeStep_keeps_of_running {s : State} (h : s.Running) :
    (pipeStep s).out = (writebackStage s).out ∧ SamePredictor (writebackStage s) (pipeStep s) ∧
      (pipeStep s).variant = (writebackStage s).variant := by
  have hs : s.stopped = false := (running_iff s).2 h
  rcases pipeStep_cases s with ⟨hstop, -⟩ | ⟨-, -, e⟩ | ⟨-, -, -, e⟩ | ⟨-, -, -, e⟩
  · simp [hs] at hstop
  · rw [e]; exact ⟨rfl, ⟨rfl, rfl, rfl⟩, rfl⟩
  · rw [e]; exact ⟨executeStage_out _, ⟨executeStage_table _, executeStage_hist _, executeStage_jumpMap _⟩,
      executeStage_variant _⟩
  · rw [e]
    refine ⟨?_, ⟨?_, ?_, ?_⟩, ?_⟩ <;> simp

/-- Where the instruction in `DR` gives a command, the step carries it to `XR` and runs the front end. -/
theorem pipeStep_of_command {s : State} {D : InFlight} {c : Cmd} (hrun : s.Running)
    (hhalt : (writebackStage s).halted = false) (hD : (writebackStage s).dr = some D)
    (hc : execDecoded D (writebackStage s) = .command c) :
    pipeStep s = frontEnd { writebackStage s with xr := some ⟨c, D.ipc, D.npc⟩ } := by
  have hex := executeStage_of_command hD hc
  simp [pipeStep, (running_iff s).2 hrun, hhalt, hex, hrun.2]

/-- Settles O40: a serial step emits at most one event for each of its one or two operations, a pipelined one what its
writeback stage emits. -/
theorem everyStepIsNext : Obligations.EveryStepIsNext := by
  intro s
  by_cases hstop : s.stopped = true
  · exact ⟨s, [], step_of_stopped hstop, rfl, by simp, by simp⟩
  · have hrun : s.Running := (running_iff s).1 (by simpa using hstop)
    by_cases hv : s.variant = .serial
    · obtain ⟨evs, hout, hlen⟩ :=
        retireOps_out s.pc (microOps (decode s.fetchedWord)) (s.setPc (s.pc + 4#32))
      refine ⟨_, evs, (step_serial hv).trans (serialStep_of_running hrun), (sameMicro_serialExec _ s).variant, hout, ?_⟩
      rw [if_pos hv]
      exact hlen.trans (microOps_length _)
    · obtain ⟨hout', -, hvariant⟩ := pipeStep_keeps_of_running hrun
      obtain ⟨evs, hout, hlen⟩ := writebackStage_out s
      refine ⟨_, evs, step_piped hv, hvariant.trans (writebackStage_variant s), hout'.trans hout, ?_⟩
      rwa [if_neg hv]

/-! ### The predictor over a step -/

section CounterUp
variable (s : State) (ipc target : Word) (k : BitVec 10)

theorem counter_le_counterUp : (s.counter k).toNat ≤ ((s.counterUp ipc).counter k).toNat := by
  have := (s.counter k).isLt
  rw [counter_counterUp_toNat]
  split_ifs <;> omega

theorem counter_le_trainTaken : (s.counter k).toNat ≤ ((s.trainTaken ipc target).counter k).toNat :=
  counter_le_counterUp s ipc k

theorem jumpTarget_trainTaken (q : Word) :
    (s.trainTaken ipc target).jumpTarget q = if q = ipc then some target else s.jumpTarget q := by
  rw [State.trainTaken, jumpTarget_setJumpTarget]; rfl

end CounterUp

/-- The writeback stage lowers no counter and drops no jump-map entry (R196). -/
theorem writebackStage_predictor_grows (s : State) :
    (∀ k, (s.counter k).toNat ≤ ((writebackStage s).counter k).toNat) ∧
      ∀ ipc, s.jumpTarget ipc ≠ none → (writebackStage s).jumpTarget ipc ≠ none := by
  rcases writebackStage_predictor s with same | ⟨v, ipc, -, -, -, hit | miss⟩
  · exact ⟨fun k => (same.counter k).symm ▸ le_rfl, fun q hq => by rwa [same.jumpTarget]⟩
  · exact ⟨fun k => (hit.counter k).symm ▸ counter_le_counterUp s ipc k, fun q hq => by rwa [hit.jumpTarget]⟩
  · refine ⟨fun k => (miss.counter k).symm ▸ counter_le_trainTaken s ipc (norm v) k, fun q hq => ?_⟩
    rw [miss.jumpTarget, jumpTarget_trainTaken]
    split_ifs
    · simp
    · exact hq

/-- A step that neither is serial nor holds has the predictor of its writeback stage; any other keeps it. -/
theorem step_predictor {s t : State} (h : step s = .next t) :
    SamePredictor s t ∨ SamePredictor (writebackStage s) t := by
  by_cases hv : s.variant = .serial
  · rcases step_serial_cases hv h with ⟨-, rfl⟩ | ⟨-, rfl⟩
    · exact .inl ⟨rfl, rfl, rfl⟩
    · exact .inl (sameMicro_serialExec _ s).predictor
  · obtain rfl := eq_pipeStep_of_step hv h
    by_cases hrun : s.Running
    · obtain ⟨-, hsame, -⟩ := pipeStep_keeps_of_running hrun
      exact .inr hsame
    · have hstop : s.stopped = true := by simpa using mt (running_iff s).1 hrun
      rw [step_of_stopped hstop] at h
      rw [← Host.Outcome.next.inj h]
      exact .inl ⟨rfl, rfl, rfl⟩

/-- Settles O56: only the retirement of a PC write in the predicted variant moves the predictor, and it only grows. -/
theorem predictorChangedByBranches : Obligations.PredictorChangedByBranches := by
  intro s t h
  rcases step_predictor h with same | fromWb
  · exact ⟨fun _ => ⟨same.table, same.hist, same.jumpMap⟩, fun k => (same.counter k).symm ▸ le_rfl,
      fun q hq => by rwa [same.jumpTarget]⟩
  · obtain ⟨hcounter, hjump⟩ := writebackStage_predictor_grows s
    refine ⟨fun hno => ?_, fun k => (fromWb.counter k).symm ▸ hcounter k, fun q hq => ?_⟩
    · rcases writebackStage_predictor s with same | ⟨v, ipc, npc, hx, hv, -⟩
      · have hall := same.trans fromWb
        exact ⟨hall.table, hall.hist, hall.jumpMap⟩
      · rcases hno with hno | hno
        · exact absurd hx (hno v ipc npc)
        · exact absurd hv hno
    · rw [fromWb.jumpTarget]; exact hjump q hq

/-! ### Faults -/

/-- Settles O36: of the four outcomes of a pipelined step only the fault of the instruction in `DR` latches a record. -/
theorem pipelinedFaultsArePrecise : Obligations.PipelinedFaultsArePrecise := by
  intro s t f hpiped hnone hst hfault
  obtain rfl := eq_pipeStep_of_step hpiped hst
  have hwb : (writebackStage s).fault = none := (writebackStage_fault s).trans hnone
  rcases pipeStep_cases s with ⟨-, e⟩ | ⟨-, -, e⟩ | ⟨-, hhalt, hex, e⟩ | ⟨-, -, hex, e⟩
  · rw [e, hnone] at hfault; cases hfault
  · rw [e, hwb] at hfault; cases hfault
  · rcases executeStage_cases (writebackStage s) with ⟨-, e'⟩ | ⟨_, _, -, -, e'⟩ | ⟨D, g, hD, hraise, e'⟩
    · rw [e'] at hex; simp [hnone] at hex
    · rw [e'] at hex; simp [hnone] at hex
    · rw [e, e'] at hfault
      obtain rfl : g = f := Option.some.inj hfault
      obtain ⟨hcode, hipc, hkind⟩ := execDecoded_raise_cases hraise
      have hknown : g.kind ≠ .invalidRegister := by
        rcases hkind with hk | ⟨hk, -⟩ <;> rw [hk] <;> decide
      rw [e, e']
      exact ⟨D, dr_of_writebackStage_dr hD, hraise, hipc, hcode, hknown, ⟨fun _ _ => rfl, fun _ => rfl, rfl, rfl⟩,
        hhalt, rfl, sameMicro_raise _ g⟩
  · rw [e, frontEnd_fault, hex] at hfault; cases hfault

/-- An operation that raises no fault in any state. -/
def NeverRaises (op : ExecOp) : Prop := ∀ ipc s f, op ipc s ≠ .raise f

/-- Operations that never raise leave the fault record as it was. -/
theorem retireOps_fault_of_neverRaises {ops : List ExecOp} (h : ∀ op ∈ ops, NeverRaises op) (ipc : Word) (s : State) :
    (retireOps ipc ops s).fault = s.fault := by
  induction ops generalizing s with
  | nil => rfl
  | cons op rest ih =>
    obtain ⟨hop, hrest⟩ := List.forall_mem_cons.1 h
    cases e : runOp op ipc s with
    | raise f => exact absurd (raise_of_runOp_raise e) (hop ipc s f)
    | command c => rw [retireOps_command e, ih hrest, writeback_fault]

theorem neverRaises_aluOp {d a b : RegIdx} {i : Word} {g : Word → Word → Word} : NeverRaises (aluOp d a b i g) :=
  fun _ _ _ => by simp [aluOp]

theorem neverRaises_ldOp {d a b : RegIdx} {i : Word} : NeverRaises (ldOp d a b i) := fun _ _ _ => by simp [ldOp]

theorem neverRaises_stOp {d a b : RegIdx} {i : Word} : NeverRaises (stOp d a b i) := fun _ _ _ => by simp [stOp]

/-- All that the serial execution of a word does to the fault record: nothing, or it is the word's one operation that
raises, after the fetch increment. -/
theorem serialExec_fault_cases (w : Word) (s : State) :
    (serialExec (microOps (decode w)) s).fault = s.fault ∨
    ∃ f, runOp (decodedOp (decode w)) s.pc (s.setPc (s.pc + 4#32)) = .raise f ∧
      serialExec (microOps (decode w)) s = (s.setPc (s.pc + 4#32)).raise f := by
  rcases expand_cases w with ⟨d, a, b, i, -, e⟩ | ⟨d, a, b, i, -, e⟩ | ⟨-, e⟩ <;> rw [microOps, e]
  · exact .inl (retireOps_fault_of_neverRaises
      (List.forall_mem_cons.2 ⟨neverRaises_aluOp, List.forall_mem_singleton.2 neverRaises_stOp⟩) _ _)
  · exact .inl (retireOps_fault_of_neverRaises
      (List.forall_mem_cons.2 ⟨neverRaises_ldOp, List.forall_mem_singleton.2 neverRaises_aluOp⟩) _ _)
  · cases hop : runOp (decodedOp (decode w)) s.pc (s.setPc (s.pc + 4#32)) with
    | raise f => exact .inr ⟨f, rfl, retireOps_raise hop _⟩
    | command c => exact .inl (by rw [List.map_nil, serialExec, retireOps_command hop, retireOps_nil, writeback_fault]; rfl)

/-- Settles O37: a running serial machine that latches a fault does so in the one operation of the fetched word. -/
theorem serialFaultsArePrecise : Obligations.SerialFaultsArePrecise := by
  intro s t f hv hnone hst hfault
  rcases step_serial_cases hv hst with ⟨-, rfl⟩ | ⟨-, rfl⟩
  · rw [hnone] at hfault; cases hfault
  · rcases serialExec_fault_cases s.fetchedWord s with hkeep | ⟨g, hraise, e⟩
    · rw [hkeep, hnone] at hfault; cases hfault
    · rw [e] at hfault ⊢
      obtain rfl : g = f := Option.some.inj hfault
      obtain ⟨hcode, hipc, hkind⟩ :=
        execDecoded_raise_cases (D := ⟨decode s.fetchedWord, s.pc, s.pc⟩) hraise
      have hknown : g.kind ≠ .invalidRegister := by
        rcases hkind with hk | ⟨hk, -⟩ <;> rw [hk] <;> decide
      exact ⟨hipc, hcode.trans (decode_icode _), hknown, onlyAdvances_raise s g⟩

/-! ### `InvalidOpcode` (R201) -/

/-- Every executable code has a row of the table, so no unassigned word carries one. -/
theorem lookup_of_executable : ∀ c ∈ executableCodes, (opcodeTable.lookup c).isNone = false := by decide

/-- The rule of an opcode with an execute contract raises no `InvalidOpcode`. -/
theorem kind_of_executable_raise {w ipc npc : Word} {s : State} {f : FaultRecord}
    (hcode : opcodeOf w ∈ executableCodes) (hraise : execDecoded ⟨decode w, ipc, npc⟩ s = .raise f) :
    f.kind ≠ .invalidOpcode := by
  rcases decode_cases w with ⟨i, hi, hop, -⟩ | ⟨-, hnone⟩
  · rw [hi] at hraise
    rw [← hop] at hcode
    have hrule : instrOp i ipc s = .raise f := raise_of_runOp_raise hraise
    cases i with
    | div d a b imm => obtain ⟨-, rfl⟩ := divOp_raise hrule; simp
    | mod d a b imm => obtain ⟨-, rfl⟩ := divOp_raise hrule; simp
    | push | pop | pushall | popall | call | intr => exact absurd hcode (by simp [Instr.opcode, executableCodes])
    | _ => cases hrule
  · have hrow := lookup_of_executable _ hcode
    rw [hnone] at hrow
    cases hrow

/-- A word that is no macro is its own one operation. -/
theorem microOps_of_not_macro {w : Word} (hpush : opcodeOf w ≠ 0x12#6) (hpop : opcodeOf w ≠ 0x13#6) :
    microOps (decode w) = [decodedOp (decode w)] := by
  have hcode := decode_icode w
  rcases expand_cases w with ⟨d, a, b, i, hD, -⟩ | ⟨d, a, b, i, hD, -⟩ | ⟨-, e⟩
  · rw [hD] at hcode; exact absurd hcode.symm hpush
  · rw [hD] at hcode; exact absurd hcode.symm hpop
  · rw [microOps, e]; rfl

/-- Settles O33: without a contract an opcode's rule is to raise `InvalidOpcode`, with one it never does; the serial step
latches what the rule raises, and the latched fault stops the block. -/
theorem invalidOpcodeRaised : Obligations.InvalidOpcodeRaised := by
  refine ⟨fun w ipc npc s _ _ => ⟨⟨fun ⟨f, hraise, hkind⟩ hcode => ?_, fun hcode => ?_⟩, fun f hraise => ?_⟩,
    fun s => ⟨decodeStage_fault s, fetchStage_fault s⟩, fun s hv hrun hcode hpush hpop => ?_, fun s hfault => ?_⟩
  · exact kind_of_executable_raise hcode hraise hkind
  · rw [← decode_icode] at hcode
    exact ⟨_, execDecoded_of_not_executable hcode s, rfl⟩
  · obtain ⟨hicode, hipc, -⟩ := execDecoded_raise_cases hraise
    exact ⟨hicode.trans (decode_icode w), hipc⟩
  · rw [← decode_icode] at hcode ⊢
    have hexec : serialExec (microOps (decode s.fetchedWord)) s =
        (s.setPc (s.pc + 4#32)).raise ⟨.invalidOpcode, (decode s.fetchedWord).icode, s.pc⟩ := by
      rw [microOps_of_not_macro hpush hpop, decodedOp_eq_invalidOp hcode]
      exact serialExec_raise rfl
    rw [step_serial hv, serialStep_of_running hrun, hexec]
    exact ⟨_, rfl, rfl, onlyAdvances_raise s _⟩
  · exact step_of_stopped ((stopped_iff s).2 (.inr fun hnone => by rw [hnone] at hfault; cases hfault))

/-! ### Write-first (R143), and the fetch of a step (20_memory.md R44) -/

theorem hazard_none (u : Decoded) : hazard u none = false := rfl

/-- What the front end leaves in `FR`, where a queued micro-op finds it empty: the word memory holds at its address. -/
theorem frontEnd_fr_blob {s : State} (hempty : s.dq ≠ [] → s.fr = none) {f : FetchSlot}
    (hf : (frontEnd s).fr = some f) : f.blob = memRead s.mem f.ipc := by
  rw [frontEnd, stallDec_fr] at hf
  by_cases hstall : (decodeStage s).stall = 0#32
  · rw [fetchStage_go _ hstall] at hf
    obtain rfl := Option.some.inj hf
    simp only [decodeStage_mem]
  · rw [fetchStage_stalled _ hstall, decodeStage_fr hempty] at hf
    cases hf

/-- Settles O50: the step's fetch reads memory after the step's writeback, and no older word stays in `FR`. -/
theorem storeVisibleToFetch : Obligations.StoreVisibleToFetch := by
  intro s t f hinv hpiped hrun hst hnext hf
  obtain rfl := eq_pipeStep_of_step hpiped hst
  have hempty : (writebackStage s).dq ≠ [] → (writebackStage s).fr = none := by
    rcases writebackStage_latches s with ⟨hfr, -, hdq⟩ | ⟨hfr, -, -⟩
    · rw [hfr, hdq]; exact hinv.fetchEmpty
    · exact fun _ => hfr
  rw [pipeStep_of_next_running hnext] at hf ⊢
  rw [frontEnd_mem]
  exact frontEnd_fr_blob (by rwa [executeStage_dq, executeStage_fr]) hf

/-- Settles O51: the instruction in `DR` executes on the state that the writeback stage leaves. -/
theorem writeFirst : Obligations.WriteFirst := by
  refine ⟨fun s r d v i i1 n1 i2 n2 hpiped hrun hr hd hx hD => ?_, fun s r d v i i1 n1 i2 n2 hpiped hrun hr hd hx hD => ?_⟩
  · have hwb : writebackStage s = s.setReg r v := by
      rw [writebackStage_of_index hx (ne_pcIdx_of_le hr), writeIndex_general hr]
    have hc : execDecoded ⟨.instr (.add d r 30#5 i), i2, n2⟩ (writebackStage s) = .command (.registers d v) := by
      obtain ⟨-, hadd⟩ := operandRead
      rw [hadd _ _ _ _ _ _ _ hd, hwb, rd_general _ _ _ _ hr, reg_setReg_self, rd_zeroIdx, BitVec.add_zero]
    refine ⟨_, step_piped hpiped, ?_⟩
    rw [pipeStep_of_command hrun (by rw [hwb]; exact hrun.1) (by rw [hwb]; exact hD) hc, frontEnd_xr]
  · have hwb : writebackStage s = s.store (s.reg r) v := writebackStage_of_memory hx
    have hc : execDecoded ⟨.instr (.ld d r 30#5 i), i2, n2⟩ (writebackStage s) = .command (.registers d v) := by
      rw [execDecoded_ld _ _ _ _ _ _ _ hd, hwb, rd_general _ _ _ _ hr, store_reg, rd_zeroIdx, effAddr_zero, store_mem,
        memRead_memWrite, norm_idem, if_pos rfl]
    refine ⟨_, step_piped hpiped, ?_⟩
    rw [pipeStep_of_command hrun (by rw [hwb]; exact hrun.1) (by rw [hwb]; exact hD) hc, frontEnd_xr]

end Sys2Proof.Machine
end

section
/-!
SUPPORT. The invariant of 10_state.md R29 over a step: serial execution, then the writeback stage with the predictor's
training, execute, decode and fetch, each keeping its part of `State.Inv`; then the statement O59 from these.
-/

namespace Sys2Proof.Machine

/-! ### The serial step -/

/-- The invariant is kept by whatever keeps latches and predictor, an aligned `R[31]` and the canonical form of memory. -/
theorem State.Inv.of_sameMicro {s t : State} (h : s.Inv) (same : SameMicro s t) (hpc : Aligned (t.reg 31#5))
    (hmem : t.mem.wf = true) : t.Inv where
  stall := same.stall.trans h.stall
  queue := by rw [same.dq]; exact h.queue
  fetchEmpty := by rw [same.dq, same.fr]; exact h.fetchEmpty
  pc := hpc
  frOk := by rw [same.fr]; exact h.frOk
  dqOk := by rw [same.dq]; exact h.dqOk
  drOk := by rw [same.dr]; exact h.drOk
  xrOk := by rw [same.xr]; exact h.xrOk
  mem := hmem
  predictor := by
    obtain ⟨htable, hcounters, hjump, htargets⟩ := h.predictor
    exact ⟨by rwa [same.table], by rwa [same.table], by rwa [same.jumpMap], by rwa [same.jumpMap]⟩

/-- A writeback leaves `R[31]` aligned: a PC write is normalised (R78). -/
theorem writeback_pc_aligned {s : State} (h : Aligned (s.reg 31#5)) (c : Cmd) :
    Aligned ((s.writeback c).reg 31#5) := by
  by_cases hc : ∃ v, c = .registers 31#5 v
  · obtain ⟨v, rfl⟩ := hc
    rw [State.writeback, writeIndex_reg, if_pos (by decide), if_pos rfl]
    exact norm_aligned v
  · rwa [writeback_reg31 (not_exists.1 hc)]

/-- A writeback keeps the canonical form of memory. -/
theorem writeback_mem_wf {s : State} (h : s.mem.wf = true) (c : Cmd) : (s.writeback c).mem.wf = true := by
  cases c with
  | registers r v => rwa [State.writeback, writeIndex_mem]
  | memory addr v => exact memWrite_wf addr v h
  | halt => exact h

theorem retireOps_pc_aligned_mem_wf (ipc : Word) (ops : List ExecOp) {s : State} (hpc : Aligned (s.reg 31#5))
    (hmem : s.mem.wf = true) :
    Aligned ((retireOps ipc ops s).reg 31#5) ∧ (retireOps ipc ops s).mem.wf = true := by
  induction ops generalizing s with
  | nil => exact ⟨hpc, hmem⟩
  | cons op rest ih =>
    cases e : runOp op ipc s with
    | command c => rw [retireOps_command e]; exact ih (writeback_pc_aligned hpc c) (writeback_mem_wf hmem c)
    | raise f => rw [retireOps_raise e]; exact ⟨hpc, hmem⟩

theorem serialExec_inv {s : State} (h : s.Inv) (ops : List ExecOp) : (serialExec ops s).Inv := by
  have hpc : Aligned ((s.setPc (s.pc + 4#32)).reg 31#5) := by rw [setPc_reg31]; exact aligned_add_four h.pc
  obtain ⟨hpc', hmem'⟩ := retireOps_pc_aligned_mem_wf s.pc ops hpc h.mem
  exact h.of_sameMicro (sameMicro_serialExec ops s) hpc' hmem'

/-! ### Training -/

section Training
variable {s : State} (h : s.PredictorOk) (ipc : Word)
include h

/-- A counter of canonical data is at 2, unlisted, or at 3 (R196). -/
theorem State.PredictorOk.counter (k : BitVec 10) : s.counter k = 2#2 ∨ s.counter k = 3#2 := by
  rw [State.counter]
  cases e : assocFind k.toNat s.table with
  | none => exact .inl rfl
  | some v =>
    obtain ⟨-, hv⟩ := h.counters _ (assocFind_mem e)
    exact .inr hv

/-- A step up lists its counter at 3, whatever it was. -/
theorem State.PredictorOk.counterUp : (s.counterUp ipc).PredictorOk where
  tableSorted := assocSortedFrom_assocPut _ _ _ h.tableSorted
  counters e he := by
    rcases mem_assocPut he with ⟨rfl, -⟩ | hold
    · refine ⟨(s.predIndex ipc).isLt, ?_⟩
      rcases h.counter (s.predIndex ipc) with e | e <;> simp only [e] <;> rfl
    · exact h.counters e hold
  jumpSorted := h.jumpSorted
  targets := h.targets

theorem State.PredictorOk.correctPrediction : (s.correctPrediction ipc).PredictorOk :=
  ⟨(h.counterUp ipc).tableSorted, (h.counterUp ipc).counters, h.jumpSorted, h.targets⟩

theorem State.PredictorOk.trainTaken {target : Word} (htarget : Aligned target) :
    (s.trainTaken ipc target).PredictorOk where
  tableSorted := (h.counterUp ipc).tableSorted
  counters := (h.counterUp ipc).counters
  jumpSorted := assocSortedFrom_assocInsert (Nat.zero_le _) _ h.jumpSorted
  targets e he := by
    rcases mem_assocInsert he with rfl | hold
    · exact ⟨ipc.isLt, htarget⟩
    · exact h.targets e hold

end Training

theorem State.PredictorOk.congr {s t : State} (h : s.PredictorOk) (same : SamePredictor s t) : t.PredictorOk := by
  obtain ⟨htable, hcounters, hjump, htargets⟩ := h
  exact ⟨by rwa [same.table], by rwa [same.table], by rwa [same.jumpMap], by rwa [same.jumpMap]⟩

/-! ### The stages -/

theorem branchRetire_inv {s : State} (h : s.Inv) (v ipc npc : Word) : (branchRetire s v ipc npc).Inv := by
  have hflushed : ((s.setPc (norm v)).flush).Inv := by
    refine ⟨h.stall, by simp, by simp, ?_, by simp, by simp, by simp, h.xrOk, h.mem, h.predictor.congr ⟨rfl, rfl, rfl⟩⟩
    rw [flush_reg, setPc_reg31]
    exact norm_aligned v
  rcases branchRetire_cases s v ipc npc with ⟨-, -, e⟩ | ⟨-, -, e⟩ | ⟨-, e⟩ <;> rw [e]
  · exact ⟨h.stall, h.queue, h.fetchEmpty, h.pc, h.frOk, h.dqOk, h.drOk, h.xrOk, h.mem, h.predictor.correctPrediction ipc⟩
  · have htrained := hflushed.predictor.trainTaken ipc (norm_aligned v)
    exact ⟨hflushed.stall, hflushed.queue, hflushed.fetchEmpty, hflushed.pc, hflushed.frOk, hflushed.dqOk, hflushed.drOk,
      hflushed.xrOk, hflushed.mem, htrained⟩
  · exact hflushed

theorem writebackStage_inv {s : State} (h : s.Inv) : (writebackStage s).Inv := by
  rcases writebackStage_cases s with ⟨-, e⟩ | ⟨v, ipc, npc, -, e⟩ | ⟨c, -, -, -, -, e⟩ <;> rw [e]
  · exact h
  · exact branchRetire_inv h v ipc npc
  · exact h.of_sameMicro (sameMicro_writeback s c) (writeback_pc_aligned h.pc c) (writeback_mem_wf h.mem c)

/-- The invariant with another content of `XR`. -/
theorem State.Inv.with_xr {s : State} (h : s.Inv) {xr : Option ExecSlot} (hxr : ∀ x ∈ xr, x.Ok) :
    ({ s with xr := xr } : State).Inv :=
  ⟨h.stall, h.queue, h.fetchEmpty, h.pc, h.frOk, h.dqOk, h.drOk, hxr, h.mem, h.predictor.congr ⟨rfl, rfl, rfl⟩⟩

theorem executeStage_inv {s : State} (h : s.Inv) : (executeStage s).Inv := by
  rcases executeStage_cases s with ⟨-, e⟩ | ⟨D, c, hD, hc, e⟩ | ⟨D, f, -, -, e⟩ <;> rw [e]
  · exact h.with_xr (by simp)
  · refine h.with_xr fun x hx => ?_
    obtain rfl := Option.some.inj hx
    obtain ⟨hipc, hnpc, -⟩ := h.drOk D hD
    exact ⟨hipc, hnpc, execDecoded_command_ok hc⟩
  · exact h.of_sameMicro (sameMicro_raise s f) h.pc h.mem

/-- The state between decode and fetch: `FR` is empty, and fetch is stalled for one step or the queue is empty. -/
structure State.InvDecoded (s : State) : Prop where
  stall : (s.stall = 0#32 ∧ s.dq = []) ∨ s.stall = 1#32
  queue : s.dq.length ≤ 1
  fr : s.fr = none
  pc : Aligned (s.reg 31#5)
  dqOk : ∀ u ∈ s.dq, u.Ok
  drOk : ∀ u ∈ s.dr, u.Ok
  xrOk : ∀ x ∈ s.xr, x.Ok
  mem : s.mem.wf = true
  predictor : s.PredictorOk

theorem decodeStage_pc_aligned {s : State} (h : s.Inv) : Aligned ((decodeStage s).reg 31#5) := by
  rcases decodeStage_reg31 s with e | ⟨f, -, hfr, -, e⟩ <;> rw [e]
  · exact h.pc
  · obtain ⟨hipc, -⟩ := h.frOk f hfr
    exact hipc

/-- What decode leaves in `DR` and in the queue, and how long fetch is then stalled (R147). -/
theorem decodeStage_issues_ok {s : State} (h : s.Inv) :
    (((decodeStage s).stall = 0#32 ∧ (decodeStage s).dq = []) ∨ (decodeStage s).stall = 1#32) ∧
    (decodeStage s).dq.length ≤ 1 ∧ (∀ u ∈ (decodeStage s).dq, u.Ok) ∧ ∀ u ∈ (decodeStage s).dr, u.Ok := by
  have hone : s.stall + 1#32 = 1#32 := by rw [h.stall]; rfl
  rcases decodeStage_cases s with ⟨u, rest, hdq, -, hold⟩ | ⟨u, rest, hdq, -, issue⟩ | ⟨f, hdq, -, -, replay⟩ |
    ⟨f, -, hfr, -, issue⟩ | ⟨hdq, -, bubble⟩
  · rw [hold]
    exact ⟨.inr hone, h.queue, h.dqOk, by simp⟩
  · have hqueue := h.queue
    rw [hdq, List.length_cons] at hqueue
    obtain rfl : rest = [] := List.eq_nil_of_length_eq_zero (by omega)
    rw [issue]
    refine ⟨.inl ⟨h.stall, rfl⟩, by simp, by simp, fun x hx => ?_⟩
    obtain rfl := Option.some.inj hx
    exact h.dqOk u (by simp [hdq])
  · rw [replay]
    refine ⟨.inr hone, ?_, ?_, by simp⟩ <;> simp [hdq]
  · obtain ⟨hfirst, hrest, hlen⟩ := expand_issuable f.blob
    obtain ⟨hipc, hnpc⟩ := h.frOk f hfr
    rw [issue]
    generalize expand (decode f.blob) = ops at hfirst hrest hlen
    obtain ⟨first, rest⟩ := ops
    refine ⟨?_, by simpa using hlen, fun x hx => ?_, fun x hx => ?_⟩
    · match rest, hlen with
      | [], _ => exact .inl ⟨by simp [h.stall], rfl⟩
      | [u], _ => exact .inr (by simp [h.stall])
    · obtain ⟨u, hu, rfl⟩ := List.mem_map.1 hx
      exact ⟨hipc, hnpc, hrest u hu⟩
    · obtain rfl := Option.some.inj hx
      exact ⟨hipc, hnpc, hfirst⟩
  · rw [bubble]
    exact ⟨.inl ⟨h.stall, hdq⟩, h.queue, h.dqOk, by simp⟩

theorem decodeStage_inv {s : State} (h : s.Inv) : (decodeStage s).InvDecoded := by
  obtain ⟨hstall, hqueue, hdq, hdr⟩ := decodeStage_issues_ok h
  refine ⟨hstall, hqueue, decodeStage_fr h.fetchEmpty, decodeStage_pc_aligned h, hdq, hdr, ?_, ?_, ?_⟩
  · rw [decodeStage_xr]; exact h.xrOk
  · rw [decodeStage_mem]; exact h.mem
  · exact h.predictor.congr ⟨decodeStage_table s, decodeStage_hist s, decodeStage_jumpMap s⟩

theorem nextFetch_aligned {s : State} (h : s.PredictorOk) {p : Word} (hp : Aligned p) : Aligned (s.nextFetch p) := by
  rcases nextFetch_cases s p with e | ⟨t, ht, e⟩ <;> rw [e]
  · exact aligned_add_four hp
  · obtain ⟨-, htarget⟩ := h.targets _ (assocFind_mem ht)
    exact htarget

/-- Fetch fills `FR` where the queue is empty, or the one stalled step passes (R150 to R152). -/
theorem stallDec_fetchStage_inv {s : State} (h : s.InvDecoded) : (stallDec (fetchStage s)).Inv := by
  rcases h.stall with ⟨hzero, hdq⟩ | hone
  · have hdec : stallDec (fetchStage s) = fetchStage s := by rw [stallDec, if_pos]; rw [fetchStage_stall, hzero]
    have hnext := nextFetch_aligned h.predictor h.pc
    rw [hdec, fetchStage_go s hzero]
    refine ⟨hzero, h.queue, fun hne => absurd hdq hne, ?_, fun f hf => ?_, h.dqOk, h.drOk, h.xrOk, h.mem,
      h.predictor.congr ⟨rfl, rfl, rfl⟩⟩
    · rw [setPc_reg31]; exact hnext
    · obtain rfl := Option.some.inj hf
      exact ⟨h.pc, hnext⟩
  · have hne : s.stall ≠ 0#32 := by rw [hone]; decide
    rw [fetchStage_stalled s hne, stallDec, if_neg hne]
    refine ⟨?_, h.queue, fun _ => h.fr, h.pc, ?_, h.dqOk, h.drOk, h.xrOk, h.mem, h.predictor.congr ⟨rfl, rfl, rfl⟩⟩
    · simp [hone]
    · simp [h.fr]

theorem frontEnd_inv {s : State} (h : s.Inv) : (frontEnd s).Inv := stallDec_fetchStage_inv (decodeStage_inv h)

theorem pipeStep_inv {s : State} (h : s.Inv) : (pipeStep s).Inv := by
  rcases pipeStep_cases s with ⟨-, e⟩ | ⟨-, -, e⟩ | ⟨-, -, -, e⟩ | ⟨-, -, -, e⟩ <;> rw [e]
  · exact h
  · exact writebackStage_inv h
  · exact executeStage_inv (writebackStage_inv h)
  · exact frontEnd_inv (executeStage_inv (writebackStage_inv h))

/-- Settles O59: the serial step by its execution, the pipelined step stage by stage. -/
theorem stepKeepsInvariant : Obligations.StepKeepsInvariant := by
  intro s t hinv hst
  by_cases hv : s.variant = .serial
  · rcases step_serial_cases hv hst with ⟨-, rfl⟩ | ⟨-, rfl⟩
    · exact hinv
    · exact serialExec_inv hinv _
  · obtain rfl := eq_pipeStep_of_step hv hst
    exact pipeStep_inv hinv

end Sys2Proof.Machine
end

section
/-!
SUPPORT. `push` and `pop` by every pointer and register (43_stack_macros.md R99, R102, R103; 92_eei_decisions.md D14, D41):
the states the two micro-ops leave on the serial reference, and what the second one reads there; then the statements O18
and O19 from these.
-/

namespace Sys2Proof.Machine

/-- The three special indices and the general registers. -/
theorem index_cases (r : RegIdx) : r = 29#5 ∨ r = 30#5 ∨ r = 31#5 ∨ r.toNat ≤ 28 := by
  by_cases h29 : r = 29#5
  · exact .inl h29
  · by_cases h30 : r = 30#5
    · exact .inr (.inl h30)
    · by_cases h31 : r = 31#5
      · exact .inr (.inr (.inl h31))
      · exact .inr (.inr (.inr (general_of_ne h29 h30 h31)))

/-! ### Both micro-ops, whatever the indices -/

/-- A PC write's value may be normalised before it is written back as well (R74, R78). -/
theorem writeIndex_normalized (s : State) (r : RegIdx) (v : Word) :
    s.writeIndex r (if r = 31#5 then norm v else v) = s.writeIndex r v := by
  by_cases hr : r = 31#5
  · subst hr
    simp [State.writeIndex]
  · rw [if_neg hr]

/-- The serial state after the first micro-op of `push`: the fetch increment, then the lowered pointer (R97). -/
def State.pushed (s : State) (a : RegIdx) : State :=
  (s.setPc (s.pc + 4#32)).writeIndex a (rd s a (seqOf s.pc) 4#32 - 4#32)

/-- `push` stores what its second micro-op reads after the first one: the value at `d` where `a` then points. -/
theorem exec_push (s : State) (d a b : RegIdx) (i : Word) : exec (.push d a b i) s =
    .next ((s.pushed a).store (norm (rd (s.pushed a) a (seqOf s.pc) 0#32)) (rd (s.pushed a) d (seqOf s.pc) 0#32)) := by
  have harm : exec (.push d a b i) s = .next (serialExec
    [subOp a a Config.immIdx 4#32, stOp d a Config.zeroIdx 0#32] s) := rfl
  have hsub : subOp a a Config.immIdx 4#32 s.pc (s.setPc (s.pc + 4#32)) =
      .command (.registers a (rd s a (seqOf s.pc) 4#32 - 4#32)) := by simp [subOp, aluOp]
  have hst : ∀ t, stOp d a Config.zeroIdx 0#32 s.pc t =
      .command (.memory (norm (rd t a (seqOf s.pc) 0#32)) (rd t d (seqOf s.pc) 0#32)) := by simp [stOp, effAddr_zero]
  have hmid : (s.setPc (s.pc + 4#32)).writeback (.registers a
      (if a = 31#5 then norm (rd s a (seqOf s.pc) 4#32 - 4#32) else rd s a (seqOf s.pc) 4#32 - 4#32)) = s.pushed a :=
    writeIndex_normalized ..
  rw [harm, serialExec_pair (runOp_registers hsub) (by rw [hmid]; exact runOp_memory (hst _)), hmid]
  rfl

/-- The serial state after the first micro-op of `pop`: the fetch increment, then the load into `d` (R98). -/
def State.popped (s : State) (d a : RegIdx) : State :=
  (s.setPc (s.pc + 4#32)).writeIndex d (memRead s.mem (norm (s.operand a 0#32)))

/-- `pop` advances the pointer as its second micro-op reads it after the first one. -/
theorem exec_pop (s : State) (d a b : RegIdx) (i : Word) : exec (.pop d a b i) s =
    .next ((s.popped d a).writeIndex a (rd (s.popped d a) a (seqOf s.pc) 4#32 + 4#32)) := by
  have harm : exec (.pop d a b i) s = .next (serialExec
    [ldOp d a Config.zeroIdx 0#32, addOp a a Config.immIdx 4#32] s) := rfl
  have hld : ldOp d a Config.zeroIdx 0#32 s.pc (s.setPc (s.pc + 4#32)) =
      .command (.registers d (memRead s.mem (norm (s.operand a 0#32)))) := by simp [ldOp, effAddr_zero, operand_eq]
  have hadd : ∀ t, addOp a a Config.immIdx 4#32 s.pc t =
      .command (.registers a (rd t a (seqOf s.pc) 4#32 + 4#32)) := by simp [addOp, aluOp]
  have hmid : (s.setPc (s.pc + 4#32)).writeback (.registers d (if d = 31#5 then
      norm (memRead s.mem (norm (s.operand a 0#32))) else memRead s.mem (norm (s.operand a 0#32)))) = s.popped d a :=
    writeIndex_normalized ..
  rw [harm, serialExec_pair (runOp_registers hld) (by rw [hmid]; exact runOp_registers (hadd _)), hmid]
  exact congrArg _ (writeIndex_normalized ..)

/-! ### What the first micro-op leaves -/

section Pushed
variable (s : State) (a : RegIdx)

/-- The registers after the first micro-op of `push`: an ordinary pointer is lowered, `a = 31` jumps back (R103). -/
theorem pushed_reg (r : RegIdx) : (s.pushed a).reg r =
    if r = a ∧ a.toNat ≤ 28 then s.reg a - 4#32
    else if r = 31#5 then (if a = 31#5 then norm (s.reg 31#5) else s.reg 31#5 + 4#32) else s.reg r := by
  rw [State.pushed, writeIndex_reg, setPc_eq, reg_setReg, pc_eq]
  rcases index_cases a with rfl | rfl | rfl | ha
  · simp
  · simp
  · by_cases hr : r = 31#5 <;> simp [hr, seqOf]
  · obtain ⟨h29, h30, h31⟩ := ne_special_of_le ha
    by_cases hr : r = a <;> simp [hr, ha, h29, h30, h31, rd_general]

/-- Where the pointer then points: index 29 reads the micro-op's own immediate 0 (D14), 30 reads 0, 31 the next address. -/
theorem rd_pushed_pointer : rd (s.pushed a) a (seqOf s.pc) 0#32 =
    if a = 29#5 ∨ a = 30#5 then 0#32 else if a = 31#5 then s.reg 31#5 + 4#32 else s.reg a - 4#32 := by
  rcases index_cases a with rfl | rfl | rfl | ha
  · rfl
  · rfl
  · rfl
  · obtain ⟨h29, h30, h31⟩ := ne_special_of_le ha
    simp [rd_general _ _ _ _ ha, pushed_reg, ha, h29, h30, h31]

/-- The word `push` stores: `d` read after the pointer was lowered. -/
theorem rd_pushed_value (d : RegIdx) : rd (s.pushed a) d (seqOf s.pc) 0#32 =
    if d = 31#5 then s.reg 31#5 + 4#32 else if d = 29#5 ∨ d = 30#5 then 0#32
      else if d = a then s.reg a - 4#32 else s.reg d := by
  rcases index_cases d with rfl | rfl | rfl | hd
  · rfl
  · rfl
  · rfl
  · obtain ⟨h29, h30, h31⟩ := ne_special_of_le hd
    obtain rfl | hda := eq_or_ne d a
    · simp [rd_general _ _ _ _ hd, pushed_reg, hd, h29, h30, h31]
    · simp [rd_general _ _ _ _ hd, pushed_reg, h29, h30, h31, hda]

/-- The events of the first micro-op of `push`: only `a = 30` prints, the low byte of −4 (R102). -/
theorem pushed_out : (s.pushed a).out = s.out ++ if a = 30#5 then [OutEvent.outChar 0xFC#8] else [] := by
  rw [State.pushed, writeIndex_out, setPc_out]
  rcases index_cases a with rfl | rfl | rfl | ha
  · simp [eventsOf]
  · have hchar : eventsOf 30#5 (0#32 - 4#32) = [OutEvent.outChar 0xFC#8] := by decide
    rw [rd_zeroIdx, hchar, if_pos rfl]
  · simp [eventsOf]
  · obtain ⟨h29, h30, h31⟩ := ne_special_of_le ha
    simp [eventsOf, h29, h30]

theorem pushed_mem : (s.pushed a).mem = s.mem := writeIndex_mem ..

theorem sameMicro_pushed : SameMicro s (s.pushed a) :=
  (sameMicro_setPc s _).trans (sameMicro_writeback _ (.registers a _))

end Pushed

theorem sameMicro_store (s : State) (addr v : Word) : SameMicro s (s.store addr v) := by constructor <;> rfl

/-- Settles O18: the store on the state the first micro-op leaves, read index by index. -/
theorem pushEveryForm : Obligations.PushEveryForm := by
  intro s d a b i base
  have hbase : rd (s.pushed a) a (seqOf s.pc) 0#32 = base := rd_pushed_pointer s a
  refine ⟨_, exec_push s d a b i, ?cell, fun n hn => ?memory, fun ha => ?pointer, fun r hr hra => ?others, ?pc,
    pushed_out s a, ?halted, ?fault, (sameMicro_pushed s a).trans (sameMicro_store ..)⟩
  case cell => rw [store_mem, memRead_memWrite, hbase, norm_idem, if_pos rfl, rd_pushed_value]
  case memory =>
    rw [store_mem, hbase, pushed_mem]
    exact readByte_memWrite_outside _ _ _ _ (by rwa [norm_idem])
  case pointer => rw [store_reg, pushed_reg, if_pos ⟨rfl, ha⟩]
  case others =>
    have hkeep : ¬ (r = a ∧ a.toNat ≤ 28) := by
      rintro ⟨rfl, hle⟩
      rcases hra with hne | hgt
      · exact hne rfl
      · omega
    rw [store_reg, pushed_reg, if_neg hkeep, if_neg hr]
  case pc =>
    have hkeep : ¬ (31#5 = a ∧ a.toNat ≤ 28) := fun ⟨e, hle⟩ => ne_pcIdx_of_le hle e.symm
    rw [store_reg, pushed_reg, if_neg hkeep, if_pos rfl, roundDown_eq_norm]
  case halted => rw [store_halted, State.pushed, writeIndex_halted, setPc_halted]
  case fault => rw [store_fault, State.pushed, writeIndex_fault, setPc_fault]

section Popped
variable (s : State) (d a : RegIdx)

/-- The registers after the first micro-op of `pop`. -/
theorem popped_reg (r : RegIdx) : (s.popped d a).reg r =
    if r = d ∧ d.toNat ≤ 28 then memRead s.mem (norm (s.operand a 0#32))
    else if r = 31#5 then (if d = 31#5 then norm (memRead s.mem (norm (s.operand a 0#32))) else s.reg 31#5 + 4#32)
    else s.reg r := by
  rw [State.popped, writeIndex_reg, setPc_eq, reg_setReg, pc_eq]
  rcases index_cases d with rfl | rfl | rfl | hd
  · simp
  · simp
  · by_cases hr : r = 31#5 <;> simp [hr]
  · obtain ⟨h29, h30, h31⟩ := ne_special_of_le hd
    by_cases hr : r = d <;> simp [hr, hd, h29, h30, h31]

/-- The pointer as the second micro-op of `pop` reads it, advanced: index 29 reads that micro-op's own immediate 4 (D14). -/
theorem rd_popped_pointer : rd (s.popped d a) a (seqOf s.pc) 4#32 + 4#32 =
    if a = 29#5 then 8#32 else if a = 30#5 then 4#32 else if a = 31#5 then s.reg 31#5 + 8#32
      else (if d = a then memRead s.mem (norm (s.operand a 0#32)) else s.reg a) + 4#32 := by
  rcases index_cases a with rfl | rfl | rfl | ha
  · rfl
  · rfl
  · simp [seqOf, pc_eq, BitVec.add_assoc]
  · obtain ⟨h29, h30, h31⟩ := ne_special_of_le ha
    by_cases hda : d = a
    · simp [rd_general _ _ _ _ ha, popped_reg, ha, h29, h30, h31, hda]
    · simp [rd_general _ _ _ _ ha, popped_reg, h29, h30, h31, hda, Ne.symm hda]

end Popped

/-- Settles O19: the second writeback on the state the first micro-op leaves, read index by index. -/
theorem popEveryForm : Obligations.PopEveryForm := by
  intro s d a b i v
  have hnext := rd_popped_pointer s d a
  refine ⟨_, exec_pop s d a b i, fun hd hda => ?loaded, fun ha => ?pointer, fun r hr hkeep => ?others, ?pc, ?out,
    fun n => ?memory, ?halted, ?fault, ?micro⟩
  case loaded =>
    have hne : ¬ (d = a ∧ a ≠ 29#5 ∧ a ≠ 30#5) := fun ⟨e, _⟩ => hda e
    rw [writeIndex_reg, if_neg hne, popped_reg, if_pos ⟨rfl, hd⟩]
  case pointer =>
    obtain ⟨h29, h30, h31⟩ := ne_special_of_le ha
    rw [writeIndex_reg, if_pos ⟨rfl, h29, h30⟩, hnext]
    simp [h29, h30, h31, v]
  case others =>
    have hra : ¬ (r = a ∧ a ≠ 29#5 ∧ a ≠ 30#5) := by
      rintro ⟨rfl, h29, h30⟩
      have := general_of_ne h29 h30 hr
      rcases hkeep with ⟨hne, -⟩ | hgt
      · exact hne rfl
      · omega
    have hrd : ¬ (r = d ∧ d.toNat ≤ 28) := by
      rintro ⟨rfl, hle⟩
      rcases hkeep with ⟨-, hne⟩ | hgt
      · exact hne rfl
      · omega
    rw [writeIndex_reg, if_neg hra, popped_reg, if_neg hrd, if_neg hr]
  case pc =>
    have hd : ¬ (31#5 = d ∧ d.toNat ≤ 28) := fun ⟨e, hle⟩ => ne_pcIdx_of_le hle e.symm
    by_cases ha : a = 31#5
    · subst ha
      rw [writeIndex_reg, if_pos (by decide), if_pos rfl, if_pos rfl, hnext, roundDown_eq_norm]
      rfl
    · have hne : ¬ (31#5 = a ∧ a ≠ 29#5 ∧ a ≠ 30#5) := fun ⟨e, _⟩ => ha e.symm
      rw [writeIndex_reg, if_neg hne, popped_reg, if_neg hd, if_pos rfl, if_neg ha, roundDown_eq_norm]
  case out =>
    have hadvance : eventsOf a (rd (s.popped d a) a (seqOf s.pc) 4#32 + 4#32) =
        if a = 30#5 then [OutEvent.outChar 4#8] else if a = 29#5 then [OutEvent.outHex 8#32] else [] := by
      rcases index_cases a with rfl | rfl | rfl | ha
      · rfl
      · rfl
      · simp [eventsOf]
      · obtain ⟨h29, h30, -⟩ := ne_special_of_le ha
        simp [eventsOf, h29, h30]
    rw [writeIndex_out, hadvance, State.popped, writeIndex_out, setPc_out]
  case memory => rw [writeIndex_mem, State.popped, writeIndex_mem, setPc_mem]
  case halted => rw [writeIndex_halted, State.popped, writeIndex_halted, setPc_halted]
  case fault => rw [writeIndex_fault, State.popped, writeIndex_fault, setPc_fault]
  case micro =>
    exact (sameMicro_setPc s _).trans ((sameMicro_writeback _ (.registers d _)).trans
      (sameMicro_writeback _ (.registers a _)))

end Sys2Proof.Machine
end

section
/-!
SUPPORT. The data that operations read and write (40_execute_common.md R71 to R75): every operation is a function of it,
every stage but writeback keeps it, and a command has the same effect on it in every machine; then what a drained pipeline
does with one instruction (50_pipeline.md R144, R157, R166), and the statements O41 and O42.
-/

namespace Sys2Proof.Machine

/-! ### The data -/

/-- Everything but the program counter, the latches and the predictor agrees. -/
structure SameData (s t : State) : Prop where
  regs : ∀ r : RegIdx, r ≠ 31#5 → t.reg r = s.reg r
  mem : t.mem = s.mem
  out : t.out = s.out
  halted : t.halted = s.halted
  fault : t.fault = s.fault

theorem SameData.refl (s : State) : SameData s s := ⟨fun _ _ => rfl, rfl, rfl, rfl, rfl⟩

theorem SameData.symm {s t : State} (h : SameData s t) : SameData t s where
  regs r hr := (h.regs r hr).symm
  mem := h.mem.symm
  out := h.out.symm
  halted := h.halted.symm
  fault := h.fault.symm

theorem SameData.trans {s t u : State} (h1 : SameData s t) (h2 : SameData t u) : SameData s u where
  regs r hr := (h2.regs r hr).trans (h1.regs r hr)
  mem := h2.mem.trans h1.mem
  out := h2.out.trans h1.out
  halted := h2.halted.trans h1.halted
  fault := h2.fault.trans h1.fault

theorem SameData.running {s t : State} (h : SameData s t) (hs : s.Running) : t.Running :=
  ⟨h.halted.trans hs.1, h.fault.trans hs.2⟩

theorem SameData.sameArch {s t : State} (h : SameData s t) : SameArch s t where
  regs r hr := h.regs r (ne_pcIdx_of_le hr)
  mem n := by rw [h.mem]
  halted := h.halted
  fault := h.fault
  out := h.out

theorem NothingRetired.sameData {s t : State} (h : NothingRetired s t) : SameData s t :=
  ⟨h.regs, h.mem, h.out, h.halted, h.fault⟩

theorem sameData_setPc (s : State) (v : Word) : SameData s (s.setPc v) :=
  ⟨fun r hr => setPc_reg_ne s r v hr, rfl, rfl, rfl, rfl⟩

theorem sameData_with_xr (s : State) (xr : Option ExecSlot) : SameData s { s with xr := xr } :=
  ⟨fun _ _ => rfl, rfl, rfl, rfl, rfl⟩

theorem SameData.raise {s t : State} (h : SameData s t) (f : FaultRecord) : SameData (s.raise f) (t.raise f) :=
  ⟨h.regs, h.mem, h.out, h.halted, rfl⟩

/-- A command has the same effect on the same data. -/
theorem SameData.writeback {s t : State} (h : SameData s t) (c : Cmd) : SameData (s.writeback c) (t.writeback c) := by
  cases c with
  | halt => exact ⟨h.regs, h.mem, h.out, rfl, h.fault⟩
  | memory addr v => exact ⟨h.regs, congrArg (memWrite · addr v) h.mem, h.out, h.halted, h.fault⟩
  | registers r v =>
    refine ⟨fun q hq => ?_, ?_, ?_, ?_, ?_⟩ <;> simp only [State.writeback]
    · rw [writeIndex_reg, writeIndex_reg, h.regs q hq]
    · rw [writeIndex_mem, writeIndex_mem, h.mem]
    · rw [writeIndex_out, writeIndex_out, h.out]
    · rw [writeIndex_halted, writeIndex_halted, h.halted]
    · rw [writeIndex_fault, writeIndex_fault, h.fault]

/-! ### Operations read the data alone -/

/-- An operation whose answer depends on the data of the state only. -/
def ReadsData (op : ExecOp) : Prop := ∀ ipc s t, SameData s t → op ipc t = op ipc s

section ReadsData
variable {d a b : RegIdx} {i : Word} {c : Opcode}

theorem SameData.rd {s t : State} (h : SameData s t) (idx : RegIdx) (seq imm : Word) :
    rd t idx seq imm = rd s idx seq imm :=
  rd_congr idx seq imm h.regs

theorem readsData_aluOp {f : Word → Word → Word} : ReadsData (aluOp d a b i f) :=
  fun _ _ _ h => by simp only [aluOp, h.rd]

theorem readsData_divOp {f : Word → Word → Word} : ReadsData (divOp c d a b i f) :=
  fun _ _ _ h => by simp only [divOp, aluOp, h.rd]

theorem readsData_condOp {f : Word → Word → Bool} : ReadsData (condOp a b i f) :=
  fun _ _ _ h => by simp only [condOp, h.rd]

theorem readsData_ldOp : ReadsData (ldOp d a b i) := fun _ _ _ h => by simp only [ldOp, h.rd, h.mem]

theorem readsData_stOp : ReadsData (stOp d a b i) := fun _ _ _ h => by simp only [stOp, h.rd]

end ReadsData

theorem readsData_decodedOp (D : Decoded) : ReadsData (decodedOp D) := by
  cases D with
  | unassigned c f => exact fun _ _ _ _ => rfl
  | instr i =>
    cases i with
    | hlt | push | pop | pushall | popall | call | intr => exact fun _ _ _ _ => rfl
    | ld => exact readsData_ldOp
    | st => exact readsData_stOp
    | iflt | ifle | ifeq | ifne => exact readsData_condOp
    | div | mod => exact readsData_divOp
    | nand => exact readsData_aluOp (f := fun x y => ~~~(x &&& y))
    | add | sub | mul | and | or | xor | sl | sr | sal | sar => exact readsData_aluOp

theorem SameData.runOp {s t : State} (h : SameData s t) (D : Decoded) (ipc : Word) :
    runOp (decodedOp D) ipc t = runOp (decodedOp D) ipc s := by
  rw [Machine.runOp, Machine.runOp, readsData_decodedOp D ipc s t h]

/-! ### The stages on the data -/

theorem sameData_branchRetire (s : State) (v ipc npc : Word) : SameData s (branchRetire s v ipc npc) :=
  ⟨fun r hr => branchRetire_reg s v ipc npc r hr, branchRetire_mem .., branchRetire_out .., branchRetire_halted ..,
    branchRetire_fault ..⟩

theorem sameData_frontEnd (s : State) : SameData s (frontEnd s) :=
  ⟨fun r hr => frontEnd_reg s r hr, frontEnd_mem s, frontEnd_out s, frontEnd_halted s, frontEnd_fault s⟩

/-- The writeback stage has the effect of the command in `XR`, a PC write's redirection apart. -/
theorem sameData_writebackStage {s : State} {c : Cmd} {ipc npc : Word} (hx : s.xr = some ⟨c, ipc, npc⟩) :
    SameData (s.writeback c) (writebackStage s) := by
  by_cases hc : ∃ v, c = .registers 31#5 v
  · obtain ⟨v, rfl⟩ := hc
    rw [writebackStage_of_pcWrite hx]
    exact (sameData_setPc s (norm v)).symm.trans (sameData_branchRetire s v ipc npc)
  · rcases writebackStage_cases s with ⟨hnone, -⟩ | ⟨v, _, _, hx', -⟩ | ⟨c', _, _, hx', -, e⟩
    · rw [hx] at hnone; cases hnone
    · rw [hx] at hx'; cases hx'; exact absurd ⟨v, rfl⟩ hc
    · rw [hx] at hx'; cases hx'; rw [e]; exact SameData.refl _

/-! ### Steps of a pipeline -/

theorem pipeStep_variant (s : State) : (pipeStep s).variant = s.variant := by
  rcases pipeStep_cases s with ⟨-, e⟩ | ⟨-, -, e⟩ | ⟨-, -, -, e⟩ | ⟨-, -, -, e⟩ <;> simp [e]

theorem pipeStep_piped {s : State} (h : s.Piped) : (pipeStep s).Piped := by rwa [State.Piped, pipeStep_variant]

theorem pipeStep_of_stopped {s : State} (h : s.stopped = true) : pipeStep s = s := by rw [pipeStep, if_pos h]

/-- A run of a pipelined variant is the iteration of `pipeStep`. -/
theorem reaches_iterate {s : State} (h : s.Piped) (n : Nat) : Reaches s n (pipeStep^[n] s) := by
  induction n generalizing s with
  | zero => rfl
  | succ n ih => exact reaches_pipeStep h (ih (pipeStep_piped h))

/-- Where the decode latch is empty, a step retires the command in `XR` and runs the front end. -/
theorem pipeStep_of_bubble {s : State} (hrun : s.Running) (hhalt : (writebackStage s).halted = false)
    (hD : (writebackStage s).dr = none) : pipeStep s = frontEnd { writebackStage s with xr := none } := by
  have hex := executeStage_of_bubble hD
  simp [pipeStep, (running_iff s).2 hrun, hhalt, hex, hrun.2]

/-- A step that executes a command keeps the data its writeback stage has left. -/
theorem pipeStep_executes {s : State} {D : InFlight} {c : Cmd} (hrun : s.Running)
    (hhalt : (writebackStage s).halted = false) (hD : (writebackStage s).dr = some D)
    (hc : execDecoded D (writebackStage s) = .command c) :
    SameData (writebackStage s) (pipeStep s) ∧ (pipeStep s).xr = some ⟨c, D.ipc, D.npc⟩ := by
  rw [pipeStep_of_command hrun hhalt hD hc]
  exact ⟨(sameData_with_xr _ _).trans (sameData_frontEnd _), frontEnd_xr _⟩

/-- The command in `XR` retires in the next step, whatever the instructions behind it do there. -/
theorem pipeStep_retires {s : State} {c : Cmd} {ipc npc : Word} (hrun : s.Running)
    (hx : s.xr = some ⟨c, ipc, npc⟩) : SameArchButFault (s.writeback c) (pipeStep s) := by
  have hwb := sameData_writebackStage hx
  obtain ⟨hregs, hmem⟩ := pipeStep_writes_of_running hrun
  obtain ⟨hout, -, -⟩ := pipeStep_keeps_of_running hrun
  refine ⟨fun r hr => ?_, fun n => ?_, ?_, ?_⟩
  · rw [hregs r (ne_pcIdx_of_le hr), hwb.regs r (ne_pcIdx_of_le hr)]
  · rw [hmem, hwb.mem]
  · rw [pipeStep_halted_of_running hrun, hwb.halted]
  · rw [hout, hwb.out]

theorem SameData.trans_sameArchButFault {s t u : State} (h1 : SameData s t) (h2 : SameArchButFault t u) :
    SameArchButFault s u where
  regs r hr := (h2.regs r hr).trans (h1.regs r (ne_pcIdx_of_le hr))
  mem n := by rw [h2.mem n, h1.mem]
  halted := h2.halted.trans h1.halted
  out := h2.out.trans h1.out

/-- An instruction in `DR` executes in one step and retires in the next, as on any machine with the same data. -/
theorem pipeStep_executes_retires {s τ : State} {D : InFlight} {c : Cmd} (hrun : s.Running)
    (hτ : SameData τ (writebackStage s)) (hτrun : τ.Running) (hD : (writebackStage s).dr = some D)
    (hc : runOp (decodedOp D.op) D.ipc τ = .command c) :
    SameArchButFault (τ.writeback c) (pipeStep (pipeStep s)) := by
  have hexec : execDecoded D (writebackStage s) = .command c := (hτ.runOp D.op D.ipc).trans hc
  obtain ⟨hkeep, hx⟩ := pipeStep_executes hrun (hτ.halted.trans hτrun.1) hD hexec
  have hdata := hτ.trans hkeep
  exact (hdata.writeback c).trans_sameArchButFault (pipeStep_retires (hdata.running hτrun) hx)

/-! ### One instruction in a drained pipeline -/

@[simp] theorem frontEnd_dq (s : State) : (frontEnd s).dq = (decodeStage s).dq := by simp [frontEnd]

/-- A drained pipeline has queued the second micro-op of a fetched macro after two steps (R157). -/
theorem drained_queues {s : State} (hrun : s.Running) (hs : s.Drained) : (pipeStep (pipeStep s)).dq =
    (expand (decode s.fetchedWord)).2.map fun u => ⟨u, s.pc, s.nextFetch s.pc⟩ := by
  obtain ⟨hkeep, hfr, hdq, hdr, hxr⟩ := pipeStep_of_drained hrun hs
  have hwb : writebackStage (pipeStep s) = pipeStep s := writebackStage_of_bubble hxr
  obtain ⟨-, hqueue⟩ := decodeStage_issues (s := { pipeStep s with xr := none }) hdq hfr rfl (hazard_none _)
  rw [pipeStep_of_bubble (hkeep.running hrun) (by rw [hwb]; exact (hkeep.running hrun).1) (by rwa [hwb]), frontEnd_dq, hwb]
  exact hqueue

/-- Settles O41: the instruction is in `DR` after two steps, executes in the third on the data of `s` and retires in the
fourth, or its fault ends the third step. -/
theorem drainedPipelineRunsInstr : Obligations.DrainedPipelineRunsInstr := by
  intro s i hpiped hrun hs hdec hi
  obtain ⟨hkeep, hdr, hxr⟩ := drained_decodes hrun hs
  have hword : decode s.fetchedWord = .instr i := hdec
  rw [hword, expand_instr hi] at hdr
  have hops : microOps (.instr i) = [decodedOp (.instr i)] := by rw [microOps, expand_instr hi]; rfl
  have hfetched : SameData (s.setPc (s.pc + 4#32)) (pipeStep (pipeStep s)) :=
    (sameData_setPc s _).symm.trans hkeep.sameData
  have hwb : writebackStage (pipeStep (pipeStep s)) = pipeStep (pipeStep s) := writebackStage_of_bubble hxr
  have hreach := reaches_iterate hpiped 4
  rw [exec_eq_microOps, hops]
  cases hop : runOp (decodedOp (.instr i)) s.pc (s.setPc (s.pc + 4#32)) with
  | command c =>
    refine ⟨_, _, rfl, hreach, ?_, ?_⟩
    · rw [serialExec, retireOps_command hop]
      exact pipeStep_executes_retires (D := ⟨.instr i, s.pc, _⟩) (hkeep.running hrun) (by rwa [hwb]) hrun (by rwa [hwb]) hop
    · rw [serialExec, retireOps_command hop, retireOps_nil, writeback_fault, setPc_fault, hrun.2]
      exact fun h => absurd rfl h
  | raise f =>
    have hraise := (hfetched.runOp (.instr i) s.pc).trans hop
    have hstep : pipeStep (pipeStep (pipeStep s)) = (pipeStep (pipeStep s)).raise f := by
      have hfault := pipeStep_of_raise (D := ⟨.instr i, s.pc, _⟩) (f := f) (hkeep.running hrun)
        (by rw [hwb]; exact (hkeep.running hrun).1) (by rwa [hwb]) (by rw [hwb]; exact hraise)
      rwa [hwb] at hfault
    have hstops : pipeStep (pipeStep (pipeStep (pipeStep s))) = (pipeStep (pipeStep s)).raise f := by
      rw [hstep]; exact pipeStep_of_stopped ((stopped_iff _).2 (.inr (by simp)))
    have hend : pipeStep^[4] s = (pipeStep (pipeStep s)).raise f := hstops
    rw [hend] at hreach
    have hsame := (hfetched.raise f).sameArch
    rw [serialExec, retireOps_raise hop]
    exact ⟨_, _, rfl, hreach, ⟨hsame.regs, hsame.mem, hsame.halted, hsame.out⟩, fun _ => rfl⟩

/-- The step that executes the first micro-op of a macro holds the second one, or issues it (R155, R157). -/
theorem pipeStep_of_first_micro_op {s : State} {D U : InFlight} {c : Cmd} (hrun : s.Running) (hxr : s.xr = none)
    (hdr : s.dr = some D) (hdq : s.dq = [U]) (hc : execDecoded D s = .command c) :
    SameData s (pipeStep s) ∧ (pipeStep s).xr = some ⟨c, D.ipc, D.npc⟩ ∧
      if hazard U.op (some ⟨c, D.ipc, D.npc⟩) = true then (pipeStep s).dr = none ∧ (pipeStep s).dq = [U]
      else (pipeStep s).dr = some U := by
  have hwb : writebackStage s = s := writebackStage_of_bubble hxr
  have hstep := pipeStep_of_command (D := D) (c := c) hrun (by rw [hwb]; exact hrun.1) (by rwa [hwb]) (by rwa [hwb])
  rw [hwb] at hstep
  have hqueue := decodeStage_of_queue (s := { s with xr := some ⟨c, D.ipc, D.npc⟩ }) hdq
  rw [hstep, frontEnd_dr, frontEnd_dq, hqueue]
  refine ⟨(sameData_with_xr _ _).trans (sameData_frontEnd _), frontEnd_xr _, ?_⟩
  split_ifs
  · exact ⟨rfl, hdq⟩
  · rfl

/-- A micro-op that was held is issued in the next step, behind a bubble. -/
theorem pipeStep_of_held {s : State} {U : InFlight} {rest : List InFlight} (hrun : s.Running)
    (hhalt : (writebackStage s).halted = false) (hdr : (writebackStage s).dr = none)
    (hdq : (writebackStage s).dq = U :: rest) :
    SameData (writebackStage s) (pipeStep s) ∧ (pipeStep s).dr = some U ∧ (pipeStep s).xr = none := by
  have hissue := decodeStage_of_queue (s := { writebackStage s with xr := none }) hdq
  rw [hazard_none, if_neg (by decide)] at hissue
  rw [pipeStep_of_bubble hrun hhalt hdr, frontEnd_dr, hissue]
  exact ⟨(sameData_with_xr _ _).trans (sameData_frontEnd _), rfl, frontEnd_xr _⟩

/-- A drained pipeline at a macro whose first micro-op writes a register other than `R[31]`: five steps, or six when the
second micro-op is held because it reads that register (R166). -/
theorem drained_macro_reaches {s : State} {u1 u2 : Decoded} {r : RegIdx} {v : Word} {c : Cmd} (hpiped : s.Piped)
    (hrun : s.Running) (hs : s.Drained) (hops : expand (decode s.fetchedWord) = (u1, [u2])) (hr : r ≠ 31#5)
    (h1 : runOp (decodedOp u1) s.pc (s.setPc (s.pc + 4#32)) = .command (.registers r v))
    (h2 : runOp (decodedOp u2) s.pc ((s.setPc (s.pc + 4#32)).writeback (.registers r v)) = .command c) :
    ∃ t, Reaches s (if hazard u2 (some ⟨.registers r v, s.pc, s.nextFetch s.pc⟩) = true then 6 else 5) t ∧
      SameArchButFault (((s.setPc (s.pc + 4#32)).writeback (.registers r v)).writeback c) t := by
  obtain ⟨hkeep, hdr, hxr⟩ := drained_decodes hrun hs
  have hdq := drained_queues hrun hs
  rw [hops] at hdr hdq
  have hfetched : SameData (s.setPc (s.pc + 4#32)) (pipeStep (pipeStep s)) :=
    (sameData_setPc s _).symm.trans hkeep.sameData
  obtain ⟨hkeep3, hxr3, hsecond⟩ := pipeStep_of_first_micro_op (hkeep.running hrun) hxr hdr hdq
    ((hfetched.runOp u1 s.pc).trans h1)
  have hrun3 := hkeep3.running (hkeep.running hrun)
  have hwb3 := writebackStage_of_index hxr3 hr
  have hdata3 := ((hfetched.trans hkeep3).writeback (.registers r v)).trans (sameData_writebackStage hxr3)
  have hτrun : ((s.setPc (s.pc + 4#32)).writeback (.registers r v)).Running :=
    ⟨(writeIndex_halted ..).trans hrun.1, (writeIndex_fault ..).trans hrun.2⟩
  split_ifs at hsecond ⊢ with hz
  · obtain ⟨hdr3, hdq3⟩ := hsecond
    obtain ⟨hkeep4, hdr4, hxr4⟩ := pipeStep_of_held hrun3 (hdata3.halted.trans hτrun.1)
      (by rw [hwb3, writeIndex_dr, hdr3]) (by rw [hwb3, writeIndex_dq, hdq3])
    have hdata4 := hdata3.trans hkeep4
    have hwb4 := writebackStage_of_bubble hxr4
    exact ⟨_, reaches_iterate hpiped 6,
      pipeStep_executes_retires (hdata4.running hτrun) (by rwa [hwb4]) hτrun (by rwa [hwb4]) h2⟩
  · exact ⟨_, reaches_iterate hpiped 5, pipeStep_executes_retires (D := ⟨u2, s.pc, s.nextFetch s.pc⟩) hrun3 hdata3 hτrun
      (by rw [hwb3, writeIndex_dr, hsecond]) h2⟩

/-- The store of a `push` is held exactly when its pointer is a register. -/
theorem hazard_pushSecond (d a : RegIdx) (v ipc npc : Word) :
    hazard (.instr (pushSecond d a)) (some ⟨.registers a v, ipc, npc⟩) = true ↔ ¬(a = 29#5 ∨ a = 30#5) := by
  rw [hazard_eq_true_iff]
  simp [pushSecond, Decoded.fields, Instr.fields]

/-- The increment of a `pop` is held exactly when the load wrote its pointer. -/
theorem hazard_popSecond (d a : RegIdx) (v ipc npc : Word) :
    hazard (.instr (popSecond a)) (some ⟨.registers d v, ipc, npc⟩) = true ↔
      (d = a ∨ d = 29#5) ∧ d ≠ 29#5 ∧ d ≠ 30#5 := by
  rw [hazard_eq_true_iff]
  simp [popSecond, Decoded.fields, Instr.fields]

/-- Settles O42: the micro-ops of both macros, and when the second one is held. -/
theorem drainedPipelineRunsMacro : Obligations.DrainedPipelineRunsMacro := by
  intro s d a b i hpiped hrun hs
  refine ⟨fun hword ha => ?push, fun hword hd => ?pop⟩
  case push =>
    have hops : expand (decode s.fetchedWord) = (.instr (pushFirst a), [.instr (pushSecond d a)]) := by
      rw [State.fetchedWord, pc_eq, hword]; rfl
    have h1 : runOp (decodedOp (.instr (pushFirst a))) s.pc (s.setPc (s.pc + 4#32)) = _ := runOp_registers rfl
    rw [if_neg ha] at h1
    have h2 := fun t => runOp_memory (op := decodedOp (.instr (pushSecond d a))) (ipc := s.pc) (s := t) rfl
    obtain ⟨t, hreach, hsame⟩ := drained_macro_reaches hpiped hrun hs hops ha h1 (h2 _)
    have hexec : exec (.push d a b i) s = _ := congrArg Host.Outcome.next (serialExec_pair h1 (h2 _))
    simp only [hazard_pushSecond, ite_not] at hreach
    exact ⟨t, _, hexec, hreach, hsame⟩
  case pop =>
    have hops : expand (decode s.fetchedWord) = (.instr (popFirst d a), [.instr (popSecond a)]) := by
      rw [State.fetchedWord, pc_eq, hword]; rfl
    have h1 : runOp (decodedOp (.instr (popFirst d a))) s.pc (s.setPc (s.pc + 4#32)) = _ := runOp_registers rfl
    rw [if_neg hd] at h1
    have h2 := fun t => runOp_registers (op := decodedOp (.instr (popSecond a))) (ipc := s.pc) (s := t) rfl
    obtain ⟨t, hreach, hsame⟩ := drained_macro_reaches hpiped hrun hs hops hd h1 (h2 _)
    have hexec : exec (.pop d a b i) s = _ := congrArg Host.Outcome.next (serialExec_pair h1 (h2 _))
    have hheld : ((d = a ∨ d = 29#5) ∧ d ≠ 29#5 ∧ d ≠ 30#5) ↔ (d = a ∧ a ≠ 29#5 ∧ a ≠ 30#5) := by
      constructor
      · rintro ⟨rfl | h29, h29', h30⟩
        · exact ⟨rfl, h29', h30⟩
        · exact absurd h29 h29'
      · rintro ⟨rfl, h29, h30⟩
        exact ⟨.inl rfl, h29, h30⟩
    simp only [hazard_popSecond, hheld] at hreach
    exact ⟨t, _, hexec, hreach, hsame⟩

end Sys2Proof.Machine
end

section
/-!
SUPPORT. The serial run of a legal program (70_reset_and_hazards.md R232): runs step by step, what a serial step does to
memory, the code that a legal program leaves as it was loaded, and which instructions write the program counter; used for
the equivalence of the variants (O60).
-/

namespace Sys2Proof.Machine

/-! ### Runs -/

theorem reaches_succ_of_step {s u t : State} (h : step s = .next u) (n : Nat) : Reaches s (n + 1) t ↔ Reaches u n t := by
  rw [Reaches, runSteps, h, Reaches]

/-- A run and one step after it. -/
theorem reaches_succ_iff (s t : State) (n : Nat) : Reaches s (n + 1) t ↔ ∃ u, Reaches s n u ∧ step u = .next t := by
  induction n generalizing s with
  | zero =>
    obtain ⟨u, -, hu, -⟩ := everyStepIsNext s
    rw [reaches_succ_of_step hu]
    constructor
    · intro h; cases h; exact ⟨s, rfl, hu⟩
    · rintro ⟨x, hx, hxt⟩; cases hx; rw [hu] at hxt; cases hxt; rfl
  | succ n ih =>
    obtain ⟨u, -, hu, -⟩ := everyStepIsNext s
    rw [reaches_succ_of_step hu, ih]
    simp only [reaches_succ_of_step hu]

/-- A run from a stopped state stays there. -/
theorem eq_of_reaches_stopped {s t : State} {n : Nat} (hs : s.stopped = true) (h : Reaches s n t) : t = s :=
  (Host.Outcome.next.inj ((reaches_of_stopped hs n).symm.trans h)).symm

/-- A state that the serial reference reaches from reset with the image `m0`. -/
def SerialReaches (m0 : Memory) (s : State) : Prop := ∃ n, Reaches (State.boot .serial m0) n s

/-- The serial reference fetches a word at `p` in its run from reset with the image `m0`. -/
def FetchedAt (m0 : Memory) (p : Word) : Prop := ∃ s, SerialReaches m0 s ∧ s.Running ∧ s.pc = p

section SerialReaches
variable {m0 : Memory} {s : State}

theorem SerialReaches.boot (m0 : Memory) : SerialReaches m0 (State.boot .serial m0) := ⟨0, rfl⟩

theorem SerialReaches.step {t : State} (h : SerialReaches m0 s) (hst : step s = .next t) : SerialReaches m0 t := by
  obtain ⟨n, hn⟩ := h
  exact ⟨n + 1, (reaches_succ_iff _ _ _).2 ⟨s, hn, hst⟩⟩

/-- A property of the reset state that every serial step keeps holds of every state the serial reference reaches. -/
theorem SerialReaches.induct {P : State → Prop} (hboot : P (State.boot .serial m0))
    (hstep : ∀ u t, SerialReaches m0 u → P u → Machine.step u = .next t → P t) (h : SerialReaches m0 s) : P s := by
  obtain ⟨n, hn⟩ := h
  induction n generalizing s with
  | zero => cases hn; exact hboot
  | succ n ih =>
    obtain ⟨u, hu, hst⟩ := (reaches_succ_iff _ _ _).1 hn
    exact hstep u s ⟨n, hu⟩ (ih hu) hst

theorem SerialReaches.variant (h : SerialReaches m0 s) : s.variant = .serial := by
  refine h.induct (P := fun s => s.variant = .serial) (boot_variant ..) fun u t _ hu hst => ?_
  obtain ⟨x, -, hx, hvariant, -⟩ := everyStepIsNext u
  rw [hst] at hx
  cases hx
  exact hvariant.trans hu

/-- The next step of a running serial machine executes the fetched word's micro-ops. -/
theorem SerialReaches.step_running (h : SerialReaches m0 s) (hrun : s.Running) :
    Machine.step s = .next (serialExec (microOps (decode s.fetchedWord)) s) :=
  (step_serial h.variant).trans (serialStep_of_running hrun)

end SerialReaches

/-! ### Memory over a serial step -/

/-- All that the serial execution of the fetched word does to memory: nothing, or it stores to the cell that
`storeCell` names. -/
theorem serialExec_mem_cases (s : State) :
    (serialExec (microOps (decode s.fetchedWord)) s).mem = s.mem ∨
    ∃ i x v, decode s.fetchedWord = .instr i ∧ storeCell s i = some (norm x) ∧
      (serialExec (microOps (decode s.fetchedWord)) s).mem = memWrite s.mem (norm x) v := by
  rcases expand_cases s.fetchedWord with ⟨d, a, b, i, hD, -⟩ | ⟨d, a, b, i, hD, -⟩ | ⟨-, e⟩
  · have hexec := (exec_eq_microOps (.push d a b i) s).symm.trans (exec_push s d a b i)
    rw [hD, Host.Outcome.next.inj hexec, store_mem, pushed_mem, rd_pushed_pointer]
    refine .inr ⟨_, _, _, rfl, ?_, rfl⟩
    simp only [storeCell, or_comm]
  · have hexec := (exec_eq_microOps (.pop d a b i) s).symm.trans (exec_pop s d a b i)
    rw [hD, Host.Outcome.next.inj hexec, writeIndex_mem, State.popped, writeIndex_mem]
    exact .inl rfl
  · rw [microOps, e, List.map_nil]
    cases hop : runOp (decodedOp (decode s.fetchedWord)) s.pc (s.setPc (s.pc + 4#32)) with
    | raise f => rw [serialExec, retireOps_raise hop]; exact .inl rfl
    | command c =>
      rw [serialExec, retireOps_command hop, retireOps_nil]
      cases c with
      | registers r v => exact .inl (writeIndex_mem ..)
      | halt => exact .inl rfl
      | memory addr v =>
        obtain ⟨d, a, b, i, hst⟩ := st_of_execDecoded_memory (D := ⟨decode s.fetchedWord, s.pc, s.pc⟩) hop
        have hst' : decode s.fetchedWord = .instr (.st d a b i) := hst
        rw [hst'] at hop
        have hrule : stOp d a b i s.pc (s.setPc (s.pc + 4#32)) = .command (.memory addr v) :=
          memory_of_runOp_memory hop
        simp only [stOp, rd_setPc, ExecResult.command.injEq, Cmd.memory.injEq] at hrule
        obtain ⟨rfl, rfl⟩ := hrule
        exact .inr ⟨_, _, _, hst', rfl, rfl⟩

section Legal
variable {m0 : Memory} (hlegal : Legal m0) {s : State} (hs : SerialReaches m0 s)
include hlegal hs

/-- A legal program executes no macro whose first micro-op writes the program counter (R232 b). -/
theorem Legal.not_pcMacro (hrun : s.Running) {i : Instr} (hi : decode s.fetchedWord = .instr i) :
    isPcMacro i = false := by
  obtain ⟨-, hmacro, -⟩ := hlegal
  obtain ⟨n, hn⟩ := hs
  exact hmacro n s i hn ((running_iff s).2 hrun) (by rw [State.nextInstr, hi])

/-- A legal program stores to no cell it fetches from (R232 c). -/
theorem Legal.storeCell_ne (hrun : s.Running) {i : Instr} (hi : decode s.fetchedWord = .instr i) {c p : Word}
    (hc : storeCell s i = some c) (hp : FetchedAt m0 p) : c ≠ norm p := by
  obtain ⟨-, -, hstore⟩ := hlegal
  obtain ⟨n, hn⟩ := hs
  obtain ⟨u, ⟨k, hk⟩, hu, rfl⟩ := hp
  exact hstore n s i c k u hn ((running_iff s).2 hrun) (by rw [State.nextInstr, hi]) hc hk ((running_iff u).2 hu)

/-- The words that a legal program's serial run fetches stay as they were loaded. -/
theorem Legal.code_fixed {p : Word} (hp : FetchedAt m0 p) : memRead s.mem p = memRead m0 p := by
  refine hs.induct (P := fun s => memRead s.mem p = memRead m0 p) rfl fun u t hu ih hst => ?_
  rcases step_serial_cases hu.variant hst with ⟨-, rfl⟩ | ⟨hrun, rfl⟩
  · exact ih
  · rcases serialExec_mem_cases u with hmem | ⟨i, x, v, hi, hcell, hmem⟩
    · rw [hmem, ih]
    · have hne := hlegal.storeCell_ne hu hrun hi hcell hp
      rw [hmem, memRead_memWrite, norm_idem, if_neg hne.symm, ih]

end Legal

/-! ### Instructions that write the program counter -/

/-- Every command of the operation is a register command to `r`. -/
def WritesOnly (op : ExecOp) (r : RegIdx) : Prop := ∀ ipc s c, op ipc s = .command c → ∃ v, c = .registers r v

section WritesOnly
variable {d a b : RegIdx} {i : Word} {c : Opcode}

theorem writesOnly_aluOp {f : Word → Word → Word} : WritesOnly (aluOp d a b i f) d :=
  fun _ _ _ h => ⟨_, (ExecResult.command.inj h).symm⟩

theorem writesOnly_condOp {f : Word → Word → Bool} : WritesOnly (condOp a b i f) 31#5 :=
  fun _ _ _ h => ⟨_, (ExecResult.command.inj h).symm⟩

theorem writesOnly_ldOp : WritesOnly (ldOp d a b i) d := fun _ _ _ h => ⟨_, (ExecResult.command.inj h).symm⟩

theorem writesOnly_invalidOp (r : RegIdx) : WritesOnly (invalidOp c) r := fun _ _ _ h => by cases h

theorem writesOnly_divOp {f : Word → Word → Word} : WritesOnly (divOp c d a b i f) d := by
  intro ipc s k h
  unfold divOp at h
  split_ifs at h
  exact writesOnly_aluOp ipc s k h

end WritesOnly

/-- The normalisation of `Exec` keeps the register. -/
theorem WritesOnly.command {op : ExecOp} {r : RegIdx} (hop : WritesOnly op r) {ipc : Word} {s : State} {c : Cmd}
    (h : runOp op ipc s = .command c) : ∃ v, c = .registers r v := by
  cases e : op ipc s with
  | raise f => simp [runOp_raise e] at h
  | command k =>
    obtain ⟨v, rfl⟩ := hop ipc s k e
    rw [runOp_registers e] at h
    cases h
    exact ⟨_, rfl⟩

/-- Which register an operation writes is fixed by the instruction, not by the state it executes in. -/
theorem writesOnly_or_no_register (D : Decoded) : (∃ r, WritesOnly (decodedOp D) r) ∨
    ∀ ipc s r v, decodedOp D ipc s ≠ .command (.registers r v) := by
  cases D with
  | unassigned c f => exact .inl ⟨0#5, writesOnly_invalidOp _⟩
  | instr i =>
    cases i with
    | hlt | st => exact .inr fun _ _ _ _ h => by cases h
    | push | pop | pushall | popall | call | intr => exact .inl ⟨0#5, writesOnly_invalidOp _⟩
    | ld => exact .inl ⟨_, writesOnly_ldOp⟩
    | iflt | ifle | ifeq | ifne => exact .inl ⟨_, writesOnly_condOp⟩
    | div | mod => exact .inl ⟨_, writesOnly_divOp⟩
    | nand => exact .inl ⟨_, writesOnly_aluOp (f := fun x y => ~~~(x &&& y))⟩
    | add | sub | mul | and | or | xor | sl | sr | sal | sar => exact .inl ⟨_, writesOnly_aluOp⟩

/-- An instruction or micro-op whose every command is a PC write. -/
def Jumps (D : Decoded) : Prop := WritesOnly (decodedOp D) 31#5

theorem registers_of_runOp_registers {op : ExecOp} {ipc : Word} {s : State} {r : RegIdx} {v : Word}
    (h : runOp op ipc s = .command (.registers r v)) : ∃ v', op ipc s = .command (.registers r v') := by
  cases e : op ipc s with
  | raise f => simp [runOp_raise e] at h
  | command c =>
    cases c with
    | memory addr w => simp [runOp_memory e] at h
    | halt => simp [runOp_halt e] at h
    | registers q w =>
      rw [runOp_registers e] at h
      cases h
      exact ⟨w, rfl⟩

/-- One PC write shows that an instruction always gives one. -/
theorem jumps_of_pcWrite {D : Decoded} {ipc v : Word} {s : State}
    (h : runOp (decodedOp D) ipc s = .command (.registers 31#5 v)) : Jumps D := by
  obtain ⟨w, hw⟩ := registers_of_runOp_registers h
  rcases writesOnly_or_no_register D with ⟨r, hr⟩ | hno
  · obtain ⟨x, hx⟩ := hr ipc s _ hw
    cases hx
    exact hr
  · exact absurd hw (hno ipc s _ w)

/-! ### The micro-ops of the fetched word -/

/-- The micro-ops of a decoded word, in order (50_pipeline.md R147). -/
def instrOps (D : Decoded) : List Decoded := (expand D).1 :: (expand D).2

theorem microOps_eq_map (D : Decoded) : microOps D = (instrOps D).map decodedOp := rfl

theorem instrOps_length (w : Word) : (instrOps (decode w)).length ≤ 2 := by
  obtain ⟨-, -, hlen⟩ := expand_issuable w
  rw [instrOps, List.length_cons]
  omega

/-- The instruction that the image holds at `p` ends in a PC write, whenever it executes. -/
def JumpAt (m0 : Memory) (p : Word) : Prop :=
  ∃ done u, instrOps (decode (memRead m0 p)) = done ++ [u] ∧ Jumps u

/-- A micro-op with another one behind it is the first of a macro; in a legal program it writes a register other than the
program counter. -/
theorem command_of_first_micro_op {w : Word} (hlegal : ∀ i, decode w = .instr i → isPcMacro i = false)
    {done rest : List Decoded} {u : Decoded} (hops : instrOps (decode w) = done ++ u :: rest) (hrest : rest ≠ [])
    {ipc : Word} {s : State} {c : Cmd} (hc : runOp (decodedOp u) ipc s = .command c) :
    ∃ r v, c = .registers r v ∧ r ≠ 31#5 := by
  have hlen := congrArg List.length hops
  have hpos := List.length_pos_of_ne_nil hrest
  have hle := instrOps_length w
  rw [List.length_append, List.length_cons] at hlen
  obtain rfl : done = [] := List.eq_nil_of_length_eq_zero (by omega)
  obtain ⟨hfirst, hsecond⟩ := List.cons.inj hops
  rcases expand_cases w with ⟨d, a, b, i, hD, e⟩ | ⟨d, a, b, i, hD, e⟩ | ⟨-, e⟩ <;> rw [e] at hfirst hsecond
  · have hsub : WritesOnly (decodedOp u) a := hfirst ▸ writesOnly_aluOp
    obtain ⟨v, hv⟩ := hsub.command hc
    exact ⟨a, v, hv, by simpa [isPcMacro] using hlegal _ hD⟩
  · have hld : WritesOnly (decodedOp u) d := hfirst ▸ writesOnly_ldOp
    obtain ⟨v, hv⟩ := hld.command hc
    exact ⟨d, v, hv, by simpa [isPcMacro] using hlegal _ hD⟩
  · exact absurd hsecond.symm hrest

end Sys2Proof.Machine
end

section
/-!
SUPPORT. The equivalence of the variants for legal programs (50_pipeline.md R167, 70_reset_and_hazards.md R232).
The pipeline is looked at after the writeback stage of each step, where every older command has retired and the
instruction in `DR` is the next to execute. There the micro-ops still to execute (`State.pending`), and behind them the
address where the stream of fetched words continues (`State.fetchAddr`), are those of the serial reference, whatever the
bubbles between them; a stream that a branch has left is gone before it executes. A rank counts the steps until the next
micro-op executes. Then the statement O60 from these.
-/

namespace Sys2Proof.Machine

/-! ### The stream of instructions in a pipeline -/

/-- The micro-ops that decode has issued or queued and that have not executed, oldest first. -/
def State.pending (s : State) : List InFlight := s.dr.toList ++ s.dq

/-- The address of the first instruction that decode has not taken. -/
def State.fetchAddr (s : State) : Word :=
  match s.fr with
  | some f => f.ipc
  | none => s.reg 31#5

theorem fetchAddr_of_some {s : State} {f : FetchSlot} (h : s.fr = some f) : s.fetchAddr = f.ipc := by
  rw [State.fetchAddr, h]

theorem fetchAddr_of_none {s : State} (h : s.fr = none) : s.fetchAddr = s.reg 31#5 := by
  rw [State.fetchAddr, h]

theorem pending_eq_dq {s : State} (h : s.dr = none) : s.pending = s.dq := by rw [State.pending, h]; rfl

theorem pending_eq_cons {s : State} {D : InFlight} (h : s.dr = some D) : s.pending = D :: s.dq := by
  rw [State.pending, h]; rfl

theorem pending_congr {s t : State} (hdr : t.dr = s.dr) (hdq : t.dq = s.dq) : t.pending = s.pending := by
  rw [State.pending, State.pending, hdr, hdq]

theorem fetchAddr_congr {s t : State} (hfr : t.fr = s.fr) (hpc : t.reg 31#5 = s.reg 31#5) :
    t.fetchAddr = s.fetchAddr := by
  rw [State.fetchAddr, State.fetchAddr, hfr, hpc]

/-! ### The front end on the stream -/

section FrontEndStream
variable {s : State}

/-- Fetch reads at the address decode has left in `R[31]`, or waits there. -/
theorem frontEnd_fetchAddr (hempty : s.dq ≠ [] → s.fr = none) :
    (frontEnd s).fetchAddr = (decodeStage s).reg 31#5 := by
  by_cases hstall : (decodeStage s).stall = 0#32
  · have hfr : (frontEnd s).fr = _ := (stallDec_fr _).trans (congrArg State.fr (fetchStage_go _ hstall))
    exact fetchAddr_of_some hfr
  · have hwait := fetchStage_stalled _ hstall
    have hfr : (frontEnd s).fr = none := by rw [frontEnd, stallDec_fr, hwait, decodeStage_fr hempty]
    rw [fetchAddr_of_none hfr, frontEnd, stallDec_reg, hwait]

theorem frontEnd_pending (s : State) : (frontEnd s).pending = (decodeStage s).pending :=
  pending_congr (frontEnd_dr s) (frontEnd_dq s)

/-- All that the front end can do to the stream: keep what is queued, held or replayed, or take the fetched word's micro-ops
from it. -/
theorem frontEnd_stream_cases (hempty : s.dq ≠ [] → s.fr = none) :
    ((frontEnd s).pending = s.dq ∧ (frontEnd s).fetchAddr = s.fetchAddr) ∨
    ∃ f, s.dq = [] ∧ s.fr = some f ∧
      (frontEnd s).pending = (instrOps (decode f.blob)).map (fun u => ⟨u, f.ipc, f.npc⟩) ∧
      (frontEnd s).fetchAddr = s.reg 31#5 := by
  rw [frontEnd_pending, frontEnd_fetchAddr hempty]
  rcases decodeStage_cases s with ⟨u, rest, hdq, -, hold⟩ | ⟨u, rest, hdq, -, issue⟩ | ⟨f, hdq, hfr, -, replay⟩ |
    ⟨f, hdq, hfr, -, issue⟩ | ⟨hdq, hfr, bubble⟩
  · have hnone : s.fr = none := hempty (by simp [hdq])
    rw [hold, fetchAddr_of_none hnone]
    exact .inl ⟨rfl, rfl⟩
  · have hnone : s.fr = none := hempty (by simp [hdq])
    rw [issue, fetchAddr_of_none hnone]
    exact .inl ⟨hdq.symm, rfl⟩
  · rw [replay, fetchAddr_of_some hfr, setPc_reg31]
    exact .inl ⟨rfl, rfl⟩
  · rw [issue]
    exact .inr ⟨f, hdq, hfr, rfl, rfl⟩
  · rw [bubble, fetchAddr_of_none hfr]
    exact .inl ⟨rfl, rfl⟩

/-- What fetch leaves in `FR`: the word of memory at its address, followed by the next address or a recorded target. -/
theorem frontEnd_fr (hempty : s.dq ≠ [] → s.fr = none) {f : FetchSlot} (hf : (frontEnd s).fr = some f) :
    f.blob = memRead s.mem f.ipc ∧ f.npc = (frontEnd s).reg 31#5 ∧
      (f.npc = f.ipc + 4#32 ∨ s.jumpTarget f.ipc ≠ none) := by
  refine ⟨frontEnd_fr_blob hempty hf, ?_⟩
  rw [frontEnd, stallDec_fr] at hf
  rw [frontEnd, stallDec_reg]
  by_cases hstall : (decodeStage s).stall = 0#32
  · rw [fetchStage_go _ hstall] at hf ⊢
    obtain rfl := Option.some.inj hf
    refine ⟨(setPc_reg31 _ _).symm, (nextFetch_cases (decodeStage s) _).imp id ?_⟩
    rintro ⟨t, ht, -⟩ hnone
    rw [State.jumpTarget, decodeStage_jumpMap] at ht
    rw [State.jumpTarget, ht] at hnone
    cases hnone
  · rw [fetchStage_stalled _ hstall, decodeStage_fr hempty] at hf
    cases hf

/-- Behind a bubble the front end issues what there is, or fetches. -/
theorem frontEnd_progress (hxr : s.xr = none) (hstall : s.stall = 0#32) :
    (frontEnd s).dr ≠ none ∨ (s.dq = [] ∧ s.fr = none ∧ (frontEnd s).fr ≠ none) := by
  rw [frontEnd_dr]
  rcases decodeStage_cases s with ⟨u, rest, -, hz, -⟩ | ⟨u, rest, -, -, issue⟩ | ⟨f, -, -, hz, -⟩ |
    ⟨f, -, -, -, issue⟩ | ⟨hdq, hfr, -⟩
  · rw [hxr, hazard_none] at hz; cases hz
  · rw [issue]; exact .inl (by simp)
  · rw [hxr, hazard_none] at hz; cases hz
  · rw [issue]; exact .inl (by simp)
  · obtain ⟨hfetched, -, -⟩ := frontEnd_of_empty hdq hfr hstall
    exact .inr ⟨hdq, hfr, by rw [hfetched]; simp⟩

end FrontEndStream

/-! ### What a pipeline knows of the program -/

/-- The latches and the jump-map agree with the program: what `FR` holds is followed by the program counter; its word is
the program's, at an address the serial run fetches; and fetch leaves the straight line only behind an instruction that
always ends in a PC write. -/
structure Coherent (m0 : Memory) (w : State) : Prop where
  inv : w.Inv
  piped : w.Piped
  npc : ∀ f ∈ w.fr, f.npc = w.reg 31#5
  line : ∀ f ∈ w.fr, f.npc = f.ipc + 4#32 ∨ JumpAt m0 f.ipc
  code : ∀ f ∈ w.fr, FetchedAt m0 f.ipc → f.blob = memRead m0 f.ipc
  jumps : ∀ p, w.jumpTarget p ≠ none → JumpAt m0 p

theorem boot_coherent {m0 : Memory} {v : Variant} (hwf : m0.wf = true) (hv : v ≠ .serial) :
    Coherent m0 (State.boot v m0) where
  inv := boot_inv v hwf
  piped := hv
  npc := by simp
  line := by simp
  code := by simp
  jumps p hp := absurd (boot_jumpTarget v m0 p) hp

section Coherent
variable {m0 : Memory} {w : State}

/-- The stages after writeback keep the agreement with a program whose code is still in memory. -/
theorem Coherent.after_execute (h : Coherent m0 w) (hcode : ∀ p, FetchedAt m0 p → memRead w.mem p = memRead m0 p) :
    Coherent m0 (frontEnd (executeStage w)) := by
  have hinv := executeStage_inv h.inv
  have hjump : ∀ p, (executeStage w).jumpTarget p ≠ none → JumpAt m0 p := fun p hp => by
    rw [State.jumpTarget, executeStage_jumpMap] at hp; exact h.jumps p hp
  have hfr := fun f (hf : f ∈ (frontEnd (executeStage w)).fr) => frontEnd_fr hinv.fetchEmpty hf
  refine ⟨frontEnd_inv hinv, ?_, fun f hf => ?_, fun f hf => ?_, fun f hf hp => ?_, fun p hp => ?_⟩
  · rw [State.Piped, frontEnd_variant, executeStage_variant]; exact h.piped
  · obtain ⟨-, hnpc, -⟩ := hfr f hf
    exact hnpc
  · obtain ⟨-, -, hline⟩ := hfr f hf
    exact hline.imp id (hjump f.ipc)
  · obtain ⟨hblob, -, -⟩ := hfr f hf
    rw [hblob, executeStage_mem, hcode _ hp]
  · rw [State.jumpTarget, frontEnd_jumpMap] at hp; exact hjump p hp

/-- Agreement with the program survives a change of the rest of the state that keeps or empties `FR`. -/
theorem Coherent.of_latches {x : State} (h : Coherent m0 w) (hinv : x.Inv) (hvariant : x.variant = w.variant)
    (hfr : x.fr = none ∨ (x.fr = w.fr ∧ x.reg 31#5 = w.reg 31#5))
    (hjumps : ∀ p, x.jumpTarget p ≠ none → JumpAt m0 p) : Coherent m0 x := by
  have hpiped : x.Piped := by rw [State.Piped, hvariant]; exact h.piped
  rcases hfr with hnone | ⟨hsame, hpc⟩
  · exact ⟨hinv, hpiped, by simp [hnone], by simp [hnone], by simp [hnone], hjumps⟩
  · exact ⟨hinv, hpiped, by rw [hsame, hpc]; exact h.npc, by rw [hsame]; exact h.line, by rw [hsame]; exact h.code,
      hjumps⟩

/-- A PC write that retires flushes, or leaves the latches and `R[31]` as they are where it was predicted. -/
theorem branchRetire_stream (s : State) (v ipc npc : Word) :
    (norm v = npc ∧ (branchRetire s v ipc npc).dr = s.dr ∧ (branchRetire s v ipc npc).dq = s.dq ∧
      (branchRetire s v ipc npc).fr = s.fr ∧ (branchRetire s v ipc npc).reg 31#5 = s.reg 31#5) ∨
    ((branchRetire s v ipc npc).dr = none ∧ (branchRetire s v ipc npc).dq = [] ∧
      (branchRetire s v ipc npc).fr = none ∧ (branchRetire s v ipc npc).reg 31#5 = norm v) := by
  rcases branchRetire_cases s v ipc npc with ⟨-, heq, e⟩ | ⟨-, -, e⟩ | ⟨-, e⟩ <;> rw [e]
  · exact .inl ⟨heq, by simp⟩
  · exact .inr (by simp)
  · exact .inr (by simp)

/-- The writeback stage keeps the agreement: it records a target only for the instruction whose PC write retires. -/
theorem Coherent.after_writeback (h : Coherent m0 w)
    (hx : ∀ v ipc npc, w.xr = some ⟨.registers 31#5 v, ipc, npc⟩ → JumpAt m0 ipc) : Coherent m0 (writebackStage w) := by
  refine h.of_latches (writebackStage_inv h.inv) (writebackStage_variant w) ?_ fun p hp => ?_
  · rcases writebackStage_cases w with ⟨-, e⟩ | ⟨v, ipc, npc, -, e⟩ | ⟨c, -, -, -, hc, e⟩ <;> rw [e]
    · exact .inr ⟨rfl, rfl⟩
    · rcases branchRetire_stream w v ipc npc with ⟨-, -, -, hfr, hpc⟩ | ⟨-, -, hfr, -⟩
      · exact .inr ⟨hfr, hpc⟩
      · exact .inl hfr
    · exact .inr ⟨writeback_fr w c, writeback_reg31 hc w⟩
  · rcases writebackStage_predictor w with same | ⟨v, ipc, npc, hpc, -, hit | miss⟩
    · exact h.jumps p (by rwa [← same.jumpTarget])
    · exact h.jumps p (by rw [hit.jumpTarget] at hp; exact hp)
    · rw [miss.jumpTarget, jumpTarget_trainTaken] at hp
      split_ifs at hp with hipc
      · rw [hipc]; exact hx v ipc npc hpc
      · exact h.jumps p hp

end Coherent

/-! ### The serial reference and the pipeline side by side -/

/-- The pipeline, its commands retired, stands between two instructions of the serial reference: nothing is left to execute,
and the stream continues at the serial program counter. -/
structure Between (σ w : State) : Prop where
  data : SameData σ w
  pending : w.pending = []
  addr : w.fetchAddr = σ.pc

/-- The pipeline, its commands retired, has micro-ops `us` of the instruction at `σ` left to execute; `τ` is the serial state
in which the first of them executes. -/
structure Within (m0 : Memory) (σ τ w : State) (us : List InFlight) : Prop where
  data : SameData τ w
  running : τ.Running
  pc : τ.pc = σ.pc + 4#32
  mem : τ.mem = σ.mem
  pending : w.pending = us
  nonempty : us ≠ []
  ops : ∃ done, instrOps (decode σ.fetchedWord) = done ++ us.map InFlight.op
  source : ∀ u ∈ us, u.ipc = σ.pc ∧ u.npc = w.fetchAddr
  line : w.fetchAddr = σ.pc + 4#32 ∨ JumpAt m0 σ.pc
  next : step σ = .next (retireOps σ.pc (us.map fun u => decodedOp u.op) τ)

/-- The pipeline follows the serial reference at `σ`. -/
def Follows (m0 : Memory) (σ w : State) : Prop := Between σ w ∨ ∃ τ us, Within m0 σ τ w us

section Follows
variable {m0 : Memory} {σ τ w x : State} {us : List InFlight}

theorem Between.congr (h : Between σ w) (hdata : SameData w x) (hpending : x.pending = w.pending)
    (haddr : x.fetchAddr = w.fetchAddr) : Between σ x :=
  ⟨h.data.trans hdata, hpending.trans h.pending, haddr.trans h.addr⟩

theorem Within.congr (h : Within m0 σ τ w us) (hdata : SameData w x) (hpending : x.pending = w.pending)
    (haddr : x.fetchAddr = w.fetchAddr) : Within m0 σ τ x us :=
  ⟨h.data.trans hdata, h.running, h.pc, h.mem, hpending.trans h.pending, h.nonempty, h.ops, by rw [haddr]; exact h.source,
    by rw [haddr]; exact h.line, h.next⟩

theorem Follows.congr (h : Follows m0 σ w) (hdata : SameData w x) (hpending : x.pending = w.pending)
    (haddr : x.fetchAddr = w.fetchAddr) : Follows m0 σ x := by
  rcases h with h | ⟨τ, us, h⟩
  · exact .inl (h.congr hdata hpending haddr)
  · exact .inr ⟨τ, us, h.congr hdata hpending haddr⟩

theorem Follows.mem (h : Follows m0 σ w) : w.mem = σ.mem := by
  rcases h with h | ⟨τ, us, h⟩
  · exact h.data.mem
  · exact h.data.mem.trans h.mem

theorem Follows.running (h : Follows m0 σ w) (hσ : σ.Running) : w.Running := by
  rcases h with h | ⟨τ, us, h⟩
  · exact h.data.running hσ
  · exact h.data.running h.running

/-- An instruction has at most two micro-ops. -/
theorem Follows.pending_length (h : Follows m0 σ w) : w.pending.length ≤ 2 := by
  rcases h with h | ⟨τ, us, h⟩
  · simp [h.pending]
  · obtain ⟨done, hops⟩ := h.ops
    have hlen := congrArg List.length hops
    have hle := instrOps_length (memRead σ.mem σ.pc)
    rw [List.length_append, List.length_map] at hlen
    rw [h.pending]
    have hword : (instrOps (decode σ.fetchedWord)).length ≤ 2 := hle
    omega

variable (hlegal : Legal m0) (hσ : SerialReaches m0 σ) (hrun : σ.Running)
include hlegal hσ hrun

/-- When decode takes the word at the serial program counter, the pipeline has the whole instruction left to execute. -/
theorem within_of_issue {f : FetchSlot} (hcoh : Coherent m0 w) (hfr : w.fr = some f) (hipc : f.ipc = σ.pc)
    (hdata : SameData σ x) (hpending : x.pending = (instrOps (decode f.blob)).map fun u => ⟨u, f.ipc, f.npc⟩)
    (haddr : x.fetchAddr = w.reg 31#5) :
    Within m0 σ (σ.setPc (σ.pc + 4#32)) x ((instrOps (decode f.blob)).map fun u => ⟨u, f.ipc, f.npc⟩) := by
  have hfetched : FetchedAt m0 f.ipc := ⟨σ, hσ, hrun, hipc.symm⟩
  have hnpc : f.npc = x.fetchAddr := (hcoh.npc f hfr).trans haddr.symm
  have hblob : f.blob = σ.fetchedWord := by
    rw [hcoh.code f hfr hfetched, State.fetchedWord, ← hipc, hlegal.code_fixed hσ hfetched]
  have hmap : ((instrOps (decode f.blob)).map fun u => (⟨u, f.ipc, f.npc⟩ : InFlight)).map InFlight.op =
      instrOps (decode f.blob) := by simp [List.map_map, Function.comp_def]
  have hops : ((instrOps (decode f.blob)).map fun u => (⟨u, f.ipc, f.npc⟩ : InFlight)).map (fun u => decodedOp u.op) =
      microOps (decode σ.fetchedWord) := by
    rw [← hblob, microOps_eq_map, List.map_map]; rfl
  refine ⟨(sameData_setPc σ _).symm.trans hdata, hrun, setPc_reg31 σ _, rfl, hpending, by simp [instrOps], ⟨[], ?_⟩,
    fun u hu => ?_, ?_, ?_⟩
  · rw [hmap, hblob]; rfl
  · obtain ⟨D, -, rfl⟩ := List.mem_map.1 hu
    exact ⟨hipc, hnpc⟩
  · rw [← hnpc, ← hipc]; exact hcoh.line f hfr
  · rw [hops]; exact hσ.step_running hrun

/-- The pipeline has executed the last micro-op ahead of `σ` and the stream continues at the serial program counter: the
front end leaves it between two instructions, or with the next one issued. -/
theorem follows_of_frontEnd {e : State} (hcoh : Coherent m0 w) (hempty : e.dq ≠ [] → e.fr = none) (hdq : e.dq = [])
    (hfr : e.fr = w.fr) (hpc : e.reg 31#5 = w.reg 31#5) (haddr : w.fetchAddr = σ.pc) (hdata : SameData σ x)
    (hpending : x.pending = (frontEnd e).pending) (hfetch : x.fetchAddr = (frontEnd e).fetchAddr) : Follows m0 σ x := by
  rcases frontEnd_stream_cases hempty with ⟨hkeep, hsame⟩ | ⟨f, -, hf, hissue, hnext⟩
  · exact .inl ⟨hdata, by rw [hpending, hkeep, hdq], by rw [hfetch, hsame, fetchAddr_congr hfr hpc, haddr]⟩
  · have hwfr : w.fr = some f := hfr ▸ hf
    have hipc : f.ipc = σ.pc := (fetchAddr_of_some hwfr).symm.trans haddr
    exact .inr ⟨_, _, within_of_issue hlegal hσ hrun hcoh hwfr hipc hdata (hpending.trans hissue)
      (hfetch.trans (hnext.trans hpc))⟩

end Follows

/-- The simulation: `s` is a state of the pipeline, whose writeback stage leaves it at the serial state `σ`, from which the
serial reference stops at `t` in `m` more steps. -/
structure Simulates (m0 : Memory) (t : State) (m : Nat) (σ s : State) : Prop where
  reached : SerialReaches m0 σ
  running : σ.Running
  remaining : Reaches σ m t
  stops : t.stopped = true
  pipe : s.Running
  coherent : Coherent m0 (writebackStage s)
  follows : Follows m0 σ (writebackStage s)

/-- The pipeline at `s` stops with the architectural result of `t`. -/
def StopsAs (t s : State) : Prop := ∃ k u, Reaches s k u ∧ u.stopped = true ∧ SameArch t u

/-- Steps until the next micro-op executes, counted from above: a word to fetch, a word to decode, micro-ops to execute,
and a bubble ahead of them. -/
def State.rank (w : State) : Nat :=
  (if w.pending = [] then 8 + (if w.fr = none then 1 else 0) else 3 * w.pending.length) + if w.dr = none then 1 else 0

theorem Follows.rank_le {m0 : Memory} {σ w : State} (h : Follows m0 σ w) : w.rank ≤ 10 := by
  have := h.pending_length
  unfold State.rank
  split_ifs <;> omega

theorem StopsAs.of_step {t s : State} (hs : s.Piped) (h : StopsAs t (pipeStep s)) : StopsAs t s := by
  obtain ⟨k, u, hreach, hu⟩ := h
  exact ⟨k + 1, u, reaches_pipeStep hs hreach, hu⟩

theorem stopsAs_of_stopped {t s : State} (hs : s.stopped = true) (h : SameData t s) : StopsAs t s :=
  ⟨0, s, rfl, hs, h.sameArch⟩

end Sys2Proof.Machine
end

section
/-!
SUPPORT. One step of the simulation that `Simulates` states, in the cases of the decode latch and of the command, and its
iteration to the end of the serial run (50_pipeline.md R167); then the statement O60 from these.
-/

namespace Sys2Proof.Machine

/-! ### The rank of a step -/

section Rank
variable {w x : State} (hdr : w.dr = none)
include hdr

/-- Issuing behind a bubble what was pending, or the word in `FR`, lowers the rank. -/
theorem rank_lt_of_issued (hissued : x.dr ≠ none) (hlen : x.pending.length ≤ 2)
    (hpending : x.pending = w.pending ∨ w.pending = []) : x.rank < w.rank := by
  have hsome : x.pending ≠ [] := by
    obtain ⟨D, hD⟩ := Option.ne_none_iff_exists'.1 hissued
    simp [pending_eq_cons hD]
  rcases hpending with hkeep | hnil
  · have hsome' : w.pending ≠ [] := hkeep ▸ hsome
    simp [State.rank, hsome', hkeep, hdr, hissued]
  · simp only [State.rank, hnil, hsome, hissued, hdr, if_true, if_false]
    omega

/-- Fetching into an empty pipeline lowers the rank. -/
theorem rank_lt_of_fetched (hw : w.pending = []) (hfr : w.fr = none) (hx : x.pending = []) (hfetched : x.fr ≠ none) :
    x.rank < w.rank := by
  simp only [State.rank, hx, hw, hfr, hfetched, hdr, if_true, if_false]
  split_ifs <;> omega

end Rank

/-! ### One step -/

section Turn
variable {m0 : Memory} {t σ s : State} {m : Nat} (h : Simulates m0 t m σ s)
include h

theorem Simulates.remaining_of_step {σ' : State} (hst : step σ = .next σ') :
    ∃ m', m = m' + 1 ∧ Reaches σ' m' t := by
  cases m with
  | zero =>
    have hend : t = σ := (Host.Outcome.next.inj h.remaining).symm
    have hstop := h.stops
    rw [hend, (running_iff σ).2 h.running] at hstop
    cases hstop
  | succ m' => exact ⟨m', rfl, (reaches_succ_of_step hst m').1 h.remaining⟩

/-- Where the serial step stops the machine, that is where the serial run ends. -/
theorem Simulates.end_of_step_stopped {σ' : State} (hst : step σ = .next σ') (hstop : σ'.stopped = true) : t = σ' := by
  obtain ⟨m', -, hreach⟩ := h.remaining_of_step hst
  exact eq_of_reaches_stopped hstop hreach

variable (hlegal : Legal m0)
include hlegal

/-- The word at the serial program counter is the image's. -/
theorem Simulates.fetchedWord : σ.fetchedWord = memRead m0 σ.pc :=
  hlegal.code_fixed h.reached ⟨σ, h.reached, h.running, rfl⟩

/-- The code of the program is in memory when the step fetches. -/
theorem Simulates.code (p : Word) (hp : FetchedAt m0 p) : memRead (writebackStage s).mem p = memRead m0 p := by
  rw [h.follows.mem, hlegal.code_fixed h.reached hp]

/-- With a bubble in `DR` the serial reference waits, and the pipeline comes nearer to the next micro-op. -/
theorem Simulates.bubble (hdr : (writebackStage s).dr = none) :
    Simulates m0 t m σ (pipeStep s) ∧ (writebackStage (pipeStep s)).rank < (writebackStage s).rank := by
  have hwrun := h.follows.running h.running
  have hex := executeStage_of_bubble hdr
  have hstep : pipeStep s = frontEnd (executeStage (writebackStage s)) := by
    rw [hex]; exact pipeStep_of_bubble h.pipe hwrun.1 hdr
  have hinv := executeStage_inv h.coherent.inv
  have hxr : (executeStage (writebackStage s)).xr = none := by rw [hex]
  have hdata : SameData (writebackStage s) (pipeStep s) := by
    rw [hstep, hex]; exact (sameData_with_xr _ _).trans (sameData_frontEnd _)
  have hwb : writebackStage (pipeStep s) = pipeStep s :=
    writebackStage_of_bubble (by rw [hstep, frontEnd_xr, hxr])
  have hcoh : Coherent m0 (writebackStage (pipeStep s)) := by
    rw [hwb, hstep]; exact h.coherent.after_execute (h.code hlegal)
  have hprogress := frontEnd_progress hxr hinv.stall
  have hstream := frontEnd_stream_cases hinv.fetchEmpty
  rw [← hstep, executeStage_dq, executeStage_fr] at hprogress hstream
  rw [executeStage_reg, fetchAddr_congr (executeStage_fr (writebackStage s)) (executeStage_reg _ _),
    ← pending_eq_dq hdr] at hstream
  suffices hnext : Follows m0 σ (pipeStep s) ∧ (pipeStep s).rank < (writebackStage s).rank from
    ⟨⟨h.reached, h.running, h.remaining, h.stops, hdata.running hwrun, hcoh, by rw [hwb]; exact hnext.1⟩,
      by rw [hwb]; exact hnext.2⟩
  rcases hstream with ⟨hpending, haddr⟩ | ⟨f, hempty, hfr, hpending, haddr⟩
  · have hfollows := h.follows.congr hdata hpending haddr
    refine ⟨hfollows, ?_⟩
    rcases hprogress with hissued | ⟨hdq, hnone, hfetched⟩
    · exact rank_lt_of_issued hdr hissued hfollows.pending_length (.inl hpending)
    · have hnil : (writebackStage s).pending = [] := (pending_eq_dq hdr).trans hdq
      exact rank_lt_of_fetched hdr hnil hnone (hpending.trans hnil) hfetched
  · have hbetween : Between σ (writebackStage s) := by
      rcases h.follows with hb | ⟨τ, us, hwithin⟩
      · exact hb
      · exact absurd (hwithin.pending.symm.trans hempty) hwithin.nonempty
    have hipc : f.ipc = σ.pc := (fetchAddr_of_some hfr).symm.trans hbetween.addr
    have hfollows : Follows m0 σ (pipeStep s) := .inr ⟨_, _, within_of_issue hlegal h.reached h.running h.coherent hfr hipc
      (hbetween.data.trans hdata) hpending haddr⟩
    have hissued : (pipeStep s).dr ≠ none := by
      rcases hprogress with hissued | ⟨-, hnone, -⟩
      · exact hissued
      · rw [hfr] at hnone; cases hnone
    exact ⟨hfollows, rank_lt_of_issued hdr hissued hfollows.pending_length (.inr hempty)⟩

section Executes
variable {τ : State} {D : InFlight} (hdr : (writebackStage s).dr = some D)
  (hwithin : Within m0 σ τ (writebackStage s) (D :: (writebackStage s).dq))
include hdr hwithin

omit hlegal in
/-- A fault of the next micro-op is the fault of the serial reference, which ends both runs. -/
theorem Simulates.faults {f : FaultRecord} (hraise : runOp (decodedOp D.op) D.ipc τ = .raise f) : StopsAs t (pipeStep s) := by
  obtain ⟨hipc, -⟩ := hwithin.source D (by simp)
  have hnext := hwithin.next
  rw [List.map_cons, retireOps_raise (by rwa [← hipc])] at hnext
  have hend := h.end_of_step_stopped hnext ((stopped_iff _).2 (.inr (by simp)))
  have hwrun := hwithin.data.running hwithin.running
  have hexec : execDecoded D (writebackStage s) = .raise f := (hwithin.data.runOp D.op D.ipc).trans hraise
  rw [pipeStep_of_raise h.pipe hwrun.1 hdr hexec, hend]
  exact stopsAs_of_stopped ((stopped_iff _).2 (.inr (by simp))) (hwithin.data.raise f)

variable {c : Cmd} (hcommand : runOp (decodedOp D.op) D.ipc τ = .command c)
include hcommand

/-- The step executes the next micro-op as the serial reference does, and its front end goes on with the stream. -/
theorem Simulates.executes : pipeStep s = frontEnd (executeStage (writebackStage s)) ∧ SameData τ (pipeStep s) ∧
    (pipeStep s).xr = some ⟨c, D.ipc, D.npc⟩ ∧ Coherent m0 (pipeStep s) ∧ c.Ok := by
  have hwrun := hwithin.data.running hwithin.running
  have hexec : execDecoded D (writebackStage s) = .command c := (hwithin.data.runOp D.op D.ipc).trans hcommand
  have hstep : pipeStep s = frontEnd (executeStage (writebackStage s)) := by
    rw [executeStage_of_command hdr hexec]; exact pipeStep_of_command h.pipe hwrun.1 hdr hexec
  obtain ⟨hdata, hxr⟩ := pipeStep_executes h.pipe hwrun.1 hdr hexec
  exact ⟨hstep, hwithin.data.trans hdata, hxr, hstep ▸ h.coherent.after_execute (h.code hlegal),
    execDecoded_command_ok hexec⟩

omit hdr in
/-- A PC write comes from the last micro-op of an instruction that always ends in one. -/
theorem Simulates.jumpAt {v : Word} (hc : c = .registers 31#5 v) :
    (writebackStage s).dq = [] ∧ JumpAt m0 σ.pc := by
  obtain ⟨done, hops⟩ := hwithin.ops
  have hlast : (writebackStage s).dq = [] := by
    by_contra hrest
    obtain ⟨r, w, hreg, hr⟩ := command_of_first_micro_op
      (fun i hi => hlegal.not_pcMacro h.reached h.running hi) hops (by simpa using hrest) hcommand
    rw [hc] at hreg
    cases hreg
    exact hr rfl
  rw [hlast, h.fetchedWord hlegal] at hops
  exact ⟨hlast, done, D.op, hops, jumps_of_pcWrite (hc ▸ hcommand)⟩

/-- The writeback stage of the next step keeps the agreement with the program. -/
theorem Simulates.coherent_next : Coherent m0 (writebackStage (pipeStep s)) := by
  obtain ⟨-, -, hxr, hcoh, -⟩ := h.executes hlegal hdr hwithin hcommand
  obtain ⟨hipc, -⟩ := hwithin.source D (by simp)
  refine hcoh.after_writeback fun v ipc npc hx => ?_
  rw [hxr] at hx
  cases hx
  obtain ⟨-, hjump⟩ := h.jumpAt hlegal hwithin hcommand rfl
  rwa [hipc]

/-- The first micro-op of a macro retires; the second one is next. -/
theorem Simulates.first_micro_op (hrest : (writebackStage s).dq ≠ []) :
    Simulates m0 t m σ (pipeStep s) ∧ (writebackStage (pipeStep s)).rank < (writebackStage s).rank := by
  obtain ⟨hstep, hdata, hxr, -, -⟩ := h.executes hlegal hdr hwithin hcommand
  have hcoh := h.coherent_next hlegal hdr hwithin hcommand
  obtain ⟨done, hops⟩ := hwithin.ops
  obtain ⟨hipc, -⟩ := hwithin.source D (by simp)
  obtain ⟨r, v, rfl, hr⟩ := command_of_first_micro_op
    (fun i hi => hlegal.not_pcMacro h.reached h.running hi) hops (by simpa using hrest) hcommand
  have hwb := writebackStage_of_index hxr hr
  have hstream := frontEnd_stream_cases (executeStage_inv h.coherent.inv).fetchEmpty
  rw [← hstep, executeStage_dq, fetchAddr_congr (executeStage_fr (writebackStage s)) (executeStage_reg _ _)] at hstream
  obtain ⟨hpending, haddr⟩ : (pipeStep s).pending = (writebackStage s).dq ∧
      (pipeStep s).fetchAddr = (writebackStage s).fetchAddr := by
    rcases hstream with hkeep | ⟨f, hnil, -⟩
    · exact hkeep
    · exact absurd hnil hrest
  have hpc : ∀ x : State, (x.writeIndex r v).reg 31#5 = x.reg 31#5 := fun x =>
    writeback_reg31 (c := .registers r v) (fun w hw => hr (by cases hw; rfl)) x
  have hpending' : (writebackStage (pipeStep s)).pending = (writebackStage s).dq := by
    rw [hwb, ← hpending]; exact pending_congr (writeIndex_dr ..) (writeIndex_dq ..)
  have haddr' : (writebackStage (pipeStep s)).fetchAddr = (writebackStage s).fetchAddr := by
    rw [hwb, ← haddr]; exact fetchAddr_congr (writeIndex_fr ..) (hpc _)
  have hnext : Within m0 σ (τ.writeIndex r v) (writebackStage (pipeStep s)) (writebackStage s).dq :=
    { data := (hdata.writeback (.registers r v)).trans (sameData_writebackStage hxr)
      running := ⟨(writeIndex_halted ..).trans hwithin.running.1, (writeIndex_fault ..).trans hwithin.running.2⟩
      pc := (hpc τ).trans hwithin.pc
      mem := (writeIndex_mem ..).trans hwithin.mem
      pending := hpending'
      nonempty := hrest
      ops := ⟨done ++ [D.op], by rw [hops]; simp⟩
      source := fun u hu => by rw [haddr']; exact hwithin.source u (List.mem_cons_of_mem _ hu)
      line := by rw [haddr']; exact hwithin.line
      next := by
        have hserial := hwithin.next
        rw [List.map_cons, retireOps_command (by rwa [← hipc])] at hserial
        exact hserial }
  refine ⟨⟨h.reached, h.running, h.remaining, h.stops, hdata.running hwithin.running, hcoh, .inr ⟨_, _, hnext⟩⟩, ?_⟩
  simp only [State.rank, hpending', hwithin.pending, hrest, hdr, if_false, reduceCtorEq, List.length_cons]
  split_ifs <;> omega

/-- A retiring `hlt` ends both runs. -/
theorem Simulates.halts (hrest : (writebackStage s).dq = []) (hc : c = .halt) : StopsAs t (pipeStep s) := by
  subst hc
  obtain ⟨-, hdata, hxr, hcoh, -⟩ := h.executes hlegal hdr hwithin hcommand
  obtain ⟨hipc, -⟩ := hwithin.source D (by simp)
  have hnext := hwithin.next
  rw [List.map_cons, retireOps_command (by rwa [← hipc]), hrest, List.map_nil, retireOps_nil] at hnext
  have hend := h.end_of_step_stopped hnext ((stopped_iff _).2 (.inl rfl))
  refine StopsAs.of_step hcoh.piped ?_
  rw [pipeStep_of_halt (hdata.running hwithin.running) hxr, hend]
  exact stopsAs_of_stopped ((stopped_iff _).2 (.inl rfl)) (hdata.writeback .halt)

/-- The last micro-op of an instruction retires and the serial reference takes its step: a PC write that was not predicted
has emptied the stream, otherwise it continues at the serial program counter. -/
theorem Simulates.follows_next (hrest : (writebackStage s).dq = []) (hhalt : c ≠ .halt)
    (hreach : SerialReaches m0 (τ.writeback c)) (hrun : (τ.writeback c).Running) :
    Follows m0 (τ.writeback c) (writebackStage (pipeStep s)) := by
  obtain ⟨hstep, hdata, hxr, -, hok⟩ := h.executes hlegal hdr hwithin hcommand
  obtain ⟨-, hnpc⟩ := hwithin.source D (by simp)
  obtain ⟨done, hops⟩ := hwithin.ops
  have hdata' := (hdata.writeback c).trans (sameData_writebackStage hxr)
  have continues : (writebackStage s).fetchAddr = (τ.writeback c).pc →
      (writebackStage (pipeStep s)).pending = (pipeStep s).pending →
      (writebackStage (pipeStep s)).fetchAddr = (pipeStep s).fetchAddr →
      Follows m0 (τ.writeback c) (writebackStage (pipeStep s)) := fun haddr hpending hfetch =>
    follows_of_frontEnd hlegal hreach hrun (e := executeStage (writebackStage s)) h.coherent
      (executeStage_inv h.coherent.inv).fetchEmpty ((executeStage_dq _).trans hrest) (executeStage_fr _)
      (executeStage_reg _ _) haddr hdata' (by rw [hpending, hstep]) (by rw [hfetch, hstep])
  by_cases hpcWrite : ∃ v, c = .registers 31#5 v
  · obtain ⟨v, rfl⟩ := hpcWrite
    have hpc : (τ.writeback (.registers 31#5 v)).pc = norm v := by
      rw [pc_eq, State.writeback, writeIndex_reg, if_pos (by decide), if_pos rfl]
    have hwb := writebackStage_of_pcWrite hxr
    rcases branchRetire_stream (pipeStep s) v D.ipc D.npc with ⟨hhit, hdr', hdq', hfr', hreg⟩ | ⟨hdr', hdq', hfr', hreg⟩ <;>
      rw [← hwb] at hdr' hdq' hfr' hreg
    · exact continues (by rw [hpc, hhit, hnpc]) (pending_congr hdr' hdq') (fetchAddr_congr hfr' hreg)
    · exact .inl ⟨hdata', by rw [pending_eq_dq hdr', hdq'], by rw [fetchAddr_of_none hfr', hreg, hpc]⟩
  · have hnot : ∀ v, c ≠ .registers 31#5 v := not_exists.1 hpcWrite
    have hwb : writebackStage (pipeStep s) = (pipeStep s).writeback c := by
      rcases writebackStage_cases (pipeStep s) with ⟨hx, -⟩ | ⟨v, _, _, hx, -⟩ | ⟨k, _, _, hx, -, e⟩ <;> rw [hxr] at hx <;>
        cases hx
      · exact absurd rfl (hnot v)
      · exact e
    have hline : (writebackStage s).fetchAddr = σ.pc + 4#32 := by
      refine hwithin.line.resolve_right fun ⟨done', u, hops', hjump⟩ => ?_
      rw [← h.fetchedWord hlegal, hops, hrest, List.map_cons, List.map_nil] at hops'
      obtain ⟨-, hlast⟩ := List.append_inj' hops' rfl
      obtain rfl : D.op = u := by simpa using hlast
      obtain ⟨v, hv⟩ := hjump.command hcommand
      exact hnot v hv
    refine continues ?_ ?_ ?_
    · rw [hline, pc_eq (τ.writeback c), writeback_reg31 hnot, ← hwithin.pc, pc_eq]
    · rw [hwb]; exact pending_congr (writeback_dr ..) (writeback_dq ..)
    · rw [hwb]; exact fetchAddr_congr (writeback_fr ..) (writeback_reg31 hnot _)

/-- The last micro-op of an instruction other than `hlt` retires: the simulation goes on behind the serial step. -/
theorem Simulates.last_micro_op (hrest : (writebackStage s).dq = []) (hhalt : c ≠ .halt) :
    ∃ m' σ', m = m' + 1 ∧ Simulates m0 t m' σ' (pipeStep s) := by
  obtain ⟨-, hdata, -, -, -⟩ := h.executes hlegal hdr hwithin hcommand
  obtain ⟨hipc, -⟩ := hwithin.source D (by simp)
  have hnext := hwithin.next
  rw [List.map_cons, retireOps_command (by rwa [← hipc]), hrest, List.map_nil, retireOps_nil] at hnext
  obtain ⟨m', hm, hremaining⟩ := h.remaining_of_step hnext
  have hreach := h.reached.step hnext
  have hrun : (τ.writeback c).Running := by
    refine ⟨?_, (writeback_fault ..).trans hwithin.running.2⟩
    rw [← Bool.not_eq_true, writeback_halted_iff]
    simp [hwithin.running.1, hhalt]
  exact ⟨m', _, hm, hreach, hrun, hremaining, h.stops, hdata.running hwithin.running,
    h.coherent_next hlegal hdr hwithin hcommand, h.follows_next hlegal hdr hwithin hcommand hrest hhalt hreach hrun⟩

end Executes

/-- One step of the pipeline: it stops as the serial reference does, or the simulation goes on, nearer to the end. -/
theorem Simulates.turn : StopsAs t (pipeStep s) ∨ ∃ m' σ', Simulates m0 t m' σ' (pipeStep s) ∧
    10 * m' + (writebackStage (pipeStep s)).rank < 10 * m + (writebackStage s).rank := by
  cases hdr : (writebackStage s).dr with
  | none =>
    obtain ⟨hnext, hrank⟩ := h.bubble hlegal hdr
    exact .inr ⟨m, σ, hnext, by omega⟩
  | some D =>
    have hpending := pending_eq_cons hdr
    obtain ⟨τ, hwithin⟩ : ∃ τ, Within m0 σ τ (writebackStage s) (D :: (writebackStage s).dq) := by
      rcases h.follows with hbetween | ⟨τ, us, hwithin⟩
      · rw [hbetween.pending] at hpending; cases hpending
      · exact ⟨τ, hpending ▸ hwithin.pending ▸ hwithin⟩
    cases hop : runOp (decodedOp D.op) D.ipc τ with
    | raise f => exact .inl (h.faults hdr hwithin hop)
    | command c =>
      by_cases hrest : (writebackStage s).dq = []
      · by_cases hhalt : c = .halt
        · exact .inl (h.halts hlegal hdr hwithin hop hrest hhalt)
        · obtain ⟨m', σ', rfl, hnext⟩ := h.last_micro_op hlegal hdr hwithin hop hrest hhalt
          have hle := hnext.follows.rank_le
          have hpos : 0 < (writebackStage s).rank := by simp [State.rank, hpending]
          exact .inr ⟨m', σ', hnext, by omega⟩
      · obtain ⟨hnext, hrank⟩ := h.first_micro_op hlegal hdr hwithin hop hrest
        exact .inr ⟨m, σ, hnext, by omega⟩

end Turn

/-! ### The whole run -/

/-- A pipeline that follows the serial run of a legal program stops as it does. -/
theorem Simulates.stopsAs {m0 : Memory} (hlegal : Legal m0) {t σ s : State} {m : Nat} (h : Simulates m0 t m σ s) :
    StopsAs t s := by
  induction hmeasure : 10 * m + (writebackStage s).rank using Nat.strong_induction_on generalizing m σ s with
  | _ n ih =>
    have hpiped : s.Piped := by rw [State.Piped, ← writebackStage_variant]; exact h.coherent.piped
    refine StopsAs.of_step hpiped ?_
    rcases h.turn hlegal with hstops | ⟨m', σ', hnext, hless⟩
    · exact hstops
    · exact ih _ (hmeasure ▸ hless) hnext rfl

/-- After reset the serial reference and a pipelined variant stand at the same first instruction. -/
theorem boot_simulates {m0 : Memory} {v : Variant} {t : State} {n : Nat} (hwf : m0.wf = true) (hv : v ≠ .serial)
    (hreach : Reaches (State.boot .serial m0) n t) (hstops : t.stopped = true) :
    Simulates m0 t n (State.boot .serial m0) (State.boot v m0) where
  reached := SerialReaches.boot m0
  running := ⟨rfl, rfl⟩
  remaining := hreach
  stops := hstops
  pipe := ⟨rfl, rfl⟩
  coherent := boot_coherent hwf hv
  follows := .inl ⟨⟨fun _ _ => rfl, rfl, rfl, rfl, rfl⟩, rfl, rfl⟩

/-- Settles O60: the simulation holds after reset, and each step of the pipeline keeps it, until both runs have stopped. -/
theorem variantsAgree : Obligations.VariantsAgree := by
  intro m0 v hwf hlegal hv
  have ⟨⟨n, t, hreach, hstops⟩, _, _⟩ := hlegal
  obtain ⟨k, u, hpipe, hstopped, hsame⟩ := (boot_simulates hwf hv hreach hstops).stopsAs hlegal
  exact ⟨n, t, k, u, hreach, hstops, hpipe, hstopped, hsame⟩

end Sys2Proof.Machine
end
